-- ==== Sys2Proof/Word.lean ====
section
/-! DEFINITION. The word of the Criathon engine and its plainest arithmetic (00_scope.md R6). -/

namespace Sys2Proof

/-- A data word: `XLEN` = 32 bits, read as a two's complement signed integer (R4, R10). -/
abbrev Word := BitVec 32

/-- An instruction word, the contents of one slot of the program store: 128 bits (R51). -/
abbrev IWord := BitVec 128

/-- A statistics counter: 64 bits, wrapping modulo 2^64 (R21). -/
abbrev Counter := BitVec 64

/-- `wrap(v)`: the word whose unsigned value is `v mod 2^32` (R6). -/
def wrap (v : Int) : Word := BitVec.ofInt 32 v

/-- `v` lies in the range of a signed word, `-2^31` to `2^31 - 1` (R97 (a)). -/
def fitsWord (v : Int) : Bool := decide (-2147483648 ≤ v) && decide (v ≤ 2147483647)

end Sys2Proof
end

