-- ==== Sys2Proof/Config.lean ====
section
/-! DEFINITION. The implementation parameters of 00_scope.md R4 and the two free values of 10_state.md R25. -/

namespace Sys2Proof

/-- Parameter `Overflow` (R4; 93_implementation_defined.md U1): what becomes of a result of ADD, SUB, MUL, or of DIV
of -2^31 by -1, that does not fit a word. `refuse` is the spec's "no step". -/
inductive Overflow where
  | wrap
  | refuse
  deriving DecidableEq, Repr

/-- Parameter `DivMod` (R4; 93_implementation_defined.md U3): the rounding of the quotient of DIV, and with it the
remainder of MOD. -/
inductive DivMod where
  | floor
  | trunc
  deriving DecidableEq, Repr

/-- The parameters of R4 that may vary. They are fixed for the life of an engine. -/
structure Config where
  nreg : Nat
  memSize : Nat
  nsect : Nat
  nin : Nat
  nout : Nat
  progMax : Nat
  overflow : Overflow
  divMod : DivMod
  deriving DecidableEq, Repr

/-- The column `default` of R4. -/
def Config.default : Config where
  nreg := 8
  memSize := 1024
  nsect := 64
  nin := 1
  nout := 1
  progMax := 256
  overflow := .wrap
  divMod := .floor

/-- The column `legal range` of R4. -/
def Config.legal (c : Config) : Bool :=
  decide (1 ≤ c.nreg) && decide (c.nreg ≤ 2 ^ 32 - 1)
    && decide (256 ≤ c.memSize) && decide (c.memSize ≤ 2 ^ 31)
    && decide (1 ≤ c.nsect) && decide (c.nsect ≤ 2 ^ 31)
    && decide (1 ≤ c.nin) && decide (c.nin ≤ 2 ^ 32)
    && decide (1 ≤ c.nout) && decide (c.nout ≤ 2 ^ 32)
    && decide (1 ≤ c.progMax) && decide (c.progMax ≤ 2 ^ 31 - 1)

/-- `T_RAM` = 100 time units, in the half units of `TIME2` (R4, R21, R166). -/
def Config.tRam2 : Nat := 200

/-- `T_HIT` = 1 time unit, in half units (R4, R21, R166). -/
def Config.tHit2 : Nat := 2

/-- `T_MISS` = 100 time units, in half units (R4, R21, R166). -/
def Config.tMiss2 : Nat := 200

/-- `T_DISK` = 10 time units, in half units (R4, R21, R166). -/
def Config.tDisk2 : Nat := 20

/-- `T_SEEK` = 0.5 time unit for each sector of distance, in half units (R4, R21, R166). -/
def Config.tSeek2 : Nat := 1

/-- FREE VALUE (log 2): the word the `n`th draw of `CacheFill(key)` gives, a word under no law (R25 (b), R37). -/
opaque Config.cacheFill (n : Nat) (key : Word) : Word

/-- FREE VALUE (log 2): the word the `n`th draw of `InputDraw(p)` gives, a word under no law (R25 (c), R130). -/
opaque Config.inputDraw (n : Nat) (p : Nat) : Word

end Sys2Proof
end

