-- ==== Sys2Proof/Syntax.lean ====
section
/-! DEFINITION. The instruction record (30_encoding.md R50): one constructor for each row of spec/opcode_table.json. -/

namespace Sys2Proof

/-- An operand of a record (R50, R52). A register or port number is the whole 32-bit field, not yet checked against
`NREG`, `NIN` or `NOUT`; `BAD` is a token that is none of the other kinds. -/
inductive Operand where
  | absent
  | reg (n : BitVec 32)
  | imm (v : Word)
  | pin (n : BitVec 32)
  | pout (n : BitVec 32)
  | bad
  deriving DecidableEq, Repr

/-- The operands of a record: `a0`, `a1`, `a2` and the bit `xa`, "the line has more than three arguments" (R50). -/
structure Args where
  a0 : Operand
  a1 : Operand
  a2 : Operand
  xa : Bool
  deriving DecidableEq, Repr

/-- The 20 instructions and the EMPTY slot (R54). Every instruction carries whatever operands its word holds: operands
that are wrong for it reach execution and fault there (R50). -/
inductive Instr where
  | empty
  | mov (r : Args)
  | add (r : Args)
  | sub (r : Args)
  | mul (r : Args)
  | div (r : Args)
  | mod (r : Args)
  | cmp (r : Args)
  | jmp (r : Args)
  | je (r : Args)
  | jne (r : Args)
  | load (r : Args)
  | store (r : Args)
  | cache (r : Args)
  | diskRead (r : Args)
  | diskWrite (r : Args)
  | diskSeek (r : Args)
  | inp (r : Args)
  | out (r : Args)
  | cacheFlush (r : Args)
  | cacheInvalidate (r : Args)
  deriving DecidableEq, Repr

end Sys2Proof
end

