-- ==== Sys2Proof/WellFormed.lean ====
section
/-! DEFINITION. Which records an assembled line or a well-formed word can hold (30_encoding.md R50, R53). The other
conditions of R53 hold of every term of `Instr` by its type: the opcode and the kinds are constructors, `RSV` has no
place, an `ABSENT` or `BAD` operand carries no value, and `empty` carries nothing. -/

namespace Sys2Proof

/-- Condition 4 of R53: an absent operand is followed only by absent operands. -/
def Args.noGap (r : Args) : Bool :=
  (r.a0 != .absent || r.a1 == .absent) && (r.a1 != .absent || r.a2 == .absent)

/-- Condition 5 of R53: more than three arguments means that the third is there. -/
def Args.xaHasThird (r : Args) : Bool := !r.xa || r.a2 != .absent

/-- A list of arguments that a source line can have. -/
def Args.wellFormed (r : Args) : Bool := r.noGap && r.xaHasThird

/-- A record that a well-formed word encodes. -/
def Instr.wellFormed : Instr → Bool
  | .empty => true
  | .mov r => r.wellFormed
  | .add r => r.wellFormed
  | .sub r => r.wellFormed
  | .mul r => r.wellFormed
  | .div r => r.wellFormed
  | .mod r => r.wellFormed
  | .cmp r => r.wellFormed
  | .jmp r => r.wellFormed
  | .je r => r.wellFormed
  | .jne r => r.wellFormed
  | .load r => r.wellFormed
  | .store r => r.wellFormed
  | .cache r => r.wellFormed
  | .diskRead r => r.wellFormed
  | .diskWrite r => r.wellFormed
  | .diskSeek r => r.wellFormed
  | .inp r => r.wellFormed
  | .out r => r.wellFormed
  | .cacheFlush r => r.wellFormed
  | .cacheInvalidate r => r.wellFormed

end Sys2Proof
end

