-- ==== Sys2Proof/Decode.lean ====
section
/-! DEFINITION. The instruction word (30_encoding.md R51 to R54): its fields, its well-formedness, the decoder and the
encoder, and the byte form of an image outside the engine (20_memory.md R31). -/

namespace Sys2Proof

/-! ### The fields of a word (R51) -/

/-- `OPC`, bits 127:120. -/
def fieldOpc (iw : IWord) : BitVec 8 := iw.extractLsb' 120 8
/-- `K0`, bits 119:116. -/
def fieldK0 (iw : IWord) : BitVec 4 := iw.extractLsb' 116 4
/-- `K1`, bits 115:112. -/
def fieldK1 (iw : IWord) : BitVec 4 := iw.extractLsb' 112 4
/-- `K2`, bits 111:108. -/
def fieldK2 (iw : IWord) : BitVec 4 := iw.extractLsb' 108 4
/-- `XA`, bit 107. -/
def fieldXa (iw : IWord) : BitVec 1 := iw.extractLsb' 107 1
/-- `RSV`, bits 106:96. -/
def fieldRsv (iw : IWord) : BitVec 11 := iw.extractLsb' 96 11
/-- `V0`, bits 95:64. -/
def fieldV0 (iw : IWord) : BitVec 32 := iw.extractLsb' 64 32
/-- `V1`, bits 63:32. -/
def fieldV1 (iw : IWord) : BitVec 32 := iw.extractLsb' 32 32
/-- `V2`, bits 31:0. -/
def fieldV2 (iw : IWord) : BitVec 32 := iw.extractLsb' 0 32

/-! ### Well-formed words (R53) -/

/-- Condition 6 of R53 for one operand: kind 0 (`ABSENT`) or 5 (`BAD`) has value 0. -/
def valueMatchesKind (k : BitVec 4) (v : BitVec 32) : Bool :=
  !(k == 0 || k == 5) || v == 0

/-- The seven conditions of R53, in its order. START refuses an image with a word that fails one (R71). -/
def wordWellFormed (iw : IWord) : Bool :=
  decide ((fieldOpc iw).toNat ≤ 20)
    && (decide ((fieldK0 iw).toNat ≤ 5) && decide ((fieldK1 iw).toNat ≤ 5) && decide ((fieldK2 iw).toNat ≤ 5))
    && fieldRsv iw == 0
    && ((fieldK0 iw != 0 || fieldK1 iw == 0) && (fieldK1 iw != 0 || fieldK2 iw == 0))
    && (fieldXa iw != 1 || fieldK2 iw != 0)
    && (valueMatchesKind (fieldK0 iw) (fieldV0 iw) && valueMatchesKind (fieldK1 iw) (fieldV1 iw)
      && valueMatchesKind (fieldK2 iw) (fieldV2 iw))
    && (fieldOpc iw != 0 || iw == 0)

/-! ### The decoder -/

/-- Why a word is ill-formed (R53, R57); the condition of R53 in brackets. -/
inductive DecodeError where
  /-- `OPC` above 20 (condition 1). -/
  | reservedOpcode
  /-- An operand kind of 6 to 15 (condition 2). -/
  | reservedKind
  /-- `RSV` not 0 (condition 3). -/
  | reservedBits
  /-- An operand after an absent one (condition 4). -/
  | operandGap
  /-- `XA` = 1 with an absent third operand (condition 5). -/
  | xaWithoutThird
  /-- A value in an `ABSENT` or `BAD` operand (condition 6). -/
  | valueInEmptyOperand
  /-- `OPC` = 0 with another bit set (condition 7). -/
  | nonzeroEmpty
  deriving DecidableEq, Repr

/-- One operand from its kind and value fields (R52). -/
def decodeOperand (k : BitVec 4) (v : BitVec 32) : Except DecodeError Operand :=
  match k.toNat with
  | 0 => if v = 0 then .ok .absent else .error .valueInEmptyOperand
  | 1 => .ok (.reg v)
  | 2 => .ok (.imm v)
  | 3 => .ok (.pin v)
  | 4 => .ok (.pout v)
  | 5 => if v = 0 then .ok .bad else .error .valueInEmptyOperand
  | _ => .error .reservedKind

/-- The instruction of an opcode number from 1 to 20 (R54). -/
def instrOfOpcode (opc : Nat) (r : Args) : Option Instr :=
  match opc with
  | 1 => some (.mov r)
  | 2 => some (.add r)
  | 3 => some (.sub r)
  | 4 => some (.mul r)
  | 5 => some (.div r)
  | 6 => some (.mod r)
  | 7 => some (.cmp r)
  | 8 => some (.jmp r)
  | 9 => some (.je r)
  | 10 => some (.jne r)
  | 11 => some (.load r)
  | 12 => some (.store r)
  | 13 => some (.cache r)
  | 14 => some (.diskRead r)
  | 15 => some (.diskWrite r)
  | 16 => some (.diskSeek r)
  | 17 => some (.inp r)
  | 18 => some (.out r)
  | 19 => some (.cacheFlush r)
  | 20 => some (.cacheInvalidate r)
  | _ => none

/-- The conditions that tie the operands of a record together, and the reserved bits (conditions 3 to 5 of R53). -/
def admitArgs (rsv : BitVec 11) (r : Args) : Except DecodeError Args :=
  if rsv ≠ 0 then .error .reservedBits
  else if r.noGap = false then .error .operandGap
  else if r.xaHasThird = false then .error .xaWithoutThird
  else .ok r

/-- The operands of a word, or why its operand fields are ill-formed (R52, conditions 2 to 6 of R53). -/
def decodeArgs (iw : IWord) : Except DecodeError Args :=
  match decodeOperand (fieldK0 iw) (fieldV0 iw), decodeOperand (fieldK1 iw) (fieldV1 iw),
    decodeOperand (fieldK2 iw) (fieldV2 iw) with
  | .error e, _, _ => .error e
  | _, .error e, _ => .error e
  | _, _, .error e => .error e
  | .ok a0, .ok a1, .ok a2 => admitArgs (fieldRsv iw) ⟨a0, a1, a2, fieldXa iw == 1⟩

/-- `Decode(iw)`: the record of a well-formed word, or why the word is ill-formed (R53, R57). -/
def decode (iw : IWord) : Except DecodeError Instr :=
  if fieldOpc iw = 0 then
    if iw = 0 then .ok .empty else .error .nonzeroEmpty
  else
    match decodeArgs iw with
    | .error e => .error e
    | .ok r =>
      match instrOfOpcode (fieldOpc iw).toNat r with
      | some i => .ok i
      | none => .error .reservedOpcode

/-! ### The encoder -/

/-- The opcode number of a record (R54). -/
def opcodeOf : Instr → BitVec 8
  | .empty => 0x00
  | .mov _ => 0x01
  | .add _ => 0x02
  | .sub _ => 0x03
  | .mul _ => 0x04
  | .div _ => 0x05
  | .mod _ => 0x06
  | .cmp _ => 0x07
  | .jmp _ => 0x08
  | .je _ => 0x09
  | .jne _ => 0x0A
  | .load _ => 0x0B
  | .store _ => 0x0C
  | .cache _ => 0x0D
  | .diskRead _ => 0x0E
  | .diskWrite _ => 0x0F
  | .diskSeek _ => 0x10
  | .inp _ => 0x11
  | .out _ => 0x12
  | .cacheFlush _ => 0x13
  | .cacheInvalidate _ => 0x14

/-- The operands of a record; the EMPTY slot has none. -/
def argsOf : Instr → Args
  | .empty => ⟨.absent, .absent, .absent, false⟩
  | .mov r => r
  | .add r => r
  | .sub r => r
  | .mul r => r
  | .div r => r
  | .mod r => r
  | .cmp r => r
  | .jmp r => r
  | .je r => r
  | .jne r => r
  | .load r => r
  | .store r => r
  | .cache r => r
  | .diskRead r => r
  | .diskWrite r => r
  | .diskSeek r => r
  | .inp r => r
  | .out r => r
  | .cacheFlush r => r
  | .cacheInvalidate r => r

/-- The kind number of an operand (R52). -/
def kindOf : Operand → BitVec 4
  | .absent => 0
  | .reg _ => 1
  | .imm _ => 2
  | .pin _ => 3
  | .pout _ => 4
  | .bad => 5

/-- The value field of an operand (R52). -/
def valueField : Operand → BitVec 32
  | .absent => 0
  | .reg n => n
  | .imm v => v
  | .pin n => n
  | .pout n => n
  | .bad => 0

/-- A word from its fields, most significant first (R51). -/
def packWord (opc : BitVec 8) (k0 k1 k2 : BitVec 4) (xa : BitVec 1) (v0 v1 v2 : BitVec 32) : IWord :=
  opc ++ k0 ++ k1 ++ k2 ++ xa ++ (0 : BitVec 11) ++ v0 ++ v1 ++ v2

/-- `Encode`: the word of a record (R51, R53). -/
def encode (i : Instr) : IWord :=
  let r := argsOf i
  packWord (opcodeOf i) (kindOf r.a0) (kindOf r.a1) (kindOf r.a2) (if r.xa then 1 else 0)
    (valueField r.a0) (valueField r.a1) (valueField r.a2)

/-! ### Words as bytes: a program image outside the engine (R31) -/

/-- The 16 bytes of a word, most significant first (R31). -/
def wordToBytes (iw : IWord) : List (BitVec 8) :=
  (List.range 16).map fun j => iw.extractLsb' (120 - 8 * j) 8

/-- The word of 16 bytes, most significant first; more bytes push the first ones out (R31). -/
def bytesToWord (bs : List (BitVec 8)) : IWord :=
  bs.foldl (fun acc b => acc <<< 8 ||| b.setWidth 128) 0

/-- The byte form of an image (R31). -/
def imageToBytes : List IWord → List (BitVec 8)
  | [] => []
  | iw :: rest => wordToBytes iw ++ imageToBytes rest

/-- The instruction that the first 16 bytes of a byte form encode, with the bytes after them; `none` when fewer than
16 bytes are left. -/
def decodeBytes (bs : List (BitVec 8)) : Option (Except DecodeError Instr × List (BitVec 8)) :=
  if bs.length < 16 then none else some (decode (bytesToWord (bs.take 16)), bs.drop 16)

/-- The instruction the decoder reads from a row's bits `w`, numbered as spec/opcode_table.json numbers them: bit 0 is
the least significant bit of the one 128-bit word; bits from `nbits` up are 0. -/
def decodeTableWord (nbits w : Nat) : Option Instr :=
  match decode (BitVec.ofNat 128 (w % 2 ^ nbits)) with
  | .ok i => some i
  | .error _ => none

end Sys2Proof
end

