-- ==== Sys2Proof/Machine/State.lean ====
section
/-! DEFINITION. The architectural state of the engine (10_state.md R10 to R25), the reasons a step can stop, and the
state after RESET (R24). -/

namespace Sys2Proof.Machine

/-- A sparse store: (key, entry) pairs with keys strictly rising. What an unlisted key reads as is said by the
operation that reads it (Machine/Cells.lean). -/
abbrev Cells (α : Type) := List (Nat × α)

/-- Main memory `MEM`: (address, word) pairs; an unlisted address reads as 0, its reset value (R16, R24; log 8). -/
abbrev Memory := Cells Word

/-- The five flag bits (R12). -/
structure Flags where
  fv : Bool
  fe : Bool
  fg : Bool
  fl : Bool
  fz : Bool
  deriving DecidableEq, Repr

/-- `RUN` (R13). -/
inductive RunState where
  | idle
  | running
  | completed
  | faulted
  deriving DecidableEq, Repr

/-- The kinds `FAULT.kind` can hold (R14, R140). Code 1, `ParseError`, is START's answer and is never stored (R141). -/
inductive FaultKind where
  | none
  | invalidOperand
  | outOfRange
  | arithmeticError
  | deviceError
  deriving DecidableEq, Repr

/-- The fault record `FAULT` (R14). -/
structure FaultRecord where
  kind : FaultKind
  line : BitVec 32
  deriving DecidableEq, Repr

/-- One disk sector: its value and its allocated bit (R18). -/
structure Sector where
  val : Word
  alloc : Bool
  deriving DecidableEq, Repr

/-- A sector as RESET leaves it, `(0, 0)` (R24): what an unlisted sector number reads as. -/
def Sector.blank : Sector := ⟨0, false⟩

/-- Why the MODEL stops where the engine has no step. Every run-time error of the spec (R140) is a NEXT state of the
model, entered as R147 says; none of them is a `Fault`. -/
inductive Fault where
  /-- Raised by fetch: the slot at `pc` holds an ill-formed word. Safe: START refuses every image with such a word
  (R57, R71), so no state that the host operations reach has one; the spec gives no step there (R75; log 5). -/
  | illFormedSlot (line : BitVec 32) (why : DecodeError)
  deriving DecidableEq, Repr

/-- What the model declines to run. -/
inductive Refusal where
  /-- Raised by `exec` for an instruction that has no meaning yet; no arm of this model answers it. Safe. -/
  | notModelled (mnemonic : String)
  /-- Raised by ADD, SUB, MUL and DIV when the parameter `Overflow` is `refuse` and the exact result fits no word:
  the spec's own "no step" (R4; 93_implementation_defined.md U1; log 6). Never raised with the default `wrap`. Safe. -/
  | overflowNotAdmitted (exact : Int)
  deriving DecidableEq, Repr

/-- The state of the engine, every item of R10 to R22, and the model's own fields `cfg` (the parameters, R25 (a);
log 1), `cacheDraws` and `inputDraws` (which free value a draw takes next, R25 (b), (c); log 2). -/
structure State where
  /-- The parameters of R4, fixed for the life of the engine. -/
  cfg : Config
  /-- `x[1..NREG]`: keys are register numbers, an unlisted register holds 0 (R10, R24; log 11). -/
  regs : Cells Word
  /-- `pc` (R11). -/
  pc : BitVec 32
  /-- `FV`, `FE`, `FG`, `FL`, `FZ` (R12). -/
  flags : Flags
  /-- `RUN` (R13). -/
  run : RunState
  /-- `FAULT` (R14). -/
  fault : FaultRecord
  /-- `PROG`: the slots in use, in order; `PROG_LEN` is the list's length (R15; log 9). -/
  prog : List IWord
  /-- `MEM` (R16). -/
  mem : Memory
  /-- `CACHE`: a key is listed iff it is cached; the key's unsigned value (R17; log 10). -/
  cache : Cells Word
  /-- `DISK` (R18). -/
  disk : Cells Sector
  /-- `HEAD` (R18). -/
  head : Nat
  /-- `INQ`: keys are port numbers, an unlisted port's buffer is empty (R19). -/
  inq : Cells (List Word)
  /-- `OUTQ`: keys are port numbers, an unlisted port's record is empty (R20). -/
  outq : Cells (List Word)
  /-- `CYCLES` (R21). -/
  cycles : Counter
  /-- `READ_OPS` (R21). -/
  readOps : Counter
  /-- `WRITE_OPS` (R21). -/
  writeOps : Counter
  /-- `CACHE_HITS` (R21). -/
  cacheHits : Counter
  /-- `CACHE_MISSES` (R21). -/
  cacheMisses : Counter
  /-- `TIME2`, in half time units (R21). -/
  time2 : Counter
  /-- `EXECUTED`: bit n for opcode number n (R22). -/
  executed : BitVec 32
  /-- How many draws of `CacheFill` have been taken (R25 (b); log 2). -/
  cacheDraws : Nat
  /-- How many draws of `InputDraw` have been taken (R25 (c); log 2). -/
  inputDraws : Nat
  deriving DecidableEq, Repr

/-- The column "after RESET" of R24, for an engine of the given parameters. -/
def State.resetWith (c : Config) : State where
  cfg := c
  regs := []
  pc := 0
  flags := ⟨false, false, false, false, false⟩
  run := .idle
  fault := ⟨.none, 0⟩
  prog := []
  mem := []
  cache := []
  disk := []
  head := 0
  inq := []
  outq := []
  cycles := 0
  readOps := 0
  writeOps := 0
  cacheHits := 0
  cacheMisses := 0
  time2 := 0
  executed := 0
  cacheDraws := 0
  inputDraws := 0

/-- The engine right after power-on or RESET (R24, R160, R161), with the default parameters of R4. -/
def State.reset : State := State.resetWith Config.default

end Sys2Proof.Machine
end

