-- ==== Sys2Proof/Machine/Cells.lean ====
section
/-! DEFINITION. The sparse stores: lookup, insertion and removal in the one canonical form (log 8), and the canonical
form of each store of the engine. -/

namespace Sys2Proof.Machine

/-- The entry of a key, if it is listed. -/
def Cells.lookup {α : Type} : Cells α → Nat → Option α
  | [], _ => none
  | (k, v) :: t, a => if k = a then some v else Cells.lookup t a

/-- The store with a key's entry set, at its place in the order. -/
def Cells.insert {α : Type} : Cells α → Nat → α → Cells α
  | [], a, x => [(a, x)]
  | (k, v) :: t, a, x =>
    if a < k then (a, x) :: (k, v) :: t
    else if a = k then (a, x) :: t
    else (k, v) :: Cells.insert t a x

/-- The store with a key removed. -/
def Cells.erase {α : Type} : Cells α → Nat → Cells α
  | [], _ => []
  | (k, v) :: t, a => if k = a then Cells.erase t a else (k, v) :: Cells.erase t a

/-- Reading a store in which an unlisted key reads as `d`. -/
def Cells.read {α : Type} (d : α) (m : Cells α) (a : Nat) : α :=
  match Cells.lookup m a with
  | some v => v
  | none => d

/-- Writing a store in which an unlisted key reads as `d`: writing `d` unlists the key. -/
def Cells.write {α : Type} [DecidableEq α] (d : α) (m : Cells α) (a : Nat) (x : α) : Cells α :=
  if x = d then Cells.erase m a else Cells.insert m a x

/-- Every key of the store is above `lo`, and the keys strictly rise. -/
def Cells.risingFrom {α : Type} : Nat → Cells α → Bool
  | _, [] => true
  | lo, (k, _) :: t => decide (lo ≤ k) && Cells.risingFrom (k + 1) t

/-- The canonical form: keys strictly rising, and every entry one that `ok` admits. -/
def Cells.wf {α : Type} (ok : Nat → α → Bool) (m : Cells α) : Bool :=
  Cells.risingFrom 0 m && m.all fun p => ok p.1 p.2

/-- `MEM[a]` (R16). -/
def Memory.read (m : Memory) (a : Nat) : Word := Cells.read 0 m a

/-- `MEM[a] <- v` (R16). -/
def Memory.write (m : Memory) (a : Nat) (v : Word) : Memory := Cells.write 0 m a v

/-- The canonical form of `MEM`: addresses below `MEM_SIZE` strictly rising, no entry 0 (R16). -/
def Memory.wf (size : Nat) (m : Memory) : Bool := Cells.wf (fun a v => decide (a < size) && v != 0) m

/-- The canonical form of the register file: numbers 1 to `NREG` strictly rising, no entry 0 (R10). -/
def RegFile.wf (nreg : Nat) (m : Cells Word) : Bool :=
  Cells.wf (fun a v => decide (1 ≤ a) && decide (a ≤ nreg) && v != 0) m

/-- The canonical form of `CACHE`: keys of 32 bits strictly rising (R17). -/
def CacheMap.wf (m : Cells Word) : Bool := Cells.wf (fun a _ => decide (a < 2 ^ 32)) m

/-- The canonical form of `DISK`: sector numbers below `NSECT` strictly rising, no blank entry (R18). -/
def Disk.wf (nsect : Nat) (m : Cells Sector) : Bool :=
  Cells.wf (fun a v => decide (a < nsect) && v != Sector.blank) m

/-- The canonical form of `INQ` and `OUTQ`: port numbers below the number of ports strictly rising, no empty entry
(R19, R20). -/
def Ports.wf (nports : Nat) (m : Cells (List Word)) : Bool :=
  Cells.wf (fun a v => decide (a < nports) && v != []) m

end Sys2Proof.Machine
end

