-- ==== Sys2Proof/Machine/Ops.lean ====
section
/-! DEFINITION. The named operations over the state: reads and writes of each item, the program counter, the
completion of an instruction, fault entry (60_exceptions.md R147) and the ways out of a fault (R148), the primitives of
20_memory.md (R35 to R40) and the ports (R130 to R132). -/

namespace Sys2Proof.Machine

/-! ### Reading the state -/

/-- `x[n]` as a word (R6, R10). -/
def State.readReg (s : State) (n : Nat) : Word := Cells.read 0 s.regs n

/-- `MEM[a]` (R16). -/
def State.readMem (s : State) (a : Nat) : Word := Memory.read s.mem a

/-- `CACHE[k]`, or `none` when `k` is not cached (R17). -/
def State.cached (s : State) (k : Word) : Option Word := Cells.lookup s.cache k.toNat

/-- `DISK[n]` (R18). -/
def State.sector (s : State) (n : Nat) : Sector := Cells.read Sector.blank s.disk n

/-- `INQ[p]`, oldest word first (R19). -/
def State.inBuffer (s : State) (p : Nat) : List Word := Cells.read [] s.inq p

/-- `OUTQ[p]`, oldest word first (R20). -/
def State.outRecord (s : State) (p : Nat) : List Word := Cells.read [] s.outq p

/-- `PROG_LEN` (R15). -/
def State.progLen (s : State) : Nat := s.prog.length

/-- `PROG[i]`: slots from `PROG_LEN` up are all-zero (R15, R24). -/
def State.slot (s : State) (i : Nat) : IWord := s.prog.getD i 0

/-- The code of a run state (R13). -/
def RunState.code : RunState → BitVec 2
  | .idle => 0
  | .running => 1
  | .completed => 2
  | .faulted => 3

/-- The code of a fault kind (R14, R140). -/
def FaultKind.code : FaultKind → BitVec 3
  | .none => 0
  | .invalidOperand => 2
  | .outOfRange => 3
  | .arithmeticError => 4
  | .deviceError => 5

/-! ### Writing the state -/

/-- `x[n] <- v` (R6, R10). -/
def State.writeReg (s : State) (n : Nat) (v : Word) : State := { s with regs := Cells.write 0 s.regs n v }

/-- `MEM[n] <- v` (R16, R36). -/
def State.writeMem (s : State) (n : Nat) (v : Word) : State := { s with mem := Memory.write s.mem n v }

/-- `DISK[n] <- x` (R18, R40). -/
def State.writeSector (s : State) (n : Nat) (x : Sector) : State :=
  { s with disk := Cells.write Sector.blank s.disk n x }

/-- `HEAD <- n` (R18, R40). -/
def State.moveHead (s : State) (n : Nat) : State := { s with head := n }

/-- `INQ[p] <- q` (R19). -/
def State.setInBuffer (s : State) (p : Nat) (q : List Word) : State := { s with inq := Cells.write [] s.inq p q }

/-- `OUTQ[p] <- q` (R20). -/
def State.setOutRecord (s : State) (p : Nat) (q : List Word) : State := { s with outq := Cells.write [] s.outq p q }

/-- One more draw of `InputDraw` taken (R25 (c); log 2). -/
def State.countInputDraw (s : State) : State := { s with inputDraws := s.inputDraws + 1 }

/-- `pc <- pc + 1` (R77). -/
def State.advance (s : State) : State := { s with pc := s.pc + 1 }

/-- `pc <- t` (R77, R101). -/
def State.jumpTo (s : State) (t : BitVec 32) : State := { s with pc := t }

/-- All five flags written at once (R100). -/
def State.setFlags (s : State) (f : Flags) : State := { s with flags := f }

/-- One read operation and its cost in half time units (R21, R166). -/
def State.chargeRead (s : State) (cost : Nat) : State :=
  { s with readOps := s.readOps + 1, time2 := s.time2 + BitVec.ofNat 64 cost }

/-- One write operation and its cost in half time units (R21, R166). -/
def State.chargeWrite (s : State) (cost : Nat) : State :=
  { s with writeOps := s.writeOps + 1, time2 := s.time2 + BitVec.ofNat 64 cost }

/-- A cost in half time units that counts no operation (R21, R166). -/
def State.chargeTime (s : State) (cost : Nat) : State :=
  { s with time2 := s.time2 + BitVec.ofNat 64 cost }

/-- The bookkeeping of an instruction that completes: `CYCLES` and the opcode's bit of `EXECUTED` (R78). -/
def State.retire (s : State) (opc : BitVec 8) : State :=
  { s with cycles := s.cycles + 1, executed := s.executed ||| (1 : BitVec 32) <<< opc.toNat }

/-- The end of a run at fetch: `RUN <- Completed` (R74). -/
def State.markCompleted (s : State) : State := { s with run := .completed }

/-! ### Taking a fault, and the ways out of it -/

/-- FAULT ENTRY (R147): `RUN <- Faulted`, `FAULT <- (kind, pc + 1)`, and nothing else. -/
def State.takeFault (s : State) (k : FaultKind) : State :=
  { s with run := .faulted, fault := ⟨k, s.pc + 1⟩ }

/-- RESET (R160): the column "after RESET" of R24. It is one of the two ways out of `Faulted` (R148). The parameters
are the engine's for life, and the draws already taken stay taken: they are the environment's (log 2). -/
def State.hostReset (s : State) : State :=
  { State.resetWith s.cfg with cacheDraws := s.cacheDraws, inputDraws := s.inputDraws }

/-- The installation phase of START (R71, R162): the other way out of `Faulted` (R148). It keeps `MEM`, `CACHE`,
`DISK`, `HEAD`, `INQ` and `OUTQ`. -/
def State.install (s : State) (image : List IWord) : State :=
  { s with
    prog := image
    regs := []
    pc := 0
    flags := ⟨false, false, false, false, false⟩
    cycles := 0
    readOps := 0
    writeOps := 0
    cacheHits := 0
    cacheMisses := 0
    time2 := 0
    executed := 0
    fault := ⟨.none, 0⟩
    run := .running }

/-- The state with `iw` in the slot that `pc` names, running: what a program load does for one word (log 3). Slots
between `PROG_LEN` and `pc` become all-zero slots. -/
def State.placeWord (s : State) (iw : IWord) : State :=
  { s with
    run := .running
    prog := s.prog.take s.pc.toNat ++ List.replicate (s.pc.toNat - s.prog.length) 0
      ++ iw :: s.prog.drop (s.pc.toNat + 1) }

/-! ### Checks (R76): a meaning computes all its checks before its writes -/

/-- How a meaning ends without its effect: a `raise` of the spec (R140), or a refusal of the model. -/
inductive Abort where
  | raise (k : FaultKind)
  | refuse (r : Refusal)
  deriving DecidableEq, Repr

/-- A computation that ends in a value or in an `Abort`. The first `raise` ends the instruction (R146). -/
abbrev Check (α : Type) := Except Abort α

/-- `raise <Kind>` (R6). -/
def raise {α : Type} (k : FaultKind) : Check α := .error (.raise k)

/-- The end of every instruction rule (R72): a completed rule's writes are applied and booked (R78); a raised fault is
taken in the state before the rule, so that nothing else has changed (R76, R147). -/
def conclude (i : Instr) (s : State) (body : Check State) : Host.Outcome State Fault Refusal :=
  match body with
  | .ok t => .next (t.retire (opcodeOf i))
  | .error (.raise k) => .next (s.takeFault k)
  | .error (.refuse r) => .refused r

/-! ### The RAM validator and sequencer (R35, R36) -/

/-- `ValidateAddr` and `ValidateSector` (R35, R40): a signed literal in `[0, size)`, as a number. -/
def validateIndex (size : Nat) (a : Word) : Check Nat :=
  if a.toInt < 0 ∨ (size : Int) ≤ a.toInt then raise .outOfRange else .ok a.toInt.toNat

/-- `MemRead(a, 1)` (R36): the word read, and the state with the read charged. -/
def memRead (s : State) (a : Word) : Check (Word × State) :=
  match validateIndex s.cfg.memSize a with
  | .error e => .error e
  | .ok n => .ok (s.readMem n, s.chargeRead Config.tRam2)

/-- `MemWrite(a, 1, v)` (R36). -/
def memWrite (s : State) (a : Word) (v : Word) : Check State :=
  match validateIndex s.cfg.memSize a with
  | .error e => .error e
  | .ok n => .ok ((s.writeMem n v).chargeWrite Config.tRam2)

/-! ### The cache controller (R37) -/

/-- A hit of `CacheAccess` (R37). -/
def State.countHit (s : State) : State := { s with cacheHits := s.cacheHits + 1 }.chargeTime Config.tHit2

/-- A miss of `CacheAccess` (R37): the drawn word `v` becomes the entry of `k`. -/
def State.fillMiss (s : State) (k v : Word) : State :=
  { s with
    cache := Cells.insert s.cache k.toNat v
    cacheMisses := s.cacheMisses + 1
    cacheDraws := s.cacheDraws + 1 }.chargeRead Config.tMiss2

/-- `CacheAccess(k)` (R37): the word, and the state with the access booked. A miss takes the next draw of `CacheFill`,
a free value (R25 (b); log 2). -/
def cacheAccess (s : State) (k : Word) : Word × State :=
  match s.cached k with
  | some v => (v, s.countHit)
  | none => (Config.cacheFill s.cacheDraws k, s.fillMiss k (Config.cacheFill s.cacheDraws k))

/-- `CacheFlush()` (R37). -/
def State.flushCache (s : State) : State := { s with cache := [] }

/-- `CacheInvalidate(k)` (R37). -/
def State.invalidate (s : State) (k : Word) : State := { s with cache := Cells.erase s.cache k.toNat }

/-! ### The disk controller (R40) -/

/-- `DiskRead(s)` (R40). -/
def diskRead (s : State) (a : Word) : Check (Word × State) :=
  match validateIndex s.cfg.nsect a with
  | .error e => .error e
  | .ok n => .ok ((s.sector n).val, s.chargeRead Config.tDisk2)

/-- `DiskWrite(s, v)` (R40): the sector's value, its allocated bit set. -/
def diskWrite (s : State) (a : Word) (v : Word) : Check State :=
  match validateIndex s.cfg.nsect a with
  | .error e => .error e
  | .ok n => .ok ((s.writeSector n ⟨v, true⟩).chargeWrite Config.tDisk2)

/-- The distance `|s - HEAD|` in sectors (R40). -/
def seekDistance (target head : Nat) : Nat := ((target : Int) - (head : Int)).natAbs

/-- `DiskSeek(s)` (R40). -/
def diskSeek (s : State) (a : Word) : Check State :=
  match validateIndex s.cfg.nsect a with
  | .error e => .error e
  | .ok n => .ok ((s.moveHead n).chargeTime (seekDistance n s.head * Config.tSeek2))

/-! ### The ports (R130 to R132) -/

/-- The input half of IN (R130): the head of `INQ[p]`, removed; or, on an empty buffer, the next draw of `InputDraw`,
a free value (R25 (c); log 2). -/
def portIn (s : State) (p : Nat) : Word × State :=
  match s.inBuffer p with
  | v :: rest => (v, s.setInBuffer p rest)
  | [] => (Config.inputDraw s.inputDraws p, s.countInputDraw)

/-- The output half of OUT (R131): `v` at the end of `OUTQ[p]`. -/
def State.portOut (s : State) (p : Nat) (v : Word) : State := s.setOutRecord p (s.outRecord p ++ [v])

/-- The append of INJECT (R132): `v` at the tail of `INQ[p]`. -/
def State.injectWord (s : State) (p : Nat) (v : Word) : State := s.setInBuffer p (s.inBuffer p ++ [v])

end Sys2Proof.Machine
end

