-- ==== Sys2Proof/Machine/Operands.lean ====
section
/-! DEFINITION. Argument counts and operand resolution (30_encoding.md R50, R55, R56; 40_engine_cycle.md R75), the two
forms of the arithmetic instructions (41_move_arith.md R91) and the jump target (42_compare_jump.md R101). -/

namespace Sys2Proof.Machine

/-- 1 for an operand that is there, 0 for `ABSENT`. -/
def presence : Operand → Nat
  | .absent => 0
  | _ => 1

/-- `argc` (R50): the operands that are there, and one more for `xa`. -/
def argc (r : Args) : Nat :=
  presence r.a0 + presence r.a1 + presence r.a2 + (if r.xa then 1 else 0)

/-- `CheckArgc` (R75) for the counts R54 allows. -/
def checkArgc (r : Args) (allowed : List Nat) : Check Unit :=
  if argc r ∈ allowed then .ok () else raise .invalidOperand

/-- `RegDest` (R56): the number of a register that exists. -/
def regDest (s : State) : Operand → Check Nat
  | .reg n => if 1 ≤ n.toNat ∧ n.toNat ≤ s.cfg.nreg then .ok n.toNat else raise .invalidOperand
  | _ => raise .invalidOperand

/-- `ValueOf` (R56): the content of a register that exists, or an immediate. -/
def valueOf (s : State) : Operand → Check Word
  | .reg n =>
    if 1 ≤ n.toNat ∧ n.toNat ≤ s.cfg.nreg then .ok (s.readReg n.toNat) else raise .invalidOperand
  | .imm v => .ok v
  | _ => raise .invalidOperand

/-- `LitOf` (R56): an immediate only. -/
def litOf : Operand → Check Word
  | .imm v => .ok v
  | _ => raise .invalidOperand

/-- `InPortOf` (R56): the number of an input port that exists. -/
def inPortOf (s : State) : Operand → Check Nat
  | .pin n => if n.toNat < s.cfg.nin then .ok n.toNat else raise .deviceError
  | _ => raise .deviceError

/-- `OutPortOf` (R56): the number of an output port that exists. -/
def outPortOf (s : State) : Operand → Check Nat
  | .pout n => if n.toNat < s.cfg.nout then .ok n.toNat else raise .deviceError
  | _ => raise .deviceError

/-- `ArithOperands` (R91): the destination, the left value and the right value, in the three-argument form or in the
two-argument form, whose left value is the old destination. -/
def arithOperands (s : State) (r : Args) : Check (Nat × Word × Word) := do
  checkArgc r [2, 3]
  let d ← regDest s r.a0
  if argc r = 3 then
    let a ← valueOf s r.a1
    let b ← valueOf s r.a2
    return (d, a, b)
  else
    let b ← valueOf s r.a1
    return (d, s.readReg d, b)

/-- `JumpTarget` (R101): the zero-based slot of a literal line in `[1, PROG_LEN]`. -/
def jumpTarget (s : State) (r : Args) : Check (BitVec 32) := do
  checkArgc r [1]
  let line ← litOf r.a0
  if line.toInt < 1 ∨ (s.progLen : Int) < line.toInt then raise .outOfRange else return line - 1

end Sys2Proof.Machine
end

