-- ==== Sys2Proof/Machine/Flags.lean ====
section
/-! DEFINITION. The flags CMP computes (42_compare_jump.md R100; 10_state.md R12) and the conditions JE and JNE read
(R103, R104). -/

namespace Sys2Proof.Machine

/-- The five flags of a comparison of two signed values (R100). The comparison is exact, not by a wrapping
subtraction. -/
def compareFlags (a b : Word) : Flags where
  fv := true
  fe := decide (a.toInt = b.toInt)
  fg := decide (b.toInt < a.toInt)
  fl := decide (a.toInt < b.toInt)
  fz := decide (a.toInt - b.toInt = 0)

/-- JE jumps iff `FE` = 1 (R103). -/
def Flags.jeTaken (f : Flags) : Bool := f.fe

/-- JNE jumps iff `FV` = 1 and `FE` = 0 (R104). -/
def Flags.jneTaken (f : Flags) : Bool := f.fv && !f.fe

end Sys2Proof.Machine
end

