-- ==== Sys2Proof/Machine/CompareJump.lean ====
section
/-! DEFINITION. CMP, JMP, JE and JNE (42_compare_jump.md R100 to R104). -/

namespace Sys2Proof.Machine

/-- CMP (R100). -/
def execCmp (r : Args) (s : State) : Host.Outcome State Fault Refusal :=
  conclude (.cmp r) s do
    checkArgc r [2]
    let a ← valueOf s r.a0
    let b ← valueOf s r.a1
    return (s.setFlags (compareFlags a b)).advance

/-- JMP (R102). -/
def execJmp (r : Args) (s : State) : Host.Outcome State Fault Refusal :=
  conclude (.jmp r) s do
    let t ← jumpTarget s r
    return s.jumpTo t

/-- JE (R103): the target is checked whether or not the jump is taken. -/
def execJe (r : Args) (s : State) : Host.Outcome State Fault Refusal :=
  conclude (.je r) s do
    let t ← jumpTarget s r
    return if s.flags.jeTaken then s.jumpTo t else s.advance

/-- JNE (R104): the target is checked whether or not the jump is taken. -/
def execJne (r : Args) (s : State) : Host.Outcome State Fault Refusal :=
  conclude (.jne r) s do
    let t ← jumpTarget s r
    return if s.flags.jneTaken then s.jumpTo t else s.advance

end Sys2Proof.Machine
end

