-- ==== Sys2Proof/Machine/DiskOps.lean ====
section
/-! DEFINITION. DISK_READ, DISK_WRITE and DISK_SEEK (44_disk.md R120 to R122). -/

namespace Sys2Proof.Machine

/-- DISK_READ (R120). -/
def execDiskRead (r : Args) (s : State) : Host.Outcome State Fault Refusal :=
  conclude (.diskRead r) s do
    checkArgc r [2]
    let d ← regDest s r.a0
    let a ← litOf r.a1
    let (v, t) ← diskRead s a
    return (t.writeReg d v).advance

/-- DISK_WRITE (R121): the data operand first, the sector second. -/
def execDiskWrite (r : Args) (s : State) : Host.Outcome State Fault Refusal :=
  conclude (.diskWrite r) s do
    checkArgc r [2]
    let v ← valueOf s r.a0
    let a ← litOf r.a1
    let t ← diskWrite s a v
    return t.advance

/-- DISK_SEEK (R122). -/
def execDiskSeek (r : Args) (s : State) : Host.Outcome State Fault Refusal :=
  conclude (.diskSeek r) s do
    checkArgc r [1]
    let a ← litOf r.a0
    let t ← diskSeek s a
    return t.advance

end Sys2Proof.Machine
end

