-- ==== Sys2Proof/Machine/Fetch.lean ====
section
/-! DEFINITION. Fetch and decode (40_engine_cycle.md R72 to R75, R80) and the EMPTY slot (R81). -/

namespace Sys2Proof.Machine

/-- How many EMPTY slots a stretch of the program store begins with (R73). -/
def leadingEmpties : List IWord → Nat
  | [] => 0
  | iw :: rest => if iw = 0 then leadingEmpties rest + 1 else 0

/-- The skipping of fetch (R73): `pc` past every EMPTY slot from it on. -/
def State.skipEmpties (s : State) : State :=
  { s with pc := s.pc + BitVec.ofNat 32 (leadingEmpties (s.prog.drop s.pc.toNat)) }

/-- What fetch finds (R72). -/
inductive Fetched where
  /-- The engine is not `Running` (R80). -/
  | notRunning
  /-- No slot is left; the state has the skipping done (R74). -/
  | endOfProgram (t : State)
  /-- An ill-formed word, which START never installs. -/
  | illFormed (line : BitVec 32) (why : DecodeError)
  /-- An instruction; the state has the skipping done, its `pc` names the instruction's slot (R73). -/
  | instruction (i : Instr) (t : State)
  deriving DecidableEq, Repr

/-- The fetch and decode of one tick (R72, R73, R75). -/
def fetch (s : State) : Fetched :=
  if s.run = .running then
    let t := s.skipEmpties
    if t.progLen ≤ t.pc.toNat then .endOfProgram t
    else
      match decode (t.slot t.pc.toNat) with
      | .ok i => .instruction i t
      | .error e => .illFormed (t.pc + 1) e
  else .notRunning

/-- The EMPTY slot (R81): fetch passes over it. It writes `pc` and nothing else: no counter, no `EXECUTED` bit. -/
def execEmpty (s : State) : Host.Outcome State Fault Refusal := .next s.advance

end Sys2Proof.Machine
end

