-- ==== Sys2Proof/Machine/MemoryCache.lean ====
section
/-! DEFINITION. LOAD, STORE, CACHE, CACHE_FLUSH and CACHE_INVALIDATE (43_memory_cache.md R110 to R114). -/

namespace Sys2Proof.Machine

/-- LOAD (R110). -/
def execLoad (r : Args) (s : State) : Host.Outcome State Fault Refusal :=
  conclude (.load r) s do
    checkArgc r [2]
    let d ← regDest s r.a0
    let a ← litOf r.a1
    let (v, t) ← memRead s a
    return (t.writeReg d v).advance

/-- STORE (R111): the data operand first, the address second. -/
def execStore (r : Args) (s : State) : Host.Outcome State Fault Refusal :=
  conclude (.store r) s do
    checkArgc r [2]
    let v ← valueOf s r.a0
    let a ← litOf r.a1
    let t ← memWrite s a v
    return t.advance

/-- CACHE (R112): the key is not range-checked. -/
def execCache (r : Args) (s : State) : Host.Outcome State Fault Refusal :=
  conclude (.cache r) s do
    checkArgc r [2]
    let d ← regDest s r.a0
    let k ← litOf r.a1
    let p := cacheAccess s k
    return (p.2.writeReg d p.1).advance

/-- CACHE_FLUSH (R113). -/
def execCacheFlush (r : Args) (s : State) : Host.Outcome State Fault Refusal :=
  conclude (.cacheFlush r) s do
    checkArgc r [0]
    return s.flushCache.advance

/-- CACHE_INVALIDATE (R114): the key is not range-checked. -/
def execCacheInvalidate (r : Args) (s : State) : Host.Outcome State Fault Refusal :=
  conclude (.cacheInvalidate r) s do
    checkArgc r [1]
    let k ← litOf r.a0
    return (s.invalidate k).advance

end Sys2Proof.Machine
end

