-- ==== Sys2Proof/Machine/MoveArith.lean ====
section
/-! DEFINITION. MOV, ADD, SUB, MUL, DIV and MOD (41_move_arith.md R90 to R97). -/

namespace Sys2Proof.Machine

/-- The word of an exact result (R97 (b), (c)): `wrap` of it, or the spec's "no step" when it fits no word and the
parameter `Overflow` is `refuse` (R4; 93_implementation_defined.md U1; log 6). -/
def narrow (s : State) (exact : Int) : Check Word :=
  match s.cfg.overflow with
  | .wrap => .ok (wrap exact)
  | .refuse => if fitsWord exact then .ok (wrap exact) else .error (.refuse (.overflowNotAdmitted exact))

/-- The exact quotient of DIV: rounded toward minus infinity, or toward zero when the parameter `DivMod` is `trunc`
(R95, R97; 93_implementation_defined.md U3). -/
def quotient (m : DivMod) (a b : Int) : Int :=
  match m with
  | .floor => a.fdiv b
  | .trunc => a.tdiv b

/-- The exact remainder of MOD, the one that goes with the quotient (R96). -/
def remainder (m : DivMod) (a b : Int) : Int := a - b * quotient m a b

/-- What ADD, SUB, MUL, DIV and MOD share (R91): operands, the result `op` computes from the left and the right value,
the destination, the next slot. -/
def arith (i : Instr) (r : Args) (s : State) (op : Word → Word → Check Word) : Host.Outcome State Fault Refusal :=
  conclude i s do
    let (d, a, b) ← arithOperands s r
    let v ← op a b
    return (s.writeReg d v).advance

/-- MOV (R90). -/
def execMov (r : Args) (s : State) : Host.Outcome State Fault Refusal :=
  conclude (.mov r) s do
    checkArgc r [2]
    let d ← regDest s r.a0
    let v ← valueOf s r.a1
    return (s.writeReg d v).advance

/-- ADD (R92). -/
def execAdd (r : Args) (s : State) : Host.Outcome State Fault Refusal :=
  arith (.add r) r s fun a b => narrow s (a.toInt + b.toInt)

/-- SUB (R93): left minus right. -/
def execSub (r : Args) (s : State) : Host.Outcome State Fault Refusal :=
  arith (.sub r) r s fun a b => narrow s (a.toInt - b.toInt)

/-- MUL (R94). -/
def execMul (r : Args) (s : State) : Host.Outcome State Fault Refusal :=
  arith (.mul r) r s fun a b => narrow s (a.toInt * b.toInt)

/-- DIV (R95): the divisor is checked after the operands. -/
def execDiv (r : Args) (s : State) : Host.Outcome State Fault Refusal :=
  arith (.div r) r s fun a b =>
    if b.toInt = 0 then raise .arithmeticError else narrow s (quotient s.cfg.divMod a.toInt b.toInt)

/-- MOD (R96): the result always fits a word. -/
def execMod (r : Args) (s : State) : Host.Outcome State Fault Refusal :=
  arith (.mod r) r s fun a b =>
    if b.toInt = 0 then raise .arithmeticError else .ok (wrap (remainder s.cfg.divMod a.toInt b.toInt))

end Sys2Proof.Machine
end

