-- ==== Sys2Proof/Machine/PortOps.lean ====
section
/-! DEFINITION. IN and OUT (45_io.md R130, R131). -/

namespace Sys2Proof.Machine

/-- IN (R130). -/
def execIn (r : Args) (s : State) : Host.Outcome State Fault Refusal :=
  conclude (.inp r) s do
    checkArgc r [2]
    let d ← regDest s r.a0
    let p ← inPortOf s r.a1
    let q := portIn s p
    return (q.2.writeReg d q.1).advance

/-- OUT (R131). -/
def execOut (r : Args) (s : State) : Host.Outcome State Fault Refusal :=
  conclude (.out r) s do
    checkArgc r [2]
    let v ← valueOf s r.a0
    let p ← outPortOf s r.a1
    return (s.portOut p v).advance

end Sys2Proof.Machine
end

