-- ==== Sys2Proof/Machine/Dispatch.lean ====
section
/-! DEFINITION. One arm for each row of spec/opcode_table.json, each one call of its meaning. -/

namespace Sys2Proof.Machine

def exec (i : Instr) (s : State) : Host.Outcome State Fault Refusal :=
  match i with
  | .empty => Sys2Proof.Machine.execEmpty s
  | .mov r => Sys2Proof.Machine.execMov r s
  | .add r => Sys2Proof.Machine.execAdd r s
  | .sub r => Sys2Proof.Machine.execSub r s
  | .mul r => Sys2Proof.Machine.execMul r s
  | .div r => Sys2Proof.Machine.execDiv r s
  | .mod r => Sys2Proof.Machine.execMod r s
  | .cmp r => Sys2Proof.Machine.execCmp r s
  | .jmp r => Sys2Proof.Machine.execJmp r s
  | .je r => Sys2Proof.Machine.execJe r s
  | .jne r => Sys2Proof.Machine.execJne r s
  | .load r => Sys2Proof.Machine.execLoad r s
  | .store r => Sys2Proof.Machine.execStore r s
  | .cache r => Sys2Proof.Machine.execCache r s
  | .diskRead r => Sys2Proof.Machine.execDiskRead r s
  | .diskWrite r => Sys2Proof.Machine.execDiskWrite r s
  | .diskSeek r => Sys2Proof.Machine.execDiskSeek r s
  | .inp r => Sys2Proof.Machine.execIn r s
  | .out r => Sys2Proof.Machine.execOut r s
  | .cacheFlush r => Sys2Proof.Machine.execCacheFlush r s
  | .cacheInvalidate r => Sys2Proof.Machine.execCacheInvalidate r s

end Sys2Proof.Machine
end

