-- ==== Sys2Proof/Machine/Step.lean ====
section
/-! DEFINITION. STEP, one tick of the engine (40_engine_cycle.md R72), and the placing of one word where it fetches. -/

namespace Sys2Proof.Machine

/-- STEP (R72). Outside `Running` nothing changes (R80); with no slot left the run completes (R74). -/
def step (s : State) : Host.Outcome State Fault Refusal :=
  match fetch s with
  | .notRunning => .next s
  | .endOfProgram t => .next t.markCompleted
  | .illFormed line why => .fault (.illFormedSlot line why)
  | .instruction i t => exec i t

/-- The state with one table row's bits in the slot at `pc` of a running engine (log 3). -/
def State.withFetchWord (s : State) (nbits w : Nat) : State :=
  s.placeWord (BitVec.ofNat 128 (w % 2 ^ nbits))

end Sys2Proof.Machine
end

