-- ==== Sys2Proof/Machine/Assembler.lean ====
section
/-! DEFINITION. The assembler (30_encoding.md R59 to R62): what a program text means. It is the spec's front end and
stands outside the engine (00_scope.md R3); a text is a list of characters. -/

namespace Sys2Proof.Machine

/-- The lines of a text: a final newline adds no line, and the empty text has none (R59; log 13). -/
def splitLines : List Char → List (List Char)
  | [] => []
  | c :: rest =>
    if c = '\n' then [] :: splitLines rest
    else
      match splitLines rest with
      | [] => [[c]]
      | line :: lines => (c :: line) :: lines

/-- White space at both ends dropped (R59; log 12). -/
def trimLine (line : List Char) : List Char :=
  ((line.dropWhile Char.isWhitespace).reverse.dropWhile Char.isWhitespace).reverse

/-- A character at which tokens are cut (R60; log 12). -/
def isSeparator (c : Char) : Bool := c.isWhitespace || c == ','

/-- The tokens of a line, of which `cur` is the one being read, last character first (R60). -/
def tokensFrom (cur : List Char) : List Char → List (List Char)
  | [] => if cur = [] then [] else [cur.reverse]
  | c :: rest =>
    if isSeparator c then
      if cur = [] then tokensFrom [] rest else cur.reverse :: tokensFrom [] rest
    else tokensFrom (c :: cur) rest

/-- The number of one or more decimal digits (R60). -/
def decimal (ds : List Char) : Option Nat :=
  if ds = [] ∨ ds.all Char.isDigit = false then none
  else some (ds.foldl (fun n c => 10 * n + (c.toNat - 48)) 0)

/-- `REG`, `PIN` or `POUT` of the digits after the letters, or `BAD` (R60). -/
def numberedOperand (mk : BitVec 32 → Operand) (ds : List Char) : Operand :=
  match decimal ds with
  | some n => if n < 2 ^ 32 then mk (BitVec.ofNat 32 n) else .bad
  | none => .bad

/-- The operand a token stands for (R60). -/
def classifyToken : List Char → Operand
  | 'R' :: ds => numberedOperand .reg ds
  | 'I' :: 'N' :: ds => numberedOperand .pin ds
  | 'O' :: 'U' :: 'T' :: ds => numberedOperand .pout ds
  | '-' :: ds =>
    match decimal ds with
    | some n => if n ≤ 2 ^ 31 then .imm (wrap (-(n : Int))) else .bad
    | none => .bad
  | ds =>
    match decimal ds with
    | some n => if n < 2 ^ 31 then .imm (wrap n) else .bad
    | none => .bad

/-- The operands of an argument list; the fourth and later arguments leave only `xa` (R50, R60). -/
def argsOfTokens : List (List Char) → Args
  | [] => ⟨.absent, .absent, .absent, false⟩
  | [a] => ⟨classifyToken a, .absent, .absent, false⟩
  | [a, b] => ⟨classifyToken a, classifyToken b, .absent, false⟩
  | [a, b, c] => ⟨classifyToken a, classifyToken b, classifyToken c, false⟩
  | a :: b :: c :: _ :: _ => ⟨classifyToken a, classifyToken b, classifyToken c, true⟩

/-- The 20 mnemonics of R54. -/
def mnemonicTable : List (List Char × (Args → Instr)) :=
  [(['M', 'O', 'V'], .mov), (['A', 'D', 'D'], .add), (['S', 'U', 'B'], .sub), (['M', 'U', 'L'], .mul),
   (['D', 'I', 'V'], .div), (['M', 'O', 'D'], .mod), (['C', 'M', 'P'], .cmp), (['J', 'M', 'P'], .jmp),
   (['J', 'E'], .je), (['J', 'N', 'E'], .jne), (['L', 'O', 'A', 'D'], .load),
   (['S', 'T', 'O', 'R', 'E'], .store), (['C', 'A', 'C', 'H', 'E'], .cache)]
  ++ [(['D', 'I', 'S', 'K', '_', 'R', 'E', 'A', 'D'], .diskRead),
   (['D', 'I', 'S', 'K', '_', 'W', 'R', 'I', 'T', 'E'], .diskWrite),
   (['D', 'I', 'S', 'K', '_', 'S', 'E', 'E', 'K'], .diskSeek),
   (['I', 'N'], .inp), (['O', 'U', 'T'], .out),
   (['C', 'A', 'C', 'H', 'E', '_', 'F', 'L', 'U', 'S', 'H'], .cacheFlush),
   (['C', 'A', 'C', 'H', 'E', '_', 'I', 'N', 'V', 'A', 'L', 'I', 'D', 'A', 'T', 'E'], .cacheInvalidate)]

/-- The record of a line, or `none` for a line whose first token is no mnemonic (R59, R60). -/
def assembleLine (line : List Char) : Option Instr :=
  match trimLine line with
  | [] => some .empty
  | ';' :: _ => some .empty
  | text =>
    match tokensFrom [] text with
    | [] => none
    | m :: args =>
      match mnemonicTable.find? (fun e => e.1 == m.map Char.toUpper) with
      | some e => some (e.2 (argsOfTokens args))
      | none => none

/-- The words of the lines from line number `n` on, or the first line that is refused (R60, R61). -/
def assembleFrom (n : Nat) : List (List Char) → Except Nat (List IWord)
  | [] => .ok []
  | line :: lines =>
    match assembleLine line with
    | none => .error n
    | some i =>
      match assembleFrom (n + 1) lines with
      | .ok ws => .ok (encode i :: ws)
      | .error k => .error k

/-- The image of a text, or the line of its `ParseError` (R59 to R61; log 13). -/
def assemble (c : Config) (text : List Char) : Except Nat (List IWord) :=
  if c.progMax < (splitLines text).length then .error (c.progMax + 1)
  else assembleFrom 1 (splitLines text)

end Sys2Proof.Machine
end

