-- ==== Sys2Proof/Machine/HostOps.lean ====
section
/-! DEFINITION. The host operations beside STEP (40_engine_cycle.md R70, R71; 45_io.md R132), what each operation
returns, and the notifications of a tick (R79). -/

namespace Sys2Proof.Machine

/-- What START returns (R70, R71). -/
inductive StartResult where
  | ok
  | parseError (line : Nat)
  deriving DecidableEq, Repr

/-- What INJECT returns (R70, R132). -/
inductive InjectResult where
  | ok
  | noSuchPort
  deriving DecidableEq, Repr

/-- What STEP returns (R70, R72). -/
inductive StepResult where
  | executed (line : BitVec 32)
  | completed
  | faulted (kind : FaultKind) (line : BitVec 32)
  | notRunning
  deriving DecidableEq, Repr

/-- The event of a tick (R79): an instruction that completed, with the states around the tick, or a fault report. -/
inductive Notification where
  | event (line : BitVec 32) (record : Instr) (before after : State)
  | faultReport (kind : FaultKind) (line : BitVec 32)
  deriving DecidableEq, Repr

/-- The index of the first ill-formed word of an image, if it has one (R71). -/
def firstIllFormed : List IWord → Option Nat
  | [] => none
  | iw :: rest =>
    if wordWellFormed iw then
      match firstIllFormed rest with
      | some i => some (i + 1)
      | none => none
    else some 0

/-- The validation phase of START (R71, R141). -/
def validateImage (s : State) (image : List IWord) : StartResult :=
  if s.cfg.progMax < image.length then .parseError (s.cfg.progMax + 1)
  else
    match firstIllFormed image with
    | some i => .parseError (i + 1)
    | none => .ok

/-- START (R71): legal in every run state; on `ParseError` nothing at all changes. -/
def hostStart (image : List IWord) (s : State) : State × StartResult :=
  match validateImage s image with
  | .ok => (s.install image, .ok)
  | .parseError line => (s, .parseError line)

/-- INJECT (R132): legal in every run state. -/
def hostInject (p : Nat) (v : Word) (s : State) : State × InjectResult :=
  if p < s.cfg.nin then (s.injectWord p v, .ok) else (s, .noSuchPort)

/-- OBSERVE (R70): the whole state, unchanged. -/
def hostObserve (s : State) : State := s

/-- What STEP returns to the host (R72); `none` where the model stops. -/
def stepResult (s : State) : Option StepResult :=
  match fetch s with
  | .notRunning => some .notRunning
  | .endOfProgram _ => some .completed
  | .illFormed _ _ => none
  | .instruction i t =>
    match exec i t with
    | .next u => if u.run = .faulted then some (.faulted u.fault.kind u.fault.line) else some (.executed (t.pc + 1))
    | .fault _ => none
    | .refused _ => none

/-- The notification a tick emits, if any (R79): none for a completing tick and outside `Running`. -/
def notification (s : State) : Option Notification :=
  match fetch s with
  | .instruction i t =>
    match exec i t with
    | .next u =>
      if u.run = .faulted then some (.faultReport u.fault.kind u.fault.line) else some (.event (t.pc + 1) i s u)
    | .fault _ => none
    | .refused _ => none
  | _ => none

/-- The operations by which the host changes state (R70). -/
inductive HostOp where
  | reset
  | start (image : List IWord)
  | step
  | inject (p : Nat) (v : Word)
  deriving DecidableEq, Repr

/-- The effect of one host operation (R70). -/
def applyOp (op : HostOp) (s : State) : Host.Outcome State Fault Refusal :=
  match op with
  | .reset => .next s.hostReset
  | .start image => .next (hostStart image s).1
  | .step => Sys2Proof.Machine.step s
  | .inject p v => .next (hostInject p v s).1

/-- The effect of a sequence of host operations, each complete before the next (R70). -/
def applyOps : List HostOp → State → Host.Outcome State Fault Refusal
  | [], s => .next s
  | op :: rest, s =>
    match applyOp op s with
    | .next t => applyOps rest t
    | .fault f => .fault f
    | .refused r => .refused r

end Sys2Proof.Machine
end

