-- ==== Sys2Proof/Safety.lean ====
section
/-! DEFINITION. What counts as a consistent engine, in the terms the statements use: the invariants that 10_state.md
gives each item of state, and what an operand denotes by the words of 30_encoding.md R55 and R56. -/

namespace Sys2Proof.Machine

/-- The flags are undefined with all four results 0, or exactly one of `FE`, `FG`, `FL` is 1 and `FZ` = `FE`
(R12, R100). -/
def Flags.legal (f : Flags) : Bool :=
  f == ⟨false, false, false, false, false⟩ || f == ⟨true, true, false, false, true⟩
    || f == ⟨true, false, true, false, false⟩ || f == ⟨true, false, false, true, false⟩

/-- A consistent state: the parameters are in their legal range (R4), every store is in canonical form and in its
address range (R10, R16 to R20), the program is one START admits (R15, R53), and the relations of R11 to R14 and R22
between `pc`, `RUN`, `FAULT`, the flags and `EXECUTED` hold. -/
structure State.Valid (s : State) : Prop where
  cfgLegal : s.cfg.legal = true
  regsWf : RegFile.wf s.cfg.nreg s.regs = true
  memWf : Memory.wf s.cfg.memSize s.mem = true
  cacheWf : CacheMap.wf s.cache = true
  diskWf : Disk.wf s.cfg.nsect s.disk = true
  diskAlloc : ∀ n, (s.sector n).alloc = false → (s.sector n).val = 0
  headInRange : s.head < s.cfg.nsect
  inqWf : Ports.wf s.cfg.nin s.inq = true
  outqWf : Ports.wf s.cfg.nout s.outq = true
  progFits : s.prog.length ≤ s.cfg.progMax
  progWords : ∀ iw ∈ s.prog, wordWellFormed iw = true
  pcInRange : s.pc.toNat ≤ s.prog.length
  idleEmpty : s.run = .idle → s.prog = []
  completedAtEnd : s.run = .completed → s.pc.toNat = s.prog.length
  faultedHere : s.run = .faulted → s.fault.kind ≠ .none ∧ s.fault.line = s.pc + 1 ∧ s.pc.toNat < s.prog.length
  unfaulted : s.run ≠ .faulted → s.fault = ⟨.none, 0⟩
  flagsLegal : s.flags.legal = true
  executedBits : s.executed &&& 0xFFE00001#32 = 0

/-- Register `n` exists (R10). -/
def State.HasReg (s : State) (n : BitVec 32) : Prop := 1 ≤ n.toNat ∧ n.toNat ≤ s.cfg.nreg

/-- A `val` operand denotes a value: the content of a register that exists, or an immediate (R55). -/
inductive State.Denotes (s : State) : Operand → Word → Prop where
  | reg (n : BitVec 32) (h : s.HasReg n) : State.Denotes s (.reg n) (s.readReg n.toNat)
  | imm (v : Word) : State.Denotes s (.imm v) v

/-- An operand that no `val` position accepts (R55): a register that does not exist, a port, a bad token, nothing. -/
def State.NotValue (s : State) (a : Operand) : Prop := ∀ v, ¬ s.Denotes a v

/-- The operands `d`, `a`, `b` of an arithmetic instruction in either of its forms (R91): three arguments, or two, of
which the destination is also the left source. -/
inductive State.ArithForm (s : State) (n : BitVec 32) : Args → Word → Word → Prop where
  | three (h : s.HasReg n) (a1 a2 : Operand) (a b : Word) (ha : s.Denotes a1 a) (hb : s.Denotes a2 b) :
      State.ArithForm s n ⟨.reg n, a1, a2, false⟩ a b
  | two (h : s.HasReg n) (a1 : Operand) (b : Word) (hb : s.Denotes a1 b) :
      State.ArithForm s n ⟨.reg n, a1, .absent, false⟩ (s.readReg n.toNat) b

/-- `s` after an instruction of opcode number `opc` whose only effect is to go on to the next slot: `pc`, `CYCLES` and
the opcode's bit of `EXECUTED` (R77, R78). -/
def State.booked (s : State) (opc : Nat) : State :=
  { s with pc := s.pc + 1, cycles := s.cycles + 1, executed := s.executed ||| 1#32 <<< opc }

/-- In `t` register `n` holds `v`, and every other register holds what it holds in `s` (R10). -/
def State.SetsReg (s t : State) (n : BitVec 32) (v : Word) : Prop :=
  t.readReg n.toNat = v ∧ ∀ m, m ≠ n.toNat → t.readReg m = s.readReg m

/-- The exact quotient of DIV by the spec's words: the greatest integer not above `a / b` (R6, R95), or `a / b` rounded
toward zero (93_implementation_defined.md U3). -/
def roundedQuotient (m : DivMod) (a b : Int) : Int :=
  match m with
  | .floor => ⌊(a : ℚ) / (b : ℚ)⌋
  | .trunc => if 0 ≤ (a : ℚ) / (b : ℚ) then ⌊(a : ℚ) / (b : ℚ)⌋ else ⌈(a : ℚ) / (b : ℚ)⌉

/-- The instruction of this record, executed in `s`, raises the fault `k`: `RUN` and `FAULT` are written as R147 says
and nothing else changes. -/
def Faults (i : Instr) (s : State) (k : FaultKind) : Prop :=
  exec i s = .next { s with run := .faulted, fault := ⟨k, s.pc + 1⟩ }

/-- What ADD, SUB and MUL do (R91 to R94, R97 (b)): in either form, the destination gets `wrap` of the exact result
`f a b`, unless it fits no word and the parameter `Overflow` is `refuse`, in which case there is no step (R4); every
other operand list raises `InvalidOperand`. -/
def WrappingRule (mk : Args → Instr) (opc : Nat) (f : Int → Int → Int) : Prop :=
  ∀ (s : State) (r : Args),
    (∀ n a b, s.ArithForm n r a b →
      if s.cfg.overflow = .wrap ∨ fitsWord (f a.toInt b.toInt) = true then
        ∃ t, exec (mk r) s = .next t ∧ s.SetsReg t n (wrap (f a.toInt b.toInt))
          ∧ t = { s.booked opc with regs := t.regs }
      else exec (mk r) s = .refused (.overflowNotAdmitted (f a.toInt b.toInt)))
    ∧ (r.wellFormed = true → (∀ n a b, ¬ s.ArithForm n r a b) → Faults (mk r) s .invalidOperand)

/-- What JMP, JE and JNE do (R101 to R104): a literal line in `[1, PROG_LEN]` is jumped to when `taken` holds of the
flags, else `pc` goes on by 1; a literal line out of range raises `OutOfRange`, taken or not; every other operand list
raises `InvalidOperand`. -/
def JumpRule (mk : Args → Instr) (opc : Nat) (taken : Flags → Bool) : Prop :=
  ∀ (s : State),
    (∀ line : Word,
      if 1 ≤ line.toInt ∧ line.toInt ≤ s.progLen then
        exec (mk ⟨.imm line, .absent, .absent, false⟩) s = .next { s.booked opc with
          pc := if taken s.flags then BitVec.ofInt 32 (line.toInt - 1) else s.pc + 1 }
      else Faults (mk ⟨.imm line, .absent, .absent, false⟩) s .outOfRange)
    ∧ ∀ r : Args, r.wellFormed = true → (∀ line, r ≠ ⟨.imm line, .absent, .absent, false⟩) →
        Faults (mk r) s .invalidOperand

end Sys2Proof.Machine
end

