-- ==== Sys2Proof/Certificates/Slice0/Obligations.lean ====
section
/-! DEFINITION. The statements for the provers, from the numbered rules of spec/. -/

open Sys2Proof Sys2Proof.Machine

/-! ### Encoding (30_encoding.md) -/

/-- R53: decoding the word of any record a word can hold gives the record back. Rests on the spec's own decision D10.
-/
def Obligations.EncodeThenDecode : Prop :=
  ∀ i : Instr, i.wellFormed = true → decode (encode i) = .ok i

/-- R53: a word that decodes is the word of the record it decodes to, and that record is well-formed. Rests on the
spec's own decision D10. -/
def Obligations.DecodeThenEncode : Prop :=
  ∀ (iw : IWord) (i : Instr), decode iw = .ok i → encode i = iw ∧ i.wellFormed = true

/-- R53, R57: the decoder accepts exactly the words that meet the seven conditions. Rests on the spec's own decisions
D10, D34. -/
def Obligations.DecodeAcceptsWellFormedWords : Prop :=
  ∀ iw : IWord, (∃ i, decode iw = .ok i) ↔ wordWellFormed iw = true

/-- R63: sample words decode to the records of that table. Rests on the spec's own decision D10. -/
def Obligations.SampleWordsDecode : Prop :=
  decode 0x01120000000000010000000A00000000#128 = .ok (.mov ⟨.reg 1, .imm 10, .absent, false⟩)
    ∧ decode 0x05111000000000010000000200000003#128 = .ok (.div ⟨.reg 1, .reg 2, .reg 3, false⟩)
    ∧ decode 0x09200000000000050000000000000000#128 = .ok (.je ⟨.imm 5, .absent, .absent, false⟩)
    ∧ decode 0x12140000000000010000000000000000#128 = .ok (.out ⟨.reg 1, .pout 0, .absent, false⟩)
    ∧ decode 0x02111800000000010000000200000003#128 = .ok (.add ⟨.reg 1, .reg 2, .reg 3, true⟩)
    ∧ decode 0 = .ok .empty

/-- R31: byte j of a word is its bits 127 - 8j down to 120 - 8j, most significant byte first, and the 16 bytes give
the word back; the byte form of an image is the bytes of its words in order, and decoding it reads one word after
another. Rests on the spec's own decision D39. -/
def Obligations.ImageBytesRoundTrip : Prop :=
  (∀ iw : IWord, (wordToBytes iw).length = 16 ∧ bytesToWord (wordToBytes iw) = iw
      ∧ ∀ j, j < 16 → (wordToBytes iw)[j]? = some (iw.extractLsb' (120 - 8 * j) 8))
    ∧ (∀ (iw : IWord) (rest : List (BitVec 8)), decodeBytes (wordToBytes iw ++ rest) = some (decode iw, rest))
    ∧ ∀ image : List IWord, (imageToBytes image).length = 16 * image.length
      ∧ (∀ k j, k < image.length → j < 16 →
          (imageToBytes image)[16 * k + j]? = some ((image.getD k 0).extractLsb' (120 - 8 * j) 8))
      ∧ ∀ k, k < image.length →
          decodeBytes ((imageToBytes image).drop (16 * k))
            = some (decode (image.getD k 0), (imageToBytes image).drop (16 * (k + 1)))

/-! ### The tick (40_engine_cycle.md) -/

/-- R72, R75: when the slot at `pc` of a running engine decodes to an instruction, STEP is that instruction's meaning
in the very same state. -/
def Obligations.StepRunsDecodedInstruction : Prop :=
  ∀ (s : State) (i : Instr), s.run = .running → s.pc.toNat < s.progLen → s.slot s.pc.toNat ≠ 0 →
    decode (s.slot s.pc.toNat) = .ok i → step s = exec i s

/-- The first clause is the model's own choice (log 14, DEDUCED): R81 says that EMPTY is no instruction and is never
executed, and the arm of `exec` for it, which STEP never reaches, moves `pc` on by 1 and does nothing else. The second
clause is R73 and R81: an EMPTY slot at `pc` is passed over inside the tick, and STEP goes on from the next slot.
Rests on the spec's own decisions D11, D12. -/
def Obligations.EmptySlotIsPassedOver : Prop :=
  ∀ s : State, exec .empty s = .next { s with pc := s.pc + 1 }
    ∧ (s.run = .running → s.pc.toNat < s.progLen → s.progLen < 2 ^ 32 → s.slot s.pc.toNat = 0 →
        step s = step { s with pc := s.pc + 1 })

/-- R74: when no slot from `pc` on holds an instruction, the tick completes the run at `PROG_LEN` and changes nothing
else. Rests on the spec's own decisions D13, D45. -/
def Obligations.StepCompletesAtEnd : Prop :=
  ∀ s : State, s.run = .running → s.pc.toNat ≤ s.progLen → s.progLen < 2 ^ 32 →
    (∀ k, s.pc.toNat ≤ k → s.slot k = 0) →
    step s = .next { s with pc := BitVec.ofNat 32 s.progLen, run := .completed } ∧ stepResult s = some .completed

/-- R80: outside `Running` a STEP changes nothing and says so, and INJECT does not change the run state; RESET leads
to `Idle` and a START that passes validation to `Running`. Rests on the spec's own decision D35. -/
def Obligations.StepOutsideRunning : Prop :=
  ∀ s : State,
    (s.run ≠ .running → step s = .next s ∧ stepResult s = some .notRunning)
      ∧ (∀ p v, (hostInject p v s).1.run = s.run)
      ∧ s.hostReset.run = .idle
      ∧ ∀ image, (hostStart image s).2 = .ok → (hostStart image s).1.run = .running

/-- R72, R78, R147: what STEP returns tells what it did (a program of 2^32 slots or more, which no START admits, is
left out: `pc` has 32 bits). Rests on the spec's own decisions D12, D26. -/
def Obligations.StepResultIsTruthful : Prop :=
  ∀ s t : State, s.progLen < 2 ^ 32 → step s = .next t →
    ∃ res, stepResult s = some res ∧
      match res with
      | .executed line => s.run = .running ∧ t.run = .running ∧ line = s.skipEmpties.pc + 1
          ∧ t.cycles = s.cycles + 1
      | .completed => s.run = .running ∧ t.run = .completed ∧ t.cycles = s.cycles
      | .faulted k line => s.run = .running ∧ t.run = .faulted ∧ t.fault = ⟨k, line⟩
          ∧ line = s.skipEmpties.pc + 1 ∧ t.cycles = s.cycles
      | .notRunning => s.run ≠ .running ∧ t = s

/-- R4, R72, R75: with the default overflow rule, a consistent engine always has a next state. Rests on the spec's own
decisions D2, D34. -/
def Obligations.ValidStepHasNext : Prop :=
  ∀ s : State, s.Valid → s.cfg.overflow = .wrap → ∃ t, step s = .next t

/-- R77: an instruction that completes ends at the next slot, unless it is a taken jump, which ends at the slot of its
line. (EMPTY is no instruction, R81; EmptySlotIsPassedOver speaks of it.) -/
def Obligations.NextSlotOrJumpTarget : Prop :=
  ∀ (i : Instr) (s t : State), s.run = .running → i ≠ .empty → exec i s = .next t → t.run = .running →
    (∀ line : Word,
      (i = .jmp ⟨.imm line, .absent, .absent, false⟩
        ∨ (i = .je ⟨.imm line, .absent, .absent, false⟩ ∧ s.flags.fe = true)
        ∨ (i = .jne ⟨.imm line, .absent, .absent, false⟩ ∧ s.flags.fv = true ∧ s.flags.fe = false)) →
      t.pc = BitVec.ofInt 32 (line.toInt - 1))
    ∧ ((∀ line : Word,
        i ≠ .jmp ⟨.imm line, .absent, .absent, false⟩
        ∧ (i = .je ⟨.imm line, .absent, .absent, false⟩ → s.flags.fe = false)
        ∧ (i = .jne ⟨.imm line, .absent, .absent, false⟩ → s.flags.fv = false ∨ s.flags.fe = true)) →
      t.pc = s.pc + 1)

/-- R79: a tick that completes an instruction emits the event of that instruction, with the states around the tick; a
faulting tick emits the fault report; any other tick emits nothing. The tuple is the spec's own choice, D42. That its
state before the tick is `s` itself, with `pc` not yet moved over EMPTY slots, is the model's reading of "state before
the tick" (log 16, DEDUCED). Rests on the spec's own decision D42. -/
def Obligations.NotificationOfTick : Prop :=
  ∀ s : State,
    match stepResult s with
    | some (.executed line) =>
      ∃ i t, step s = .next t ∧ notification s = some (.event line i s t)
        ∧ decode (s.slot s.skipEmpties.pc.toNat) = .ok i ∧ line = s.skipEmpties.pc + 1
    | some (.faulted k line) => notification s = some (.faultReport k line)
    | _ => notification s = none

/-! ### Invariants (10_state.md) -/

/-- R24: the state after RESET is consistent, for every legal choice of the parameters; `State.reset` is the one of
the defaults. Rests on the spec's own decision D31. -/
def Obligations.ResetIsValid : Prop :=
  (∀ c : Config, c.legal = true → (State.resetWith c).Valid) ∧ State.reset = State.resetWith Config.default
    ∧ Config.default.legal = true

/-- R10 to R22: every STEP of a consistent engine leaves it consistent: memory and every other store in canonical form
and in range, `pc` in the program, the flags a legal combination, `FAULT` set iff `Faulted`, and the rest. Rests on
the spec's own decisions D1, D8, D27, D36. -/
def Obligations.StepKeepsValid : Prop :=
  ∀ s t : State, s.Valid → step s = .next t → t.Valid

/-- R70: every sequence of host operations leaves a consistent engine consistent, and keeps its parameters. Rests on
the spec's own decision D37. -/
def Obligations.HostOperationsKeepValid : Prop :=
  ∀ (ops : List HostOp) (s t : State), s.Valid → applyOps ops s = .next t → t.Valid ∧ t.cfg = s.cfg

/-! ### Data movement and arithmetic (41_move_arith.md) -/

/-- R90: MOV. -/
def Obligations.MovRule : Prop :=
  ∀ s : State,
    (∀ r, fieldOpc (encode (.mov r)) = 0x01#8)
    ∧ (∀ n a1 v, s.HasReg n → s.Denotes a1 v →
      ∃ t, exec (.mov ⟨.reg n, a1, .absent, false⟩) s = .next t ∧ s.SetsReg t n v
        ∧ t = { s.booked 1 with regs := t.regs })
    ∧ ∀ r : Args, r.wellFormed = true →
        (∀ n a1 v, s.HasReg n → s.Denotes a1 v → r ≠ ⟨.reg n, a1, .absent, false⟩) →
        Faults (.mov r) s .invalidOperand

/-- R91 to R94: ADD, SUB and MUL, in both forms. The refusal is the model's form of "no step" (log 6). Rests on the
spec's own decisions D2, D14. -/
def Obligations.AddSubMulRule : Prop :=
  WrappingRule .add 2 (fun a b => a + b) ∧ WrappingRule .sub 3 (fun a b => a - b)
    ∧ WrappingRule .mul 4 (fun a b => a * b)

/-- R95: DIV, in both forms; the divisor is looked at only after every operand has resolved. The refusal is the
model's form of "no step" (log 6), the truncated quotient its reading of `DivMod` (log 7). Rests on the spec's own
decisions D2, D14, D24. -/
def Obligations.DivRule : Prop :=
  ∀ (s : State) (r : Args),
    (∀ n a b, s.ArithForm n r a b →
      if b = 0 then Faults (.div r) s .arithmeticError
      else if s.cfg.overflow = .wrap ∨ fitsWord (roundedQuotient s.cfg.divMod a.toInt b.toInt) = true then
        ∃ t, exec (.div r) s = .next t
          ∧ s.SetsReg t n (wrap (roundedQuotient s.cfg.divMod a.toInt b.toInt))
          ∧ t = { s.booked 5 with regs := t.regs }
      else exec (.div r) s = .refused (.overflowNotAdmitted (roundedQuotient s.cfg.divMod a.toInt b.toInt)))
    ∧ (r.wellFormed = true → (∀ n a b, ¬ s.ArithForm n r a b) → Faults (.div r) s .invalidOperand)

/-- R96: MOD, in both forms: the remainder that goes with the quotient of DIV, which always fits a word; with `DivMod`
= `trunc` it goes with the truncated quotient (log 7). Rests on the spec's own decisions D14, D24. -/
def Obligations.ModRule : Prop :=
  ∀ (s : State) (r : Args),
    (∀ n a b, s.ArithForm n r a b →
      if b = 0 then Faults (.mod r) s .arithmeticError
      else
        ∃ t v, exec (.mod r) s = .next t ∧ s.SetsReg t n v ∧ t = { s.booked 6 with regs := t.regs }
          ∧ v.toInt = a.toInt - b.toInt * roundedQuotient s.cfg.divMod a.toInt b.toInt
          ∧ |v.toInt| < |b.toInt|
          ∧ (s.cfg.divMod = .floor → v.toInt = 0 ∨ v.toInt.sign = b.toInt.sign))
    ∧ (r.wellFormed = true → (∀ n a b, ¬ s.ArithForm n r a b) → Faults (.mod r) s .invalidOperand)

/-- R97 (c): of all quotients of two words only -2147483648 / -1 fits no word, under both rounding rules (log 7); so
with `Overflow` = `refuse` (no step in the spec; the model's form of it is a refusal, log 6) a DIV with resolved
operands and a divisor other than 0 is refused if and only if it is that one, and with `Overflow` = `wrap` that one
stores -2147483648. Rests on the spec's own decisions D2, D14, D24. -/
def Obligations.OnlyOneQuotientOverflows : Prop :=
  (∀ (m : DivMod) (a b : Word), b ≠ 0 →
      (fitsWord (quotient m a.toInt b.toInt) = false ↔ a.toInt = -2147483648 ∧ b.toInt = -1))
    ∧ ∀ (s : State) (r : Args) (n : BitVec 32) (a b : Word), s.ArithForm n r a b → b ≠ 0 →
      (s.cfg.overflow = .refuse →
        ((∃ why, exec (.div r) s = .refused why) ↔ a.toInt = -2147483648 ∧ b.toInt = -1))
      ∧ (s.cfg.overflow = .wrap → a.toInt = -2147483648 → b.toInt = -1 →
        ∃ t, exec (.div r) s = .next t ∧ (t.readReg n.toNat).toInt = -2147483648)

/-! ### Comparison and control transfer (42_compare_jump.md) -/

/-- R100: CMP. Rests on the spec's own decisions D14, D21, D40. -/
def Obligations.CmpRule : Prop :=
  ∀ s : State,
    (∀ a0 a1 a b, s.Denotes a0 a → s.Denotes a1 b →
      exec (.cmp ⟨a0, a1, .absent, false⟩) s = .next { s.booked 7 with
        flags := ⟨true, decide (a = b), decide (b.toInt < a.toInt), decide (a.toInt < b.toInt), decide (a = b)⟩ })
    ∧ ∀ r : Args, r.wellFormed = true →
        (∀ a0 a1 a b, s.Denotes a0 a → s.Denotes a1 b → r ≠ ⟨a0, a1, .absent, false⟩) →
        Faults (.cmp r) s .invalidOperand

/-- R101 to R104: JMP, JE and JNE. Rests on the spec's own decisions D15, D22, D23. -/
def Obligations.JumpsRule : Prop :=
  JumpRule .jmp 8 (fun _ => true) ∧ JumpRule .je 9 (fun f => f.fe) ∧ JumpRule .jne 10 (fun f => f.fv && !f.fe)

/-- R103, R104: with the flags undefined neither conditional jump is taken; after a CMP exactly one of them is. Rests
on the spec's own decision D22. -/
def Obligations.ConditionalJumpsAfterCmp : Prop :=
  ∀ (s t : State) (r : Args), s.Valid →
    (s.flags.fv = false → s.flags.jeTaken = false ∧ s.flags.jneTaken = false)
    ∧ (s.run = .running → exec (.cmp r) s = .next t → t.run = .running → t.flags.jeTaken = !t.flags.jneTaken)

/-! ### RAM and cache (20_memory.md, 43_memory_cache.md) -/

/-- R35, R36: the address validator and the two RAM primitives. A refused access has no effect at all; neither
primitive changes the cache, nor anything but what is named; a read after a write yields the written word. -/
def Obligations.RamSequencerRule : Prop :=
  ∀ (s : State) (a v : Word),
    if 0 ≤ a.toInt ∧ a.toInt < s.cfg.memSize then
      memRead s a = .ok (s.readMem a.toInt.toNat, { s with time2 := s.time2 + 200, readOps := s.readOps + 1 })
        ∧ (∀ c, (memRead { s with cache := c } a).map Prod.fst = (memRead s a).map Prod.fst)
        ∧ ∃ t, memWrite s a v = .ok t
          ∧ t = { s with mem := t.mem, time2 := s.time2 + 200, writeOps := s.writeOps + 1 }
          ∧ (∀ b, b ≠ a.toInt.toNat → t.readMem b = s.readMem b)
          ∧ ∃ u, memRead t a = .ok (v, u)
    else memRead s a = .error (.raise .outOfRange) ∧ memWrite s a v = .error (.raise .outOfRange)

/-- R110: LOAD. That an address which the list of RAM words does not hold reads as 0 is the form in which the model
keeps a word that nothing has written (log 8, DEDUCED). Rests on the spec's own decisions D10, D31. -/
def Obligations.LoadRule : Prop :=
  ∀ s : State,
    (∀ r, fieldOpc (encode (.load r)) = 0x0B#8)
    ∧ (∀ a, Cells.lookup s.mem a = none → s.readMem a = 0)
    ∧ (∀ n (a : Word), s.HasReg n →
      if 0 ≤ a.toInt ∧ a.toInt < s.cfg.memSize then
        ∃ t, exec (.load ⟨.reg n, .imm a, .absent, false⟩) s = .next t
          ∧ s.SetsReg t n (s.readMem a.toInt.toNat)
          ∧ t = { s.booked 11 with regs := t.regs, time2 := s.time2 + 200, readOps := s.readOps + 1 }
      else Faults (.load ⟨.reg n, .imm a, .absent, false⟩) s .outOfRange)
    ∧ ∀ r : Args, r.wellFormed = true →
        (∀ n a, s.HasReg n → r ≠ ⟨.reg n, .imm a, .absent, false⟩) → Faults (.load r) s .invalidOperand

/-- R111: STORE. The one word stored to is the literal address; every other address reads as before. Rests on the
spec's own decision D14. -/
def Obligations.StoreRule : Prop :=
  ∀ s : State,
    (∀ a0 v (a : Word), s.Denotes a0 v →
      if 0 ≤ a.toInt ∧ a.toInt < s.cfg.memSize then
        ∃ t, exec (.store ⟨a0, .imm a, .absent, false⟩) s = .next t
          ∧ t.readMem a.toInt.toNat = v ∧ (∀ b, b ≠ a.toInt.toNat → t.readMem b = s.readMem b)
          ∧ t = { s.booked 12 with mem := t.mem, time2 := s.time2 + 200, writeOps := s.writeOps + 1 }
      else Faults (.store ⟨a0, .imm a, .absent, false⟩) s .outOfRange)
    ∧ ∀ r : Args, r.wellFormed = true →
        (∀ a0 v a, s.Denotes a0 v → r ≠ ⟨a0, .imm a, .absent, false⟩) → Faults (.store r) s .invalidOperand

/-- R36: a load of the address just stored to yields the stored value, whatever register it goes to. -/
def Obligations.StoreThenLoad : Prop :=
  ∀ (s t : State) (a0 : Operand) (v a : Word) (n : BitVec 32), s.run = .running → s.Denotes a0 v → s.HasReg n →
    exec (.store ⟨a0, .imm a, .absent, false⟩) s = .next t → t.run = .running →
    ∃ u, exec (.load ⟨.reg n, .imm a, .absent, false⟩) t = .next u ∧ u.run = .running ∧ u.readReg n.toNat = v

/-- R37, R112: CACHE. A hit gives the entry; a miss gives a drawn word, about which nothing is said, and makes it the
entry; the count of draws is the model's own (log 2). The key is not range-checked. Rests on the spec's own decisions
D8, D9. -/
def Obligations.CacheRule : Prop :=
  ∀ s : State,
    (∀ n k, s.HasReg n →
      (∀ v, s.cached k = some v →
        ∃ t, exec (.cache ⟨.reg n, .imm k, .absent, false⟩) s = .next t ∧ s.SetsReg t n v
          ∧ t = { s.booked 13 with regs := t.regs, cacheHits := s.cacheHits + 1, time2 := s.time2 + 2 })
      ∧ (s.cached k = none →
        ∃ t v, exec (.cache ⟨.reg n, .imm k, .absent, false⟩) s = .next t ∧ s.SetsReg t n v
          ∧ t.cached k = some v ∧ (∀ j, j ≠ k → t.cached j = s.cached j)
          ∧ t = { s.booked 13 with
              regs := t.regs
              cache := t.cache
              cacheMisses := s.cacheMisses + 1
              readOps := s.readOps + 1
              time2 := s.time2 + 200
              cacheDraws := s.cacheDraws + 1 }))
    ∧ ∀ r : Args, r.wellFormed = true →
        (∀ n k, s.HasReg n → r ≠ ⟨.reg n, .imm k, .absent, false⟩) → Faults (.cache r) s .invalidOperand

/-- R45, R113: CACHE_FLUSH. Rests on the spec's own decision D28. -/
def Obligations.CacheFlushRule : Prop :=
  ∀ s : State,
    (∃ t, exec (.cacheFlush ⟨.absent, .absent, .absent, false⟩) s = .next t ∧ (∀ k, t.cached k = none)
      ∧ t = { s.booked 19 with cache := t.cache })
    ∧ ∀ r : Args, r.wellFormed = true → r ≠ ⟨.absent, .absent, .absent, false⟩ →
        Faults (.cacheFlush r) s .invalidOperand

/-- R45, R114: CACHE_INVALIDATE. The key is not range-checked and need not be cached. Rests on the spec's own
decisions D28, D38. -/
def Obligations.CacheInvalidateRule : Prop :=
  ∀ s : State,
    (∀ k, ∃ t, exec (.cacheInvalidate ⟨.imm k, .absent, .absent, false⟩) s = .next t
      ∧ t.cached k = none ∧ (∀ j, j ≠ k → t.cached j = s.cached j)
      ∧ t = { s.booked 20 with cache := t.cache })
    ∧ ∀ r : Args, r.wellFormed = true → (∀ k, r ≠ ⟨.imm k, .absent, .absent, false⟩) →
        Faults (.cacheInvalidate r) s .invalidOperand

/-- R112: two CACHE instructions on one key with nothing between: the second is a hit and gives the first one's value.
Rests on the spec's own decision D9. -/
def Obligations.SecondCacheAccessHits : Prop :=
  ∀ (s t : State) (k : Word) (n m : BitVec 32), s.HasReg n → s.HasReg m →
    exec (.cache ⟨.reg n, .imm k, .absent, false⟩) s = .next t →
    ∃ u, exec (.cache ⟨.reg m, .imm k, .absent, false⟩) t = .next u ∧ u.readReg m.toNat = t.readReg n.toNat
      ∧ u.cacheHits = t.cacheHits + 1 ∧ u.cacheMisses = t.cacheMisses ∧ u.cache = t.cache

/-- R45: after CACHE_FLUSH no key is cached, so the next CACHE of any key misses; after CACHE_INVALIDATE its key is
not cached, so the next CACHE of it misses, and every other key is as before. Neither writes `MEM`. -/
def Obligations.MaintenanceForcesMiss : Prop :=
  ∀ (s : State) (n : BitVec 32) (k : Word), s.HasReg n →
    (∃ t u, exec (.cacheFlush ⟨.absent, .absent, .absent, false⟩) s = .next t ∧ t.mem = s.mem
      ∧ (∀ j, t.cached j = none)
      ∧ exec (.cache ⟨.reg n, .imm k, .absent, false⟩) t = .next u ∧ u.cacheMisses = t.cacheMisses + 1
      ∧ u.cacheHits = t.cacheHits)
    ∧ ∃ t u, exec (.cacheInvalidate ⟨.imm k, .absent, .absent, false⟩) s = .next t ∧ t.mem = s.mem
      ∧ t.cached k = none ∧ (∀ j, j ≠ k → t.cached j = s.cached j)
      ∧ exec (.cache ⟨.reg n, .imm k, .absent, false⟩) t = .next u ∧ u.cacheMisses = t.cacheMisses + 1
      ∧ u.cacheHits = t.cacheHits

/-- R21, R37: a CACHE that completes adds 1 to exactly one of the two access counters; every other instruction, and
every instruction that faults, leaves both as they were. Rests on the spec's own decision D43. -/
def Obligations.HitsAndMissesCountAccesses : Prop :=
  ∀ (i : Instr) (s t : State), s.run = .running → exec i s = .next t →
    ((∃ r, i = .cache r) → t.run = .running →
      (t.cacheHits = s.cacheHits + 1 ∧ t.cacheMisses = s.cacheMisses)
        ∨ (t.cacheHits = s.cacheHits ∧ t.cacheMisses = s.cacheMisses + 1))
    ∧ ((∀ r, i ≠ .cache r) ∨ t.run ≠ .running → t.cacheHits = s.cacheHits ∧ t.cacheMisses = s.cacheMisses)

/-- R38: only STORE writes RAM, and it leaves the cache as it was; only CACHE_FLUSH, CACHE_INVALIDATE and a CACHE that
misses write the cache; the cache instructions do the same whatever RAM holds, and LOAD and STORE do the same whatever
the cache holds. That a CACHE which misses draws the same word in both of two states that differ in RAM is the model's
own choice (log 2, DESIGN CHOICE): R25 puts no law on the draws. -/
def Obligations.CacheAndRamAreIndependent : Prop :=
  (∀ (i : Instr) (s t : State), exec i s = .next t →
      (t.mem ≠ s.mem → (opcodeOf i).toNat = 12 ∧ t.cache = s.cache)
      ∧ (t.cache ≠ s.cache → (opcodeOf i).toNat ∈ [19, 20]
          ∨ ((opcodeOf i).toNat = 13 ∧ t.cacheMisses = s.cacheMisses + 1)))
    ∧ (∀ (r : Args) (s t : State) (m : Memory),
      (exec (.cache r) s = .next t → exec (.cache r) { s with mem := m } = .next { t with mem := m })
      ∧ (exec (.cacheFlush r) s = .next t → exec (.cacheFlush r) { s with mem := m } = .next { t with mem := m })
      ∧ (exec (.cacheInvalidate r) s = .next t →
          exec (.cacheInvalidate r) { s with mem := m } = .next { t with mem := m }))
    ∧ ∀ (r : Args) (s t : State) (c : Cells Word),
      (exec (.load r) s = .next t → exec (.load r) { s with cache := c } = .next { t with cache := c })
      ∧ (exec (.store r) s = .next t → exec (.store r) { s with cache := c } = .next { t with cache := c })

/-! ### Disk (44_disk.md) -/

/-- R120: DISK_READ, wherever the head is and whether or not the sector was ever written. Rests on the spec's own
decision D30. -/
def Obligations.DiskReadRule : Prop :=
  ∀ s : State,
    (∀ n (a : Word), s.HasReg n →
      if 0 ≤ a.toInt ∧ a.toInt < s.cfg.nsect then
        ∃ t, exec (.diskRead ⟨.reg n, .imm a, .absent, false⟩) s = .next t
          ∧ s.SetsReg t n (s.sector a.toInt.toNat).val
          ∧ t = { s.booked 14 with regs := t.regs, time2 := s.time2 + 20, readOps := s.readOps + 1 }
      else Faults (.diskRead ⟨.reg n, .imm a, .absent, false⟩) s .outOfRange)
    ∧ ∀ r : Args, r.wellFormed = true →
        (∀ n a, s.HasReg n → r ≠ ⟨.reg n, .imm a, .absent, false⟩) → Faults (.diskRead r) s .invalidOperand

/-- R121: DISK_WRITE. Rests on the spec's own decisions D14, D30. -/
def Obligations.DiskWriteRule : Prop :=
  ∀ s : State,
    (∀ a0 v (a : Word), s.Denotes a0 v →
      if 0 ≤ a.toInt ∧ a.toInt < s.cfg.nsect then
        ∃ t, exec (.diskWrite ⟨a0, .imm a, .absent, false⟩) s = .next t
          ∧ t.sector a.toInt.toNat = ⟨v, true⟩ ∧ (∀ b, b ≠ a.toInt.toNat → t.sector b = s.sector b)
          ∧ t = { s.booked 15 with disk := t.disk, time2 := s.time2 + 20, writeOps := s.writeOps + 1 }
      else Faults (.diskWrite ⟨a0, .imm a, .absent, false⟩) s .outOfRange)
    ∧ ∀ r : Args, r.wellFormed = true →
        (∀ a0 v a, s.Denotes a0 v → r ≠ ⟨a0, .imm a, .absent, false⟩) → Faults (.diskWrite r) s .invalidOperand

/-- R122: DISK_SEEK. -/
def Obligations.DiskSeekRule : Prop :=
  ∀ s : State,
    (∀ a : Word,
      if 0 ≤ a.toInt ∧ a.toInt < s.cfg.nsect then
        exec (.diskSeek ⟨.imm a, .absent, .absent, false⟩) s = .next { s.booked 16 with
          head := a.toInt.toNat
          time2 := s.time2 + BitVec.ofInt 64 |a.toInt - (s.head : Int)| }
      else Faults (.diskSeek ⟨.imm a, .absent, .absent, false⟩) s .outOfRange)
    ∧ ∀ r : Args, r.wellFormed = true → (∀ a, r ≠ ⟨.imm a, .absent, .absent, false⟩) →
        Faults (.diskSeek r) s .invalidOperand

/-- R122: the cost of two seeks depends on the path: the second is charged from where the first left the head. -/
def Obligations.SeekCostDependsOnPath : Prop :=
  ∀ (s t u : State) (a b : Word), s.run = .running →
    exec (.diskSeek ⟨.imm a, .absent, .absent, false⟩) s = .next t → t.run = .running →
    exec (.diskSeek ⟨.imm b, .absent, .absent, false⟩) t = .next u → u.run = .running →
    (u.head : Int) = b.toInt
      ∧ u.time2 = s.time2 + BitVec.ofInt 64 (|a.toInt - (s.head : Int)| + |b.toInt - a.toInt|)

/-! ### Ports (45_io.md) -/

/-- R130: IN. On an empty buffer it takes a drawn word, about which nothing is said, and does not wait; the count of
draws is the model's own (log 2). Rests on the spec's own decisions D16, D17. -/
def Obligations.InRule : Prop :=
  ∀ s : State,
    (∀ n (p : BitVec 32), s.HasReg n → p.toNat < s.cfg.nin →
      (∀ v rest, s.inBuffer p.toNat = v :: rest →
        ∃ t, exec (.inp ⟨.reg n, .pin p, .absent, false⟩) s = .next t ∧ s.SetsReg t n v
          ∧ t.inBuffer p.toNat = rest ∧ (∀ q, q ≠ p.toNat → t.inBuffer q = s.inBuffer q)
          ∧ t = { s.booked 17 with regs := t.regs, inq := t.inq })
      ∧ (s.inBuffer p.toNat = [] →
        ∃ t v, exec (.inp ⟨.reg n, .pin p, .absent, false⟩) s = .next t ∧ s.SetsReg t n v
          ∧ t = { s.booked 17 with regs := t.regs, inputDraws := s.inputDraws + 1 }))
    ∧ (∀ n a1, s.HasReg n → a1 ≠ .absent → (∀ p : BitVec 32, p.toNat < s.cfg.nin → a1 ≠ .pin p) →
        Faults (.inp ⟨.reg n, a1, .absent, false⟩) s .deviceError)
    ∧ ∀ r : Args, r.wellFormed = true →
        (∀ n a1, s.HasReg n → a1 ≠ .absent → r ≠ ⟨.reg n, a1, .absent, false⟩) → Faults (.inp r) s .invalidOperand

/-- R131: OUT. Rests on the spec's own decisions D14, D16. -/
def Obligations.OutRule : Prop :=
  ∀ s : State,
    (∀ a0 v (p : BitVec 32), s.Denotes a0 v → p.toNat < s.cfg.nout →
      ∃ t, exec (.out ⟨a0, .pout p, .absent, false⟩) s = .next t
        ∧ t.outRecord p.toNat = s.outRecord p.toNat ++ [v]
        ∧ (∀ q, q ≠ p.toNat → t.outRecord q = s.outRecord q)
        ∧ t = { s.booked 18 with outq := t.outq })
    ∧ (∀ a0 v a1, s.Denotes a0 v → a1 ≠ .absent → (∀ p : BitVec 32, p.toNat < s.cfg.nout → a1 ≠ .pout p) →
        Faults (.out ⟨a0, a1, .absent, false⟩) s .deviceError)
    ∧ ∀ r : Args, r.wellFormed = true →
        (∀ a0 v a1, s.Denotes a0 v → a1 ≠ .absent → r ≠ ⟨a0, a1, .absent, false⟩) →
        Faults (.out r) s .invalidOperand

/-- R132: INJECT appends to an existing input port's buffer and changes nothing else; for another port it changes
nothing. Rests on the spec's own decisions D37, D41. -/
def Obligations.InjectRule : Prop :=
  ∀ (s : State) (p : Nat) (v : Word),
    (s.cfg.nin ≤ p → hostInject p v s = (s, .noSuchPort))
    ∧ (p < s.cfg.nin →
        (hostInject p v s).2 = .ok
        ∧ (hostInject p v s).1.inBuffer p = s.inBuffer p ++ [v]
        ∧ (∀ q, q ≠ p → (hostInject p v s).1.inBuffer q = s.inBuffer q)
        ∧ (hostInject p v s).1 = { s with inq := (hostInject p v s).1.inq })

/-- R130, R132: a word injected into an empty buffer is the word the next IN of that port reads, also when a START
lies between (R162). Rests on the spec's own decisions D32, D37. -/
def Obligations.InjectedWordIsRead : Prop :=
  ∀ (s : State) (p n : BitVec 32) (v : Word) (image : List IWord), p.toNat < s.cfg.nin → s.HasReg n →
    s.inBuffer p.toNat = [] →
    ∃ t, exec (.inp ⟨.reg n, .pin p, .absent, false⟩) (hostStart image (hostInject p.toNat v s).1).1 = .next t
      ∧ t.readReg n.toNat = v ∧ t.inBuffer p.toNat = []

/-! ### Rules of the whole machine -/

/-- R76, R147: an instruction that faults changes `RUN` and `FAULT` as fault entry says, and nothing else. Rests on
the spec's own decision D26. -/
def Obligations.FaultsChangeNothingElse : Prop :=
  ∀ (i : Instr) (s t : State), s.run = .running → exec i s = .next t → t.run ≠ .running →
    ∃ k, k ≠ .none ∧ t = { s with run := .faulted, fault := ⟨k, s.pc + 1⟩ }

/-- R78: every instruction that completes adds 1 to `CYCLES` and sets its opcode's bit of `EXECUTED`; it leaves `RUN`
and `FAULT` alone. Rests on the spec's own decision D36. -/
def Obligations.CompletionIsBooked : Prop :=
  ∀ (i : Instr) (s t : State), s.run = .running → i ≠ .empty → exec i s = .next t → t.run = .running →
    t.cycles = s.cycles + 1 ∧ t.executed = s.executed ||| 1#32 <<< (opcodeOf i).toNat ∧ t.fault = s.fault

/-- R140, R143 to R145: which instructions can raise which fault. Rests on the spec's own decision D16. -/
def Obligations.FaultKindsByInstruction : Prop :=
  ∀ (i : Instr) (s t : State), s.run = .running → exec i s = .next t → t.run = .faulted →
    (t.fault.kind = .outOfRange → (opcodeOf i).toNat ∈ [8, 9, 10, 11, 12, 14, 15, 16])
    ∧ (t.fault.kind = .arithmeticError → (opcodeOf i).toNat ∈ [5, 6])
    ∧ (t.fault.kind = .deviceError → (opcodeOf i).toNat ∈ [17, 18])
    ∧ t.fault.kind ≠ .none ∧ i ≠ .empty

/-- R143, with the line check of R101 and the operand lists of R111 and R121: `OutOfRange` is raised exactly by the
RAM, disk and jump instructions, and exactly when every operand has resolved and the literal lies outside its range;
CACHE and CACHE_INVALIDATE never raise it. Rests on the spec's own decisions D14, D15, D23. -/
def Obligations.WhenOutOfRangeIsRaised : Prop :=
  ∀ (i : Instr) (s : State), s.run = .running →
    (Faults i s .outOfRange ↔
      (∃ n a, s.HasReg n
        ∧ ((i = .load ⟨.reg n, .imm a, .absent, false⟩ ∧ ¬ (0 ≤ a.toInt ∧ a.toInt < s.cfg.memSize))
          ∨ (i = .diskRead ⟨.reg n, .imm a, .absent, false⟩ ∧ ¬ (0 ≤ a.toInt ∧ a.toInt < s.cfg.nsect))))
      ∨ (∃ a0 v a, s.Denotes a0 v
        ∧ ((i = .store ⟨a0, .imm a, .absent, false⟩ ∧ ¬ (0 ≤ a.toInt ∧ a.toInt < s.cfg.memSize))
          ∨ (i = .diskWrite ⟨a0, .imm a, .absent, false⟩ ∧ ¬ (0 ≤ a.toInt ∧ a.toInt < s.cfg.nsect))))
      ∨ (∃ a : Word, i = .diskSeek ⟨.imm a, .absent, .absent, false⟩ ∧ ¬ (0 ≤ a.toInt ∧ a.toInt < s.cfg.nsect))
      ∨ (∃ line : Word, ¬ (1 ≤ line.toInt ∧ line.toInt ≤ s.progLen)
        ∧ (i = .jmp ⟨.imm line, .absent, .absent, false⟩ ∨ i = .je ⟨.imm line, .absent, .absent, false⟩
          ∨ i = .jne ⟨.imm line, .absent, .absent, false⟩)))

/-- R144, with the operand forms of R91: `ArithmeticError` is raised exactly by DIV and MOD, and exactly when every
operand has resolved and the right one is 0; the destination keeps its value, and overflow never raises it. Rests on
the spec's own decision D14. -/
def Obligations.WhenArithmeticErrorIsRaised : Prop :=
  ∀ (i : Instr) (s : State), s.run = .running →
    (Faults i s .arithmeticError ↔ ∃ r n a, s.ArithForm n r a 0 ∧ (i = .div r ∨ i = .mod r))

/-- R148: in `Faulted` a STEP does nothing, so no second fault occurs, and INJECT does not leave it; RESET leaves it
to `Idle`, a START that passes validation to `Running` with the per-run state reset and `FAULT` cleared; a START that
fails leaves everything as it was. -/
def Obligations.FaultedIsLeftOnlyByResetOrStart : Prop :=
  ∀ s : State, s.run = .faulted →
    step s = .next s ∧ stepResult s = some .notRunning
      ∧ (∀ p v, (hostInject p v s).1.run = .faulted ∧ (hostInject p v s).1.fault = s.fault)
      ∧ s.hostReset.run = .idle
      ∧ ∀ image,
        ((hostStart image s).2 = .ok →
          (hostStart image s).1.run = .running ∧ (hostStart image s).1.fault = ⟨.none, 0⟩
          ∧ (∀ n, (hostStart image s).1.readReg n = 0) ∧ (hostStart image s).1.pc = 0
          ∧ (hostStart image s).1.flags = ⟨false, false, false, false, false⟩
          ∧ (hostStart image s).1.cycles = 0 ∧ (hostStart image s).1.readOps = 0
          ∧ (hostStart image s).1.writeOps = 0 ∧ (hostStart image s).1.cacheHits = 0
          ∧ (hostStart image s).1.cacheMisses = 0 ∧ (hostStart image s).1.time2 = 0
          ∧ (hostStart image s).1.executed = 0 ∧ (hostStart image s).1.prog = image)
        ∧ ((hostStart image s).2 ≠ .ok → (hostStart image s).1 = s)

/-- R10 to R22: every item of state has only its own writers among the instructions. `RUN` and `FAULT` change only by
a fault, `CYCLES` and `EXECUTED` only by an instruction that completes, `EXECUTED` in that opcode's bit only; `pc`
goes on by 1 but for the three jumps and for a fault, which leaves it. The program and the parameters (log 1) change
by none, and the counts of draws taken (fields of the model, log 2) only by the two instructions that draw. EMPTY,
which is no instruction (R81), changes `pc` only, by the model's own choice (log 14). Rests on the spec's own
decisions D30, D36, D43. -/
def Obligations.EachItemHasItsWriters : Prop :=
  ∀ (i : Instr) (s t : State), exec i s = .next t →
    (t.regs ≠ s.regs → (opcodeOf i).toNat ∈ [1, 2, 3, 4, 5, 6, 11, 13, 14, 17])
    ∧ (t.pc ≠ s.pc + 1 → (opcodeOf i).toNat ∈ [8, 9, 10] ∨ (t.pc = s.pc ∧ t.run = .faulted ∧ t.cycles = s.cycles))
    ∧ (t.flags ≠ s.flags → (opcodeOf i).toNat = 7)
    ∧ (t.run ≠ s.run ∨ t.fault ≠ s.fault →
        i ≠ .empty ∧ t.run = .faulted ∧ t.fault.kind ≠ .none ∧ t.fault.line = s.pc + 1 ∧ t.cycles = s.cycles)
    ∧ (t.cycles ≠ s.cycles → i ≠ .empty ∧ t.cycles = s.cycles + 1 ∧ t.run = s.run ∧ t.fault = s.fault)
    ∧ (t.readOps ≠ s.readOps → (opcodeOf i).toNat ∈ [11, 14]
        ∨ ((opcodeOf i).toNat = 13 ∧ t.cacheMisses = s.cacheMisses + 1))
    ∧ (t.writeOps ≠ s.writeOps → (opcodeOf i).toNat ∈ [12, 15])
    ∧ (t.cacheHits ≠ s.cacheHits ∨ t.cacheMisses ≠ s.cacheMisses → (opcodeOf i).toNat = 13)
    ∧ (t.time2 ≠ s.time2 → (opcodeOf i).toNat ∈ [11, 12, 13, 14, 15, 16])
    ∧ (t.executed ≠ s.executed →
        i ≠ .empty ∧ t.executed = s.executed ||| 1#32 <<< (opcodeOf i).toNat ∧ t.cycles = s.cycles + 1)
    ∧ (t.mem ≠ s.mem → (opcodeOf i).toNat = 12)
    ∧ (t.cache ≠ s.cache → (opcodeOf i).toNat ∈ [13, 19, 20])
    ∧ (t.disk ≠ s.disk → (opcodeOf i).toNat = 15)
    ∧ (t.head ≠ s.head → (opcodeOf i).toNat = 16)
    ∧ (t.inq ≠ s.inq → (opcodeOf i).toNat = 17)
    ∧ (t.outq ≠ s.outq → (opcodeOf i).toNat = 18)
    ∧ (t.cacheDraws ≠ s.cacheDraws → (opcodeOf i).toNat = 13)
    ∧ (t.inputDraws ≠ s.inputDraws → (opcodeOf i).toNat = 17)
    ∧ t.prog = s.prog ∧ t.cfg = s.cfg

/-- R166: the instructions for which the source lists no cost charge no time and count no operation. Rests on the
spec's own decision D28. -/
def Obligations.CostFreeInstructions : Prop :=
  ∀ (i : Instr) (s t : State), (opcodeOf i).toNat ∈ [1, 2, 3, 4, 5, 6, 7, 8, 9, 10, 17, 18, 19, 20] →
    exec i s = .next t →
    t.time2 = s.time2 ∧ t.readOps = s.readOps ∧ t.writeOps = s.writeOps ∧ t.cacheHits = s.cacheHits
      ∧ t.cacheMisses = s.cacheMisses

/-- R20: the record of an output port only grows under STEP. Rests on the spec's own decision D32. -/
def Obligations.OutputRecordsOnlyGrow : Prop :=
  ∀ (s t : State) (p : Nat), step s = .next t → ∃ more, t.outRecord p = s.outRecord p ++ more ∧ more.length ≤ 1

/-- R4, R57, R140: no instruction ends in a fault of the model, and the only refusal is the one the parameter
`Overflow` = `refuse` asks for, the model's form of "no step" (log 6). Rests on the spec's own decisions D2, D34. -/
def Obligations.EveryInstructionRuns : Prop :=
  ∀ (i : Instr) (s : State),
    (∃ t, exec i s = .next t)
      ∨ (s.cfg.overflow = .refuse ∧ (opcodeOf i).toNat ∈ [2, 3, 4, 5]
        ∧ ∃ x, fitsWord x = false ∧ exec i s = .refused (.overflowNotAdmitted x))

/-! ### RESET and START (70_reset_and_hazards.md) -/

/-- R24, R160: RESET zeroes every item of state; it keeps the parameters, which are no state (log 1), and the draws
already taken, which are the environment's (log 2). Rests on the spec's own decision D31. -/
def Obligations.ResetZeroesEveryItem : Prop :=
  ∀ s : State,
    (∀ n, s.hostReset.readReg n = 0) ∧ (∀ a, s.hostReset.readMem a = 0) ∧ (∀ k, s.hostReset.cached k = none)
    ∧ (∀ n, s.hostReset.sector n = ⟨0, false⟩) ∧ (∀ p, s.hostReset.inBuffer p = [])
    ∧ (∀ p, s.hostReset.outRecord p = []) ∧ (∀ i, s.hostReset.slot i = 0) ∧ s.hostReset.progLen = 0
    ∧ s.hostReset.pc = 0 ∧ s.hostReset.flags = ⟨false, false, false, false, false⟩ ∧ s.hostReset.run = .idle
    ∧ s.hostReset.fault = ⟨.none, 0⟩ ∧ s.hostReset.head = 0 ∧ s.hostReset.executed = 0
    ∧ s.hostReset.cycles = 0 ∧ s.hostReset.readOps = 0 ∧ s.hostReset.writeOps = 0
    ∧ s.hostReset.cacheHits = 0 ∧ s.hostReset.cacheMisses = 0 ∧ s.hostReset.time2 = 0

/-- R161, which the spec derives from R160: RESET twice is RESET once; RESET reads no item of state, so two engines
that agree in the model's own fields (the parameters, log 1, and the draws already taken, log 2, which RESET keeps by
the model's own choice) are alike after it; and the power-on state is the state after RESET. Rests on the spec's own
decision D31. -/
def Obligations.ResetIsIdempotent : Prop :=
  (∀ s : State, s.hostReset.hostReset = s.hostReset)
    ∧ (∀ s u : State, s.cfg = u.cfg → s.cacheDraws = u.cacheDraws → s.inputDraws = u.inputDraws →
        s.hostReset = u.hostReset)
    ∧ State.reset.hostReset = State.reset

/-- R71, R162: START installs a well-formed image and resets the per-run state, keeping RAM, cache, disk, head and
ports; for any other image it changes nothing and reports the lowest ill-formed line. Rests on the spec's own
decisions D32, D33, D34. -/
def Obligations.StartRule : Prop :=
  ∀ (s : State) (image : List IWord),
    (s.cfg.progMax < image.length → hostStart image s = (s, .parseError (s.cfg.progMax + 1)))
    ∧ (image.length ≤ s.cfg.progMax →
        (∀ k, k < image.length → wordWellFormed (image.getD k 0) = false →
          (∀ j, j < k → wordWellFormed (image.getD j 0) = true) → hostStart image s = (s, .parseError (k + 1)))
        ∧ ((∀ iw ∈ image, wordWellFormed iw = true) →
            (hostStart image s).2 = .ok
            ∧ (hostStart image s).1 = { State.resetWith s.cfg with
                prog := image
                run := .running
                mem := s.mem
                cache := s.cache
                disk := s.disk
                head := s.head
                inq := s.inq
                outq := s.outq
                cacheDraws := s.cacheDraws
                inputDraws := s.inputDraws }))

/-- R59 to R61, R71: a text that the assembler accepts gives an image START accepts, one slot a line. Rests on the
spec's own decisions D11, D47; logs 12 and 13. -/
def Obligations.AssembledTextStarts : Prop :=
  ∀ (s : State) (text : List Char) (image : List IWord), assemble s.cfg text = .ok image →
    image.length = (splitLines text).length ∧ (hostStart image s).2 = .ok
end

