-- ==== Sys2Proof/Laws/Cells.lean ====
section
/-! SUPPORT. The laws of the sparse stores: what a lookup sees after an insertion, a removal or a write, and that every
operation keeps the canonical form. -/

namespace Sys2Proof.Machine

section Lookup

variable {α : Type}

@[simp] theorem Cells.lookup_insert_same (m : Cells α) (a : Nat) (x : α) :
    Cells.lookup (Cells.insert m a x) a = some x := by
  induction m with
  | nil => simp [Cells.insert, Cells.lookup]
  | cons p t ih =>
    obtain ⟨k, v⟩ := p
    simp only [Cells.insert]
    split
    · simp [Cells.lookup]
    · split
      · simp [Cells.lookup]
      · have hk : k ≠ a := by omega
        simp [Cells.lookup, hk, ih]

theorem Cells.lookup_insert_other (m : Cells α) (a b : Nat) (x : α) (h : b ≠ a) :
    Cells.lookup (Cells.insert m a x) b = Cells.lookup m b := by
  have h' : ¬ a = b := fun e => h e.symm
  induction m with
  | nil => simp [Cells.insert, Cells.lookup, h']
  | cons p t ih =>
    obtain ⟨k, v⟩ := p
    simp only [Cells.insert]
    split
    · simp [Cells.lookup, h']
    · split
      · next e => subst e; simp [Cells.lookup, h']
      · simp [Cells.lookup, ih]

@[simp] theorem Cells.lookup_erase_same (m : Cells α) (a : Nat) :
    Cells.lookup (Cells.erase m a) a = none := by
  induction m with
  | nil => rfl
  | cons p t ih =>
    obtain ⟨k, v⟩ := p
    simp only [Cells.erase]
    split
    · exact ih
    · next h => simp [Cells.lookup, h, ih]

theorem Cells.lookup_erase_other (m : Cells α) (a b : Nat) (h : b ≠ a) :
    Cells.lookup (Cells.erase m a) b = Cells.lookup m b := by
  induction m with
  | nil => rfl
  | cons p t ih =>
    obtain ⟨k, v⟩ := p
    simp only [Cells.erase]
    split
    · next e =>
      have : k ≠ b := by omega
      simp [Cells.lookup, this, ih]
    · simp [Cells.lookup, ih]

/-- Read after write, same key. -/
@[simp] theorem Cells.read_write_same [DecidableEq α] (d : α) (m : Cells α) (a : Nat) (x : α) :
    Cells.read d (Cells.write d m a x) a = x := by
  by_cases h : x = d <;> simp [Cells.read, Cells.write, h]

/-- Read after write, another key. -/
theorem Cells.read_write_other [DecidableEq α] (d : α) (m : Cells α) (a b : Nat) (x : α) (h : b ≠ a) :
    Cells.read d (Cells.write d m a x) b = Cells.read d m b := by
  by_cases hx : x = d
  · simp [Cells.read, Cells.write, hx, Cells.lookup_erase_other m a b h]
  · simp [Cells.read, Cells.write, hx, Cells.lookup_insert_other m a b x h]

end Lookup

section Canonical

variable {α : Type}

theorem Cells.risingFrom_mono {lo lo' : Nat} (h : lo' ≤ lo) (m : Cells α) (hm : Cells.risingFrom lo m = true) :
    Cells.risingFrom lo' m = true := by
  cases m with
  | nil => rfl
  | cons p t =>
    simp only [Cells.risingFrom, Bool.and_eq_true, decide_eq_true_eq] at hm ⊢
    exact ⟨by omega, hm.2⟩

theorem Cells.risingFrom_insert (m : Cells α) (a : Nat) (x : α) (lo : Nat) (ha : lo ≤ a)
    (hm : Cells.risingFrom lo m = true) : Cells.risingFrom lo (Cells.insert m a x) = true := by
  induction m generalizing lo with
  | nil => simp [Cells.insert, Cells.risingFrom, ha]
  | cons p t ih =>
    obtain ⟨k, v⟩ := p
    simp only [Cells.risingFrom, Bool.and_eq_true, decide_eq_true_eq] at hm
    simp only [Cells.insert]
    split
    · next hlt =>
      simp only [Cells.risingFrom, Bool.and_eq_true, decide_eq_true_eq]
      exact ⟨ha, hlt, hm.2⟩
    · split
      · next e =>
        subst e
        simp only [Cells.risingFrom, Bool.and_eq_true, decide_eq_true_eq]
        exact hm
      · simp only [Cells.risingFrom, Bool.and_eq_true, decide_eq_true_eq]
        exact ⟨hm.1, ih (k + 1) (by omega) hm.2⟩

theorem Cells.risingFrom_erase (m : Cells α) (a : Nat) (lo : Nat) (hm : Cells.risingFrom lo m = true) :
    Cells.risingFrom lo (Cells.erase m a) = true := by
  induction m generalizing lo with
  | nil => rfl
  | cons p t ih =>
    obtain ⟨k, v⟩ := p
    simp only [Cells.risingFrom, Bool.and_eq_true, decide_eq_true_eq] at hm
    simp only [Cells.erase]
    split
    · exact Cells.risingFrom_mono (by omega) _ (ih (k + 1) hm.2)
    · simp only [Cells.risingFrom, Bool.and_eq_true, decide_eq_true_eq]
      exact ⟨hm.1, ih (k + 1) hm.2⟩

theorem Cells.mem_insert (m : Cells α) (a : Nat) (x : α) (p : Nat × α) (hp : p ∈ Cells.insert m a x) :
    p = (a, x) ∨ p ∈ m := by
  induction m with
  | nil => simpa [Cells.insert] using hp
  | cons q t ih =>
    obtain ⟨k, v⟩ := q
    simp only [Cells.insert] at hp
    split at hp
    · simpa using hp
    · split at hp
      · rcases List.mem_cons.mp hp with h | h
        · exact .inl h
        · exact .inr (List.mem_cons_of_mem _ h)
      · rcases List.mem_cons.mp hp with h | h
        · exact .inr (h ▸ List.mem_cons_self)
        · exact (ih h).imp id (List.mem_cons_of_mem _)

theorem Cells.mem_erase (m : Cells α) (a : Nat) (p : Nat × α) (hp : p ∈ Cells.erase m a) : p ∈ m := by
  induction m with
  | nil => simp [Cells.erase] at hp
  | cons q t ih =>
    obtain ⟨k, v⟩ := q
    simp only [Cells.erase] at hp
    split at hp
    · exact List.mem_cons_of_mem _ (ih hp)
    · rcases List.mem_cons.mp hp with h | h
      · exact h ▸ List.mem_cons_self
      · exact List.mem_cons_of_mem _ (ih h)

@[simp] theorem Cells.wf_nil (ok : Nat → α → Bool) : Cells.wf ok ([] : Cells α) = true := rfl

/-- An insertion of an entry that the form admits keeps the canonical form. -/
theorem Cells.wf_insert {ok : Nat → α → Bool} {m : Cells α} (hm : Cells.wf ok m = true) (a : Nat) (x : α)
    (hx : ok a x = true) : Cells.wf ok (Cells.insert m a x) = true := by
  simp only [Cells.wf, Bool.and_eq_true, List.all_eq_true] at hm ⊢
  refine ⟨Cells.risingFrom_insert m a x 0 (Nat.zero_le a) hm.1, fun p hp => ?_⟩
  rcases Cells.mem_insert m a x p hp with rfl | h
  · exact hx
  · exact hm.2 p h

/-- A removal keeps the canonical form. -/
theorem Cells.wf_erase {ok : Nat → α → Bool} {m : Cells α} (hm : Cells.wf ok m = true) (a : Nat) :
    Cells.wf ok (Cells.erase m a) = true := by
  simp only [Cells.wf, Bool.and_eq_true, List.all_eq_true] at hm ⊢
  exact ⟨Cells.risingFrom_erase m a 0 hm.1, fun p hp => hm.2 p (Cells.mem_erase m a p hp)⟩

/-- A write keeps the canonical form: the default unlists the key, any other value must be one the form admits. -/
theorem Cells.wf_write [DecidableEq α] {ok : Nat → α → Bool} {m : Cells α} (hm : Cells.wf ok m = true) (d : α)
    (a : Nat) (x : α) (hx : x ≠ d → ok a x = true) : Cells.wf ok (Cells.write d m a x) = true := by
  by_cases h : x = d
  · simpa [Cells.write, h] using Cells.wf_erase hm a
  · simpa [Cells.write, h] using Cells.wf_insert hm a x (hx h)

theorem Cells.lookup_eq_none_of_rising (m : Cells α) (lo a : Nat) (hm : Cells.risingFrom lo m = true) (ha : a < lo) :
    Cells.lookup m a = none := by
  induction m generalizing lo with
  | nil => rfl
  | cons p t ih =>
    obtain ⟨k, v⟩ := p
    simp only [Cells.risingFrom, Bool.and_eq_true, decide_eq_true_eq] at hm
    have hk : k ≠ a := by omega
    simpa [Cells.lookup, hk] using ih (k + 1) hm.2 (by omega)

/-- Two stores with rising keys that answer every lookup alike are the same data. -/
theorem Cells.eq_of_lookup_eq (m n : Cells α) (lo : Nat) (hm : Cells.risingFrom lo m = true)
    (hn : Cells.risingFrom lo n = true) (h : ∀ a, Cells.lookup m a = Cells.lookup n a) : m = n := by
  induction m generalizing n lo with
  | nil =>
    cases n with
    | nil => rfl
    | cons q u => simpa [Cells.lookup] using h q.1
  | cons p t ih =>
    obtain ⟨k, v⟩ := p
    cases n with
    | nil => simpa [Cells.lookup] using h k
    | cons q u =>
      obtain ⟨j, w⟩ := q
      simp only [Cells.risingFrom, Bool.and_eq_true, decide_eq_true_eq] at hm hn
      have hk := h k
      have hj := h j
      simp only [Cells.lookup, if_true] at hk hj
      have hkj : k = j := by
        by_contra hne
        rw [if_neg (fun e => hne e.symm)] at hk
        rw [if_neg hne] at hj
        rcases Nat.lt_or_gt_of_ne hne with hlt | hgt
        · rw [Cells.lookup_eq_none_of_rising u (j + 1) k hn.2 (by omega)] at hk
          exact absurd hk (by simp)
        · rw [Cells.lookup_eq_none_of_rising t (k + 1) j hm.2 (by omega)] at hj
          exact absurd hj (by simp)
      subst hkj
      rw [if_pos rfl] at hk
      have htail : t = u := ih u (k + 1) hm.2 hn.2 fun a => by
        have ha := h a
        simp only [Cells.lookup] at ha
        by_cases hka : k = a
        · subst hka
          rw [Cells.lookup_eq_none_of_rising t (k + 1) k hm.2 (by omega),
            Cells.lookup_eq_none_of_rising u (k + 1) k hn.2 (by omega)]
        · simpa [hka] using ha
      rw [htail, Option.some.inj hk]

end Canonical

section Stores

/-- `MEM` stays in canonical form when a word below `MEM_SIZE` is written. -/
theorem Memory.wf_write {size : Nat} {m : Memory} (hm : Memory.wf size m = true) (a : Nat) (v : Word)
    (ha : a < size) : Memory.wf size (Memory.write m a v) = true :=
  Cells.wf_write hm 0 a v fun hv => by simpa [ha] using hv

@[simp] theorem Memory.read_write_same (m : Memory) (a : Nat) (v : Word) :
    Memory.read (Memory.write m a v) a = v := Cells.read_write_same 0 m a v

theorem Memory.read_write_other (m : Memory) (a b : Nat) (v : Word) (h : b ≠ a) :
    Memory.read (Memory.write m a v) b = Memory.read m b := Cells.read_write_other 0 m a b v h

@[simp] theorem Memory.wf_nil (size : Nat) : Memory.wf size [] = true := rfl

/-- Memories in canonical form that read alike everywhere are equal data. -/
theorem Memory.eq_of_read_eq {size : Nat} {m n : Memory} (hm : Memory.wf size m = true) (hn : Memory.wf size n = true)
    (h : ∀ a, Memory.read m a = Memory.read n a) : m = n := by
  simp only [Memory.wf, Cells.wf, Bool.and_eq_true, List.all_eq_true] at hm hn
  have nonzero : ∀ (l : Memory), (∀ p ∈ l, (decide (p.1 < size) && p.2 != 0) = true) →
      ∀ a v, Cells.lookup l a = some v → v ≠ 0 := by
    intro l hl a v
    induction l with
    | nil => simp [Cells.lookup]
    | cons p t ih =>
      obtain ⟨k, w⟩ := p
      simp only [Cells.lookup]
      split
      · intro e
        have := hl (k, w) List.mem_cons_self
        simp only [Bool.and_eq_true, bne_iff_ne] at this
        exact Option.some.inj e ▸ this.2
      · exact ih fun p hp => hl p (List.mem_cons_of_mem _ hp)
  refine Cells.eq_of_lookup_eq m n 0 hm.1 hn.1 fun a => ?_
  have ha := h a
  simp only [Memory.read, Cells.read] at ha
  cases hma : Cells.lookup m a with
  | none =>
    cases hna : Cells.lookup n a with
    | none => rfl
    | some w =>
      rw [hma, hna] at ha
      exact absurd ha.symm (nonzero n (by simpa using hn.2) a w hna)
  | some v =>
    cases hna : Cells.lookup n a with
    | none =>
      rw [hma, hna] at ha
      exact absurd ha (nonzero m (by simpa using hm.2) a v hma)
    | some w =>
      rw [hma, hna] at ha
      exact congrArg some ha

/-- The register file stays in canonical form when an existing register is written. -/
theorem RegFile.wf_write {nreg : Nat} {m : Cells Word} (hm : RegFile.wf nreg m = true) (a : Nat) (v : Word)
    (h1 : 1 ≤ a) (h2 : a ≤ nreg) : RegFile.wf nreg (Cells.write 0 m a v) = true :=
  Cells.wf_write hm 0 a v fun hv => by simpa [h1, h2] using hv

/-- `CACHE` stays in canonical form when the entry of a 32-bit key is set. -/
theorem CacheMap.wf_insert {m : Cells Word} (hm : CacheMap.wf m = true) (k v : Word) :
    CacheMap.wf (Cells.insert m k.toNat v) = true :=
  Cells.wf_insert hm k.toNat v (by simpa using k.isLt)

theorem CacheMap.wf_erase {m : Cells Word} (hm : CacheMap.wf m = true) (k : Word) :
    CacheMap.wf (Cells.erase m k.toNat) = true := Cells.wf_erase hm k.toNat

/-- `DISK` stays in canonical form when a sector below `NSECT` is written. -/
theorem Disk.wf_write {nsect : Nat} {m : Cells Sector} (hm : Disk.wf nsect m = true) (a : Nat) (v : Sector)
    (ha : a < nsect) : Disk.wf nsect (Cells.write Sector.blank m a v) = true :=
  Cells.wf_write hm Sector.blank a v fun hv => by simpa [ha] using hv

/-- `INQ` and `OUTQ` stay in canonical form when an existing port's sequence is written. -/
theorem Ports.wf_write {nports : Nat} {m : Cells (List Word)} (hm : Ports.wf nports m = true) (p : Nat)
    (v : List Word) (hp : p < nports) : Ports.wf nports (Cells.write [] m p v) = true :=
  Cells.wf_write hm [] p v fun hv => by simpa [hp] using hv

end Stores

end Sys2Proof.Machine
end

