-- ==== Sys2Proof/Laws/Decode.lean ====
section
/-! SUPPORT. The fields of a packed word (R51), a word as its fields, and the operand codes (R52). -/

namespace Sys2Proof

section Pack

variable (opc : BitVec 8) (k0 k1 k2 : BitVec 4) (xa : BitVec 1) (v0 v1 v2 : BitVec 32)

@[simp] theorem fieldOpc_packWord : fieldOpc (packWord opc k0 k1 k2 xa v0 v1 v2) = opc := by
  unfold fieldOpc packWord
  iterate 8 rw [BitVec.extractLsb'_append_eq_of_le (by decide)]
  simp

@[simp] theorem fieldK0_packWord : fieldK0 (packWord opc k0 k1 k2 xa v0 v1 v2) = k0 := by
  unfold fieldK0 packWord
  iterate 7 rw [BitVec.extractLsb'_append_eq_of_le (by decide)]
  rw [BitVec.extractLsb'_append_eq_of_add_le (by decide)]
  simp

@[simp] theorem fieldK1_packWord : fieldK1 (packWord opc k0 k1 k2 xa v0 v1 v2) = k1 := by
  unfold fieldK1 packWord
  iterate 6 rw [BitVec.extractLsb'_append_eq_of_le (by decide)]
  rw [BitVec.extractLsb'_append_eq_of_add_le (by decide)]
  simp

@[simp] theorem fieldK2_packWord : fieldK2 (packWord opc k0 k1 k2 xa v0 v1 v2) = k2 := by
  unfold fieldK2 packWord
  iterate 5 rw [BitVec.extractLsb'_append_eq_of_le (by decide)]
  rw [BitVec.extractLsb'_append_eq_of_add_le (by decide)]
  simp

@[simp] theorem fieldXa_packWord : fieldXa (packWord opc k0 k1 k2 xa v0 v1 v2) = xa := by
  unfold fieldXa packWord
  iterate 4 rw [BitVec.extractLsb'_append_eq_of_le (by decide)]
  rw [BitVec.extractLsb'_append_eq_of_add_le (by decide)]
  simp

@[simp] theorem fieldRsv_packWord : fieldRsv (packWord opc k0 k1 k2 xa v0 v1 v2) = 0 := by
  unfold fieldRsv packWord
  iterate 3 rw [BitVec.extractLsb'_append_eq_of_le (by decide)]
  rw [BitVec.extractLsb'_append_eq_of_add_le (by decide)]
  simp

@[simp] theorem fieldV0_packWord : fieldV0 (packWord opc k0 k1 k2 xa v0 v1 v2) = v0 := by
  unfold fieldV0 packWord
  iterate 2 rw [BitVec.extractLsb'_append_eq_of_le (by decide)]
  rw [BitVec.extractLsb'_append_eq_of_add_le (by decide)]
  simp

@[simp] theorem fieldV1_packWord : fieldV1 (packWord opc k0 k1 k2 xa v0 v1 v2) = v1 := by
  unfold fieldV1 packWord
  iterate 1 rw [BitVec.extractLsb'_append_eq_of_le (by decide)]
  rw [BitVec.extractLsb'_append_eq_of_add_le (by decide)]
  simp

@[simp] theorem fieldV2_packWord : fieldV2 (packWord opc k0 k1 k2 xa v0 v1 v2) = v2 := by
  unfold fieldV2 packWord
  rw [BitVec.extractLsb'_append_eq_of_add_le (by decide)]
  simp

end Pack

/-- A word whose reserved bits are 0 is the packing of its fields. -/
theorem packWord_fields (iw : IWord) (h : fieldRsv iw = 0) :
    packWord (fieldOpc iw) (fieldK0 iw) (fieldK1 iw) (fieldK2 iw) (fieldXa iw) (fieldV0 iw) (fieldV1 iw)
      (fieldV2 iw) = iw := by
  unfold packWord
  rw [← h]
  unfold fieldOpc fieldK0 fieldK1 fieldK2 fieldXa fieldRsv fieldV0 fieldV1 fieldV2
  iterate 8 rw [BitVec.extractLsb'_append_extractLsb'_eq_extractLsb' (by decide)]
  simp

/-- Every operand is read back from its kind and value (R52). -/
@[simp] theorem decodeOperand_kind_value (a : Operand) : decodeOperand (kindOf a) (valueField a) = .ok a := by
  cases a <;> rfl

/-- An operand that is read from a kind and a value has them as its codes (R52). -/
theorem decodeOperand_eq_ok {k : BitVec 4} {v : BitVec 32} {a : Operand} (h : decodeOperand k v = .ok a) :
    kindOf a = k ∧ valueField a = v := by
  have hk : ∀ n, k.toNat = n → n < 16 → k = BitVec.ofNat 4 n := by
    intro n e _; rw [← e]; simp
  unfold decodeOperand at h
  split at h
  all_goals first
    | (split at h <;> simp at h
       subst h
       next e hv => exact ⟨(hk _ e (by decide)).symm, hv.symm⟩)
    | (injection h with h
       subst h
       next e => exact ⟨(hk _ e (by decide)).symm, rfl⟩)
    | simp at h

/-- What `admitArgs` lets through (R53). -/
theorem admitArgs_eq_ok {rsv : BitVec 11} {r q : Args} :
    admitArgs rsv r = .ok q ↔ rsv = 0 ∧ r.wellFormed = true ∧ q = r := by
  unfold admitArgs
  split
  · next h => simp only [reduceCtorEq, false_iff]; exact fun h' => h h'.1
  · next h =>
    have h0 : rsv = 0 := Decidable.not_not.mp h
    split
    · next hg => simp [Args.wellFormed, hg]
    · next hg =>
      split
      · next hx => simp [Args.wellFormed, hx]
      · next hx =>
        simp only [Bool.not_eq_false] at hg hx
        simp [Args.wellFormed, hg, hx, h0, eq_comm]

/-- What a word's operand fields must be for it to have operands (R52, R53). -/
theorem decodeArgs_eq_ok {iw : IWord} {r : Args} (h : decodeArgs iw = .ok r) :
    fieldRsv iw = 0 ∧ r.wellFormed = true ∧ (r.xa = (fieldXa iw == 1))
      ∧ (kindOf r.a0 = fieldK0 iw ∧ valueField r.a0 = fieldV0 iw)
      ∧ (kindOf r.a1 = fieldK1 iw ∧ valueField r.a1 = fieldV1 iw)
      ∧ kindOf r.a2 = fieldK2 iw ∧ valueField r.a2 = fieldV2 iw := by
  unfold decodeArgs at h
  split at h <;> try (simp at h; done)
  next a0 a1 a2 h0 h1 h2 =>
    obtain ⟨hr, hw, rfl⟩ := admitArgs_eq_ok.mp h
    exact ⟨hr, hw, rfl, decodeOperand_eq_ok h0, decodeOperand_eq_ok h1, decodeOperand_eq_ok h2⟩

/-- The instruction of an opcode number has that number and those operands (R54). -/
theorem instrOfOpcode_eq_some {n : Nat} {r : Args} {i : Instr} (h : instrOfOpcode n r = some i) :
    (opcodeOf i).toNat = n ∧ argsOf i = r ∧ i.wellFormed = r.wellFormed ∧ i ≠ .empty := by
  unfold instrOfOpcode at h
  split at h <;> first
    | (injection h with h; subst h; exact ⟨rfl, rfl, rfl, by simp⟩)
    | simp at h

/-- Every instruction but the EMPTY slot is the instruction of its opcode number (R54). -/
theorem instrOfOpcode_opcodeOf (i : Instr) (h : i ≠ .empty) :
    instrOfOpcode (opcodeOf i).toNat (argsOf i) = some i := by
  cases i <;> first | rfl | exact absurd rfl h

end Sys2Proof
end

