-- ==== Sys2Proof/Laws/State.lean ====
section
/-! SUPPORT. One lemma for each field of State and each named update of it, true by rfl, so that no later proof
unfolds a record update. -/

namespace Sys2Proof.Machine

/-! ### `writeReg`: `x[n] <- v` (R10) -/

@[simp] theorem State.writeReg_cfg (s : State) (n : Nat) (v : Word) : (s.writeReg n v).cfg = s.cfg := rfl
@[simp] theorem State.writeReg_regs (s : State) (n : Nat) (v : Word) : (s.writeReg n v).regs = Cells.write 0 s.regs n v := rfl
@[simp] theorem State.writeReg_pc (s : State) (n : Nat) (v : Word) : (s.writeReg n v).pc = s.pc := rfl
@[simp] theorem State.writeReg_flags (s : State) (n : Nat) (v : Word) : (s.writeReg n v).flags = s.flags := rfl
@[simp] theorem State.writeReg_run (s : State) (n : Nat) (v : Word) : (s.writeReg n v).run = s.run := rfl
@[simp] theorem State.writeReg_fault (s : State) (n : Nat) (v : Word) : (s.writeReg n v).fault = s.fault := rfl
@[simp] theorem State.writeReg_prog (s : State) (n : Nat) (v : Word) : (s.writeReg n v).prog = s.prog := rfl
@[simp] theorem State.writeReg_mem (s : State) (n : Nat) (v : Word) : (s.writeReg n v).mem = s.mem := rfl
@[simp] theorem State.writeReg_cache (s : State) (n : Nat) (v : Word) : (s.writeReg n v).cache = s.cache := rfl
@[simp] theorem State.writeReg_disk (s : State) (n : Nat) (v : Word) : (s.writeReg n v).disk = s.disk := rfl
@[simp] theorem State.writeReg_head (s : State) (n : Nat) (v : Word) : (s.writeReg n v).head = s.head := rfl
@[simp] theorem State.writeReg_inq (s : State) (n : Nat) (v : Word) : (s.writeReg n v).inq = s.inq := rfl
@[simp] theorem State.writeReg_outq (s : State) (n : Nat) (v : Word) : (s.writeReg n v).outq = s.outq := rfl
@[simp] theorem State.writeReg_cycles (s : State) (n : Nat) (v : Word) : (s.writeReg n v).cycles = s.cycles := rfl
@[simp] theorem State.writeReg_readOps (s : State) (n : Nat) (v : Word) : (s.writeReg n v).readOps = s.readOps := rfl
@[simp] theorem State.writeReg_writeOps (s : State) (n : Nat) (v : Word) : (s.writeReg n v).writeOps = s.writeOps := rfl
@[simp] theorem State.writeReg_cacheHits (s : State) (n : Nat) (v : Word) : (s.writeReg n v).cacheHits = s.cacheHits := rfl
@[simp] theorem State.writeReg_cacheMisses (s : State) (n : Nat) (v : Word) : (s.writeReg n v).cacheMisses = s.cacheMisses := rfl
@[simp] theorem State.writeReg_time2 (s : State) (n : Nat) (v : Word) : (s.writeReg n v).time2 = s.time2 := rfl
@[simp] theorem State.writeReg_executed (s : State) (n : Nat) (v : Word) : (s.writeReg n v).executed = s.executed := rfl
@[simp] theorem State.writeReg_cacheDraws (s : State) (n : Nat) (v : Word) : (s.writeReg n v).cacheDraws = s.cacheDraws := rfl
@[simp] theorem State.writeReg_inputDraws (s : State) (n : Nat) (v : Word) : (s.writeReg n v).inputDraws = s.inputDraws := rfl

/-! ### `writeMem`: `MEM[n] <- v` (R16) -/

@[simp] theorem State.writeMem_cfg (s : State) (n : Nat) (v : Word) : (s.writeMem n v).cfg = s.cfg := rfl
@[simp] theorem State.writeMem_regs (s : State) (n : Nat) (v : Word) : (s.writeMem n v).regs = s.regs := rfl
@[simp] theorem State.writeMem_pc (s : State) (n : Nat) (v : Word) : (s.writeMem n v).pc = s.pc := rfl
@[simp] theorem State.writeMem_flags (s : State) (n : Nat) (v : Word) : (s.writeMem n v).flags = s.flags := rfl
@[simp] theorem State.writeMem_run (s : State) (n : Nat) (v : Word) : (s.writeMem n v).run = s.run := rfl
@[simp] theorem State.writeMem_fault (s : State) (n : Nat) (v : Word) : (s.writeMem n v).fault = s.fault := rfl
@[simp] theorem State.writeMem_prog (s : State) (n : Nat) (v : Word) : (s.writeMem n v).prog = s.prog := rfl
@[simp] theorem State.writeMem_mem (s : State) (n : Nat) (v : Word) : (s.writeMem n v).mem = Memory.write s.mem n v := rfl
@[simp] theorem State.writeMem_cache (s : State) (n : Nat) (v : Word) : (s.writeMem n v).cache = s.cache := rfl
@[simp] theorem State.writeMem_disk (s : State) (n : Nat) (v : Word) : (s.writeMem n v).disk = s.disk := rfl
@[simp] theorem State.writeMem_head (s : State) (n : Nat) (v : Word) : (s.writeMem n v).head = s.head := rfl
@[simp] theorem State.writeMem_inq (s : State) (n : Nat) (v : Word) : (s.writeMem n v).inq = s.inq := rfl
@[simp] theorem State.writeMem_outq (s : State) (n : Nat) (v : Word) : (s.writeMem n v).outq = s.outq := rfl
@[simp] theorem State.writeMem_cycles (s : State) (n : Nat) (v : Word) : (s.writeMem n v).cycles = s.cycles := rfl
@[simp] theorem State.writeMem_readOps (s : State) (n : Nat) (v : Word) : (s.writeMem n v).readOps = s.readOps := rfl
@[simp] theorem State.writeMem_writeOps (s : State) (n : Nat) (v : Word) : (s.writeMem n v).writeOps = s.writeOps := rfl
@[simp] theorem State.writeMem_cacheHits (s : State) (n : Nat) (v : Word) : (s.writeMem n v).cacheHits = s.cacheHits := rfl
@[simp] theorem State.writeMem_cacheMisses (s : State) (n : Nat) (v : Word) : (s.writeMem n v).cacheMisses = s.cacheMisses := rfl
@[simp] theorem State.writeMem_time2 (s : State) (n : Nat) (v : Word) : (s.writeMem n v).time2 = s.time2 := rfl
@[simp] theorem State.writeMem_executed (s : State) (n : Nat) (v : Word) : (s.writeMem n v).executed = s.executed := rfl
@[simp] theorem State.writeMem_cacheDraws (s : State) (n : Nat) (v : Word) : (s.writeMem n v).cacheDraws = s.cacheDraws := rfl
@[simp] theorem State.writeMem_inputDraws (s : State) (n : Nat) (v : Word) : (s.writeMem n v).inputDraws = s.inputDraws := rfl

/-! ### `writeSector`: `DISK[n] <- x` (R18) -/

@[simp] theorem State.writeSector_cfg (s : State) (n : Nat) (x : Sector) : (s.writeSector n x).cfg = s.cfg := rfl
@[simp] theorem State.writeSector_regs (s : State) (n : Nat) (x : Sector) : (s.writeSector n x).regs = s.regs := rfl
@[simp] theorem State.writeSector_pc (s : State) (n : Nat) (x : Sector) : (s.writeSector n x).pc = s.pc := rfl
@[simp] theorem State.writeSector_flags (s : State) (n : Nat) (x : Sector) : (s.writeSector n x).flags = s.flags := rfl
@[simp] theorem State.writeSector_run (s : State) (n : Nat) (x : Sector) : (s.writeSector n x).run = s.run := rfl
@[simp] theorem State.writeSector_fault (s : State) (n : Nat) (x : Sector) : (s.writeSector n x).fault = s.fault := rfl
@[simp] theorem State.writeSector_prog (s : State) (n : Nat) (x : Sector) : (s.writeSector n x).prog = s.prog := rfl
@[simp] theorem State.writeSector_mem (s : State) (n : Nat) (x : Sector) : (s.writeSector n x).mem = s.mem := rfl
@[simp] theorem State.writeSector_cache (s : State) (n : Nat) (x : Sector) : (s.writeSector n x).cache = s.cache := rfl
@[simp] theorem State.writeSector_disk (s : State) (n : Nat) (x : Sector) : (s.writeSector n x).disk = Cells.write Sector.blank s.disk n x := rfl
@[simp] theorem State.writeSector_head (s : State) (n : Nat) (x : Sector) : (s.writeSector n x).head = s.head := rfl
@[simp] theorem State.writeSector_inq (s : State) (n : Nat) (x : Sector) : (s.writeSector n x).inq = s.inq := rfl
@[simp] theorem State.writeSector_outq (s : State) (n : Nat) (x : Sector) : (s.writeSector n x).outq = s.outq := rfl
@[simp] theorem State.writeSector_cycles (s : State) (n : Nat) (x : Sector) : (s.writeSector n x).cycles = s.cycles := rfl
@[simp] theorem State.writeSector_readOps (s : State) (n : Nat) (x : Sector) : (s.writeSector n x).readOps = s.readOps := rfl
@[simp] theorem State.writeSector_writeOps (s : State) (n : Nat) (x : Sector) : (s.writeSector n x).writeOps = s.writeOps := rfl
@[simp] theorem State.writeSector_cacheHits (s : State) (n : Nat) (x : Sector) : (s.writeSector n x).cacheHits = s.cacheHits := rfl
@[simp] theorem State.writeSector_cacheMisses (s : State) (n : Nat) (x : Sector) : (s.writeSector n x).cacheMisses = s.cacheMisses := rfl
@[simp] theorem State.writeSector_time2 (s : State) (n : Nat) (x : Sector) : (s.writeSector n x).time2 = s.time2 := rfl
@[simp] theorem State.writeSector_executed (s : State) (n : Nat) (x : Sector) : (s.writeSector n x).executed = s.executed := rfl
@[simp] theorem State.writeSector_cacheDraws (s : State) (n : Nat) (x : Sector) : (s.writeSector n x).cacheDraws = s.cacheDraws := rfl
@[simp] theorem State.writeSector_inputDraws (s : State) (n : Nat) (x : Sector) : (s.writeSector n x).inputDraws = s.inputDraws := rfl

/-! ### `moveHead`: `HEAD <- n` (R18) -/

@[simp] theorem State.moveHead_cfg (s : State) (n : Nat) : (s.moveHead n).cfg = s.cfg := rfl
@[simp] theorem State.moveHead_regs (s : State) (n : Nat) : (s.moveHead n).regs = s.regs := rfl
@[simp] theorem State.moveHead_pc (s : State) (n : Nat) : (s.moveHead n).pc = s.pc := rfl
@[simp] theorem State.moveHead_flags (s : State) (n : Nat) : (s.moveHead n).flags = s.flags := rfl
@[simp] theorem State.moveHead_run (s : State) (n : Nat) : (s.moveHead n).run = s.run := rfl
@[simp] theorem State.moveHead_fault (s : State) (n : Nat) : (s.moveHead n).fault = s.fault := rfl
@[simp] theorem State.moveHead_prog (s : State) (n : Nat) : (s.moveHead n).prog = s.prog := rfl
@[simp] theorem State.moveHead_mem (s : State) (n : Nat) : (s.moveHead n).mem = s.mem := rfl
@[simp] theorem State.moveHead_cache (s : State) (n : Nat) : (s.moveHead n).cache = s.cache := rfl
@[simp] theorem State.moveHead_disk (s : State) (n : Nat) : (s.moveHead n).disk = s.disk := rfl
@[simp] theorem State.moveHead_head (s : State) (n : Nat) : (s.moveHead n).head = n := rfl
@[simp] theorem State.moveHead_inq (s : State) (n : Nat) : (s.moveHead n).inq = s.inq := rfl
@[simp] theorem State.moveHead_outq (s : State) (n : Nat) : (s.moveHead n).outq = s.outq := rfl
@[simp] theorem State.moveHead_cycles (s : State) (n : Nat) : (s.moveHead n).cycles = s.cycles := rfl
@[simp] theorem State.moveHead_readOps (s : State) (n : Nat) : (s.moveHead n).readOps = s.readOps := rfl
@[simp] theorem State.moveHead_writeOps (s : State) (n : Nat) : (s.moveHead n).writeOps = s.writeOps := rfl
@[simp] theorem State.moveHead_cacheHits (s : State) (n : Nat) : (s.moveHead n).cacheHits = s.cacheHits := rfl
@[simp] theorem State.moveHead_cacheMisses (s : State) (n : Nat) : (s.moveHead n).cacheMisses = s.cacheMisses := rfl
@[simp] theorem State.moveHead_time2 (s : State) (n : Nat) : (s.moveHead n).time2 = s.time2 := rfl
@[simp] theorem State.moveHead_executed (s : State) (n : Nat) : (s.moveHead n).executed = s.executed := rfl
@[simp] theorem State.moveHead_cacheDraws (s : State) (n : Nat) : (s.moveHead n).cacheDraws = s.cacheDraws := rfl
@[simp] theorem State.moveHead_inputDraws (s : State) (n : Nat) : (s.moveHead n).inputDraws = s.inputDraws := rfl

/-! ### `setInBuffer`: `INQ[p] <- q` (R19) -/

@[simp] theorem State.setInBuffer_cfg (s : State) (p : Nat) (q : List Word) : (s.setInBuffer p q).cfg = s.cfg := rfl
@[simp] theorem State.setInBuffer_regs (s : State) (p : Nat) (q : List Word) : (s.setInBuffer p q).regs = s.regs := rfl
@[simp] theorem State.setInBuffer_pc (s : State) (p : Nat) (q : List Word) : (s.setInBuffer p q).pc = s.pc := rfl
@[simp] theorem State.setInBuffer_flags (s : State) (p : Nat) (q : List Word) : (s.setInBuffer p q).flags = s.flags := rfl
@[simp] theorem State.setInBuffer_run (s : State) (p : Nat) (q : List Word) : (s.setInBuffer p q).run = s.run := rfl
@[simp] theorem State.setInBuffer_fault (s : State) (p : Nat) (q : List Word) : (s.setInBuffer p q).fault = s.fault := rfl
@[simp] theorem State.setInBuffer_prog (s : State) (p : Nat) (q : List Word) : (s.setInBuffer p q).prog = s.prog := rfl
@[simp] theorem State.setInBuffer_mem (s : State) (p : Nat) (q : List Word) : (s.setInBuffer p q).mem = s.mem := rfl
@[simp] theorem State.setInBuffer_cache (s : State) (p : Nat) (q : List Word) : (s.setInBuffer p q).cache = s.cache := rfl
@[simp] theorem State.setInBuffer_disk (s : State) (p : Nat) (q : List Word) : (s.setInBuffer p q).disk = s.disk := rfl
@[simp] theorem State.setInBuffer_head (s : State) (p : Nat) (q : List Word) : (s.setInBuffer p q).head = s.head := rfl
@[simp] theorem State.setInBuffer_inq (s : State) (p : Nat) (q : List Word) : (s.setInBuffer p q).inq = Cells.write [] s.inq p q := rfl
@[simp] theorem State.setInBuffer_outq (s : State) (p : Nat) (q : List Word) : (s.setInBuffer p q).outq = s.outq := rfl
@[simp] theorem State.setInBuffer_cycles (s : State) (p : Nat) (q : List Word) : (s.setInBuffer p q).cycles = s.cycles := rfl
@[simp] theorem State.setInBuffer_readOps (s : State) (p : Nat) (q : List Word) : (s.setInBuffer p q).readOps = s.readOps := rfl
@[simp] theorem State.setInBuffer_writeOps (s : State) (p : Nat) (q : List Word) : (s.setInBuffer p q).writeOps = s.writeOps := rfl
@[simp] theorem State.setInBuffer_cacheHits (s : State) (p : Nat) (q : List Word) : (s.setInBuffer p q).cacheHits = s.cacheHits := rfl
@[simp] theorem State.setInBuffer_cacheMisses (s : State) (p : Nat) (q : List Word) : (s.setInBuffer p q).cacheMisses = s.cacheMisses := rfl
@[simp] theorem State.setInBuffer_time2 (s : State) (p : Nat) (q : List Word) : (s.setInBuffer p q).time2 = s.time2 := rfl
@[simp] theorem State.setInBuffer_executed (s : State) (p : Nat) (q : List Word) : (s.setInBuffer p q).executed = s.executed := rfl
@[simp] theorem State.setInBuffer_cacheDraws (s : State) (p : Nat) (q : List Word) : (s.setInBuffer p q).cacheDraws = s.cacheDraws := rfl
@[simp] theorem State.setInBuffer_inputDraws (s : State) (p : Nat) (q : List Word) : (s.setInBuffer p q).inputDraws = s.inputDraws := rfl

/-! ### `setOutRecord`: `OUTQ[p] <- q` (R20) -/

@[simp] theorem State.setOutRecord_cfg (s : State) (p : Nat) (q : List Word) : (s.setOutRecord p q).cfg = s.cfg := rfl
@[simp] theorem State.setOutRecord_regs (s : State) (p : Nat) (q : List Word) : (s.setOutRecord p q).regs = s.regs := rfl
@[simp] theorem State.setOutRecord_pc (s : State) (p : Nat) (q : List Word) : (s.setOutRecord p q).pc = s.pc := rfl
@[simp] theorem State.setOutRecord_flags (s : State) (p : Nat) (q : List Word) : (s.setOutRecord p q).flags = s.flags := rfl
@[simp] theorem State.setOutRecord_run (s : State) (p : Nat) (q : List Word) : (s.setOutRecord p q).run = s.run := rfl
@[simp] theorem State.setOutRecord_fault (s : State) (p : Nat) (q : List Word) : (s.setOutRecord p q).fault = s.fault := rfl
@[simp] theorem State.setOutRecord_prog (s : State) (p : Nat) (q : List Word) : (s.setOutRecord p q).prog = s.prog := rfl
@[simp] theorem State.setOutRecord_mem (s : State) (p : Nat) (q : List Word) : (s.setOutRecord p q).mem = s.mem := rfl
@[simp] theorem State.setOutRecord_cache (s : State) (p : Nat) (q : List Word) : (s.setOutRecord p q).cache = s.cache := rfl
@[simp] theorem State.setOutRecord_disk (s : State) (p : Nat) (q : List Word) : (s.setOutRecord p q).disk = s.disk := rfl
@[simp] theorem State.setOutRecord_head (s : State) (p : Nat) (q : List Word) : (s.setOutRecord p q).head = s.head := rfl
@[simp] theorem State.setOutRecord_inq (s : State) (p : Nat) (q : List Word) : (s.setOutRecord p q).inq = s.inq := rfl
@[simp] theorem State.setOutRecord_outq (s : State) (p : Nat) (q : List Word) : (s.setOutRecord p q).outq = Cells.write [] s.outq p q := rfl
@[simp] theorem State.setOutRecord_cycles (s : State) (p : Nat) (q : List Word) : (s.setOutRecord p q).cycles = s.cycles := rfl
@[simp] theorem State.setOutRecord_readOps (s : State) (p : Nat) (q : List Word) : (s.setOutRecord p q).readOps = s.readOps := rfl
@[simp] theorem State.setOutRecord_writeOps (s : State) (p : Nat) (q : List Word) : (s.setOutRecord p q).writeOps = s.writeOps := rfl
@[simp] theorem State.setOutRecord_cacheHits (s : State) (p : Nat) (q : List Word) : (s.setOutRecord p q).cacheHits = s.cacheHits := rfl
@[simp] theorem State.setOutRecord_cacheMisses (s : State) (p : Nat) (q : List Word) : (s.setOutRecord p q).cacheMisses = s.cacheMisses := rfl
@[simp] theorem State.setOutRecord_time2 (s : State) (p : Nat) (q : List Word) : (s.setOutRecord p q).time2 = s.time2 := rfl
@[simp] theorem State.setOutRecord_executed (s : State) (p : Nat) (q : List Word) : (s.setOutRecord p q).executed = s.executed := rfl
@[simp] theorem State.setOutRecord_cacheDraws (s : State) (p : Nat) (q : List Word) : (s.setOutRecord p q).cacheDraws = s.cacheDraws := rfl
@[simp] theorem State.setOutRecord_inputDraws (s : State) (p : Nat) (q : List Word) : (s.setOutRecord p q).inputDraws = s.inputDraws := rfl

/-! ### `countInputDraw`: a draw of `InputDraw` (R25) -/

@[simp] theorem State.countInputDraw_cfg (s : State) : s.countInputDraw.cfg = s.cfg := rfl
@[simp] theorem State.countInputDraw_regs (s : State) : s.countInputDraw.regs = s.regs := rfl
@[simp] theorem State.countInputDraw_pc (s : State) : s.countInputDraw.pc = s.pc := rfl
@[simp] theorem State.countInputDraw_flags (s : State) : s.countInputDraw.flags = s.flags := rfl
@[simp] theorem State.countInputDraw_run (s : State) : s.countInputDraw.run = s.run := rfl
@[simp] theorem State.countInputDraw_fault (s : State) : s.countInputDraw.fault = s.fault := rfl
@[simp] theorem State.countInputDraw_prog (s : State) : s.countInputDraw.prog = s.prog := rfl
@[simp] theorem State.countInputDraw_mem (s : State) : s.countInputDraw.mem = s.mem := rfl
@[simp] theorem State.countInputDraw_cache (s : State) : s.countInputDraw.cache = s.cache := rfl
@[simp] theorem State.countInputDraw_disk (s : State) : s.countInputDraw.disk = s.disk := rfl
@[simp] theorem State.countInputDraw_head (s : State) : s.countInputDraw.head = s.head := rfl
@[simp] theorem State.countInputDraw_inq (s : State) : s.countInputDraw.inq = s.inq := rfl
@[simp] theorem State.countInputDraw_outq (s : State) : s.countInputDraw.outq = s.outq := rfl
@[simp] theorem State.countInputDraw_cycles (s : State) : s.countInputDraw.cycles = s.cycles := rfl
@[simp] theorem State.countInputDraw_readOps (s : State) : s.countInputDraw.readOps = s.readOps := rfl
@[simp] theorem State.countInputDraw_writeOps (s : State) : s.countInputDraw.writeOps = s.writeOps := rfl
@[simp] theorem State.countInputDraw_cacheHits (s : State) : s.countInputDraw.cacheHits = s.cacheHits := rfl
@[simp] theorem State.countInputDraw_cacheMisses (s : State) : s.countInputDraw.cacheMisses = s.cacheMisses := rfl
@[simp] theorem State.countInputDraw_time2 (s : State) : s.countInputDraw.time2 = s.time2 := rfl
@[simp] theorem State.countInputDraw_executed (s : State) : s.countInputDraw.executed = s.executed := rfl
@[simp] theorem State.countInputDraw_cacheDraws (s : State) : s.countInputDraw.cacheDraws = s.cacheDraws := rfl
@[simp] theorem State.countInputDraw_inputDraws (s : State) : s.countInputDraw.inputDraws = s.inputDraws + 1 := rfl

/-! ### `advance`: `pc <- pc + 1` (R77) -/

@[simp] theorem State.advance_cfg (s : State) : s.advance.cfg = s.cfg := rfl
@[simp] theorem State.advance_regs (s : State) : s.advance.regs = s.regs := rfl
@[simp] theorem State.advance_pc (s : State) : s.advance.pc = s.pc + 1 := rfl
@[simp] theorem State.advance_flags (s : State) : s.advance.flags = s.flags := rfl
@[simp] theorem State.advance_run (s : State) : s.advance.run = s.run := rfl
@[simp] theorem State.advance_fault (s : State) : s.advance.fault = s.fault := rfl
@[simp] theorem State.advance_prog (s : State) : s.advance.prog = s.prog := rfl
@[simp] theorem State.advance_mem (s : State) : s.advance.mem = s.mem := rfl
@[simp] theorem State.advance_cache (s : State) : s.advance.cache = s.cache := rfl
@[simp] theorem State.advance_disk (s : State) : s.advance.disk = s.disk := rfl
@[simp] theorem State.advance_head (s : State) : s.advance.head = s.head := rfl
@[simp] theorem State.advance_inq (s : State) : s.advance.inq = s.inq := rfl
@[simp] theorem State.advance_outq (s : State) : s.advance.outq = s.outq := rfl
@[simp] theorem State.advance_cycles (s : State) : s.advance.cycles = s.cycles := rfl
@[simp] theorem State.advance_readOps (s : State) : s.advance.readOps = s.readOps := rfl
@[simp] theorem State.advance_writeOps (s : State) : s.advance.writeOps = s.writeOps := rfl
@[simp] theorem State.advance_cacheHits (s : State) : s.advance.cacheHits = s.cacheHits := rfl
@[simp] theorem State.advance_cacheMisses (s : State) : s.advance.cacheMisses = s.cacheMisses := rfl
@[simp] theorem State.advance_time2 (s : State) : s.advance.time2 = s.time2 := rfl
@[simp] theorem State.advance_executed (s : State) : s.advance.executed = s.executed := rfl
@[simp] theorem State.advance_cacheDraws (s : State) : s.advance.cacheDraws = s.cacheDraws := rfl
@[simp] theorem State.advance_inputDraws (s : State) : s.advance.inputDraws = s.inputDraws := rfl

/-! ### `jumpTo`: `pc <- t` (R101) -/

@[simp] theorem State.jumpTo_cfg (s : State) (t : BitVec 32) : (s.jumpTo t).cfg = s.cfg := rfl
@[simp] theorem State.jumpTo_regs (s : State) (t : BitVec 32) : (s.jumpTo t).regs = s.regs := rfl
@[simp] theorem State.jumpTo_pc (s : State) (t : BitVec 32) : (s.jumpTo t).pc = t := rfl
@[simp] theorem State.jumpTo_flags (s : State) (t : BitVec 32) : (s.jumpTo t).flags = s.flags := rfl
@[simp] theorem State.jumpTo_run (s : State) (t : BitVec 32) : (s.jumpTo t).run = s.run := rfl
@[simp] theorem State.jumpTo_fault (s : State) (t : BitVec 32) : (s.jumpTo t).fault = s.fault := rfl
@[simp] theorem State.jumpTo_prog (s : State) (t : BitVec 32) : (s.jumpTo t).prog = s.prog := rfl
@[simp] theorem State.jumpTo_mem (s : State) (t : BitVec 32) : (s.jumpTo t).mem = s.mem := rfl
@[simp] theorem State.jumpTo_cache (s : State) (t : BitVec 32) : (s.jumpTo t).cache = s.cache := rfl
@[simp] theorem State.jumpTo_disk (s : State) (t : BitVec 32) : (s.jumpTo t).disk = s.disk := rfl
@[simp] theorem State.jumpTo_head (s : State) (t : BitVec 32) : (s.jumpTo t).head = s.head := rfl
@[simp] theorem State.jumpTo_inq (s : State) (t : BitVec 32) : (s.jumpTo t).inq = s.inq := rfl
@[simp] theorem State.jumpTo_outq (s : State) (t : BitVec 32) : (s.jumpTo t).outq = s.outq := rfl
@[simp] theorem State.jumpTo_cycles (s : State) (t : BitVec 32) : (s.jumpTo t).cycles = s.cycles := rfl
@[simp] theorem State.jumpTo_readOps (s : State) (t : BitVec 32) : (s.jumpTo t).readOps = s.readOps := rfl
@[simp] theorem State.jumpTo_writeOps (s : State) (t : BitVec 32) : (s.jumpTo t).writeOps = s.writeOps := rfl
@[simp] theorem State.jumpTo_cacheHits (s : State) (t : BitVec 32) : (s.jumpTo t).cacheHits = s.cacheHits := rfl
@[simp] theorem State.jumpTo_cacheMisses (s : State) (t : BitVec 32) : (s.jumpTo t).cacheMisses = s.cacheMisses := rfl
@[simp] theorem State.jumpTo_time2 (s : State) (t : BitVec 32) : (s.jumpTo t).time2 = s.time2 := rfl
@[simp] theorem State.jumpTo_executed (s : State) (t : BitVec 32) : (s.jumpTo t).executed = s.executed := rfl
@[simp] theorem State.jumpTo_cacheDraws (s : State) (t : BitVec 32) : (s.jumpTo t).cacheDraws = s.cacheDraws := rfl
@[simp] theorem State.jumpTo_inputDraws (s : State) (t : BitVec 32) : (s.jumpTo t).inputDraws = s.inputDraws := rfl

/-! ### `setFlags`: the flags of CMP (R100) -/

@[simp] theorem State.setFlags_cfg (s : State) (f : Flags) : (s.setFlags f).cfg = s.cfg := rfl
@[simp] theorem State.setFlags_regs (s : State) (f : Flags) : (s.setFlags f).regs = s.regs := rfl
@[simp] theorem State.setFlags_pc (s : State) (f : Flags) : (s.setFlags f).pc = s.pc := rfl
@[simp] theorem State.setFlags_flags (s : State) (f : Flags) : (s.setFlags f).flags = f := rfl
@[simp] theorem State.setFlags_run (s : State) (f : Flags) : (s.setFlags f).run = s.run := rfl
@[simp] theorem State.setFlags_fault (s : State) (f : Flags) : (s.setFlags f).fault = s.fault := rfl
@[simp] theorem State.setFlags_prog (s : State) (f : Flags) : (s.setFlags f).prog = s.prog := rfl
@[simp] theorem State.setFlags_mem (s : State) (f : Flags) : (s.setFlags f).mem = s.mem := rfl
@[simp] theorem State.setFlags_cache (s : State) (f : Flags) : (s.setFlags f).cache = s.cache := rfl
@[simp] theorem State.setFlags_disk (s : State) (f : Flags) : (s.setFlags f).disk = s.disk := rfl
@[simp] theorem State.setFlags_head (s : State) (f : Flags) : (s.setFlags f).head = s.head := rfl
@[simp] theorem State.setFlags_inq (s : State) (f : Flags) : (s.setFlags f).inq = s.inq := rfl
@[simp] theorem State.setFlags_outq (s : State) (f : Flags) : (s.setFlags f).outq = s.outq := rfl
@[simp] theorem State.setFlags_cycles (s : State) (f : Flags) : (s.setFlags f).cycles = s.cycles := rfl
@[simp] theorem State.setFlags_readOps (s : State) (f : Flags) : (s.setFlags f).readOps = s.readOps := rfl
@[simp] theorem State.setFlags_writeOps (s : State) (f : Flags) : (s.setFlags f).writeOps = s.writeOps := rfl
@[simp] theorem State.setFlags_cacheHits (s : State) (f : Flags) : (s.setFlags f).cacheHits = s.cacheHits := rfl
@[simp] theorem State.setFlags_cacheMisses (s : State) (f : Flags) : (s.setFlags f).cacheMisses = s.cacheMisses := rfl
@[simp] theorem State.setFlags_time2 (s : State) (f : Flags) : (s.setFlags f).time2 = s.time2 := rfl
@[simp] theorem State.setFlags_executed (s : State) (f : Flags) : (s.setFlags f).executed = s.executed := rfl
@[simp] theorem State.setFlags_cacheDraws (s : State) (f : Flags) : (s.setFlags f).cacheDraws = s.cacheDraws := rfl
@[simp] theorem State.setFlags_inputDraws (s : State) (f : Flags) : (s.setFlags f).inputDraws = s.inputDraws := rfl

/-! ### `chargeRead`: a read operation and its cost (R166) -/

@[simp] theorem State.chargeRead_cfg (s : State) (c : Nat) : (s.chargeRead c).cfg = s.cfg := rfl
@[simp] theorem State.chargeRead_regs (s : State) (c : Nat) : (s.chargeRead c).regs = s.regs := rfl
@[simp] theorem State.chargeRead_pc (s : State) (c : Nat) : (s.chargeRead c).pc = s.pc := rfl
@[simp] theorem State.chargeRead_flags (s : State) (c : Nat) : (s.chargeRead c).flags = s.flags := rfl
@[simp] theorem State.chargeRead_run (s : State) (c : Nat) : (s.chargeRead c).run = s.run := rfl
@[simp] theorem State.chargeRead_fault (s : State) (c : Nat) : (s.chargeRead c).fault = s.fault := rfl
@[simp] theorem State.chargeRead_prog (s : State) (c : Nat) : (s.chargeRead c).prog = s.prog := rfl
@[simp] theorem State.chargeRead_mem (s : State) (c : Nat) : (s.chargeRead c).mem = s.mem := rfl
@[simp] theorem State.chargeRead_cache (s : State) (c : Nat) : (s.chargeRead c).cache = s.cache := rfl
@[simp] theorem State.chargeRead_disk (s : State) (c : Nat) : (s.chargeRead c).disk = s.disk := rfl
@[simp] theorem State.chargeRead_head (s : State) (c : Nat) : (s.chargeRead c).head = s.head := rfl
@[simp] theorem State.chargeRead_inq (s : State) (c : Nat) : (s.chargeRead c).inq = s.inq := rfl
@[simp] theorem State.chargeRead_outq (s : State) (c : Nat) : (s.chargeRead c).outq = s.outq := rfl
@[simp] theorem State.chargeRead_cycles (s : State) (c : Nat) : (s.chargeRead c).cycles = s.cycles := rfl
@[simp] theorem State.chargeRead_readOps (s : State) (c : Nat) : (s.chargeRead c).readOps = s.readOps + 1 := rfl
@[simp] theorem State.chargeRead_writeOps (s : State) (c : Nat) : (s.chargeRead c).writeOps = s.writeOps := rfl
@[simp] theorem State.chargeRead_cacheHits (s : State) (c : Nat) : (s.chargeRead c).cacheHits = s.cacheHits := rfl
@[simp] theorem State.chargeRead_cacheMisses (s : State) (c : Nat) : (s.chargeRead c).cacheMisses = s.cacheMisses := rfl
@[simp] theorem State.chargeRead_time2 (s : State) (c : Nat) : (s.chargeRead c).time2 = s.time2 + BitVec.ofNat 64 c := rfl
@[simp] theorem State.chargeRead_executed (s : State) (c : Nat) : (s.chargeRead c).executed = s.executed := rfl
@[simp] theorem State.chargeRead_cacheDraws (s : State) (c : Nat) : (s.chargeRead c).cacheDraws = s.cacheDraws := rfl
@[simp] theorem State.chargeRead_inputDraws (s : State) (c : Nat) : (s.chargeRead c).inputDraws = s.inputDraws := rfl

/-! ### `chargeWrite`: a write operation and its cost (R166) -/

@[simp] theorem State.chargeWrite_cfg (s : State) (c : Nat) : (s.chargeWrite c).cfg = s.cfg := rfl
@[simp] theorem State.chargeWrite_regs (s : State) (c : Nat) : (s.chargeWrite c).regs = s.regs := rfl
@[simp] theorem State.chargeWrite_pc (s : State) (c : Nat) : (s.chargeWrite c).pc = s.pc := rfl
@[simp] theorem State.chargeWrite_flags (s : State) (c : Nat) : (s.chargeWrite c).flags = s.flags := rfl
@[simp] theorem State.chargeWrite_run (s : State) (c : Nat) : (s.chargeWrite c).run = s.run := rfl
@[simp] theorem State.chargeWrite_fault (s : State) (c : Nat) : (s.chargeWrite c).fault = s.fault := rfl
@[simp] theorem State.chargeWrite_prog (s : State) (c : Nat) : (s.chargeWrite c).prog = s.prog := rfl
@[simp] theorem State.chargeWrite_mem (s : State) (c : Nat) : (s.chargeWrite c).mem = s.mem := rfl
@[simp] theorem State.chargeWrite_cache (s : State) (c : Nat) : (s.chargeWrite c).cache = s.cache := rfl
@[simp] theorem State.chargeWrite_disk (s : State) (c : Nat) : (s.chargeWrite c).disk = s.disk := rfl
@[simp] theorem State.chargeWrite_head (s : State) (c : Nat) : (s.chargeWrite c).head = s.head := rfl
@[simp] theorem State.chargeWrite_inq (s : State) (c : Nat) : (s.chargeWrite c).inq = s.inq := rfl
@[simp] theorem State.chargeWrite_outq (s : State) (c : Nat) : (s.chargeWrite c).outq = s.outq := rfl
@[simp] theorem State.chargeWrite_cycles (s : State) (c : Nat) : (s.chargeWrite c).cycles = s.cycles := rfl
@[simp] theorem State.chargeWrite_readOps (s : State) (c : Nat) : (s.chargeWrite c).readOps = s.readOps := rfl
@[simp] theorem State.chargeWrite_writeOps (s : State) (c : Nat) : (s.chargeWrite c).writeOps = s.writeOps + 1 := rfl
@[simp] theorem State.chargeWrite_cacheHits (s : State) (c : Nat) : (s.chargeWrite c).cacheHits = s.cacheHits := rfl
@[simp] theorem State.chargeWrite_cacheMisses (s : State) (c : Nat) : (s.chargeWrite c).cacheMisses = s.cacheMisses := rfl
@[simp] theorem State.chargeWrite_time2 (s : State) (c : Nat) : (s.chargeWrite c).time2 = s.time2 + BitVec.ofNat 64 c := rfl
@[simp] theorem State.chargeWrite_executed (s : State) (c : Nat) : (s.chargeWrite c).executed = s.executed := rfl
@[simp] theorem State.chargeWrite_cacheDraws (s : State) (c : Nat) : (s.chargeWrite c).cacheDraws = s.cacheDraws := rfl
@[simp] theorem State.chargeWrite_inputDraws (s : State) (c : Nat) : (s.chargeWrite c).inputDraws = s.inputDraws := rfl

/-! ### `chargeTime`: a cost (R166) -/

@[simp] theorem State.chargeTime_cfg (s : State) (c : Nat) : (s.chargeTime c).cfg = s.cfg := rfl
@[simp] theorem State.chargeTime_regs (s : State) (c : Nat) : (s.chargeTime c).regs = s.regs := rfl
@[simp] theorem State.chargeTime_pc (s : State) (c : Nat) : (s.chargeTime c).pc = s.pc := rfl
@[simp] theorem State.chargeTime_flags (s : State) (c : Nat) : (s.chargeTime c).flags = s.flags := rfl
@[simp] theorem State.chargeTime_run (s : State) (c : Nat) : (s.chargeTime c).run = s.run := rfl
@[simp] theorem State.chargeTime_fault (s : State) (c : Nat) : (s.chargeTime c).fault = s.fault := rfl
@[simp] theorem State.chargeTime_prog (s : State) (c : Nat) : (s.chargeTime c).prog = s.prog := rfl
@[simp] theorem State.chargeTime_mem (s : State) (c : Nat) : (s.chargeTime c).mem = s.mem := rfl
@[simp] theorem State.chargeTime_cache (s : State) (c : Nat) : (s.chargeTime c).cache = s.cache := rfl
@[simp] theorem State.chargeTime_disk (s : State) (c : Nat) : (s.chargeTime c).disk = s.disk := rfl
@[simp] theorem State.chargeTime_head (s : State) (c : Nat) : (s.chargeTime c).head = s.head := rfl
@[simp] theorem State.chargeTime_inq (s : State) (c : Nat) : (s.chargeTime c).inq = s.inq := rfl
@[simp] theorem State.chargeTime_outq (s : State) (c : Nat) : (s.chargeTime c).outq = s.outq := rfl
@[simp] theorem State.chargeTime_cycles (s : State) (c : Nat) : (s.chargeTime c).cycles = s.cycles := rfl
@[simp] theorem State.chargeTime_readOps (s : State) (c : Nat) : (s.chargeTime c).readOps = s.readOps := rfl
@[simp] theorem State.chargeTime_writeOps (s : State) (c : Nat) : (s.chargeTime c).writeOps = s.writeOps := rfl
@[simp] theorem State.chargeTime_cacheHits (s : State) (c : Nat) : (s.chargeTime c).cacheHits = s.cacheHits := rfl
@[simp] theorem State.chargeTime_cacheMisses (s : State) (c : Nat) : (s.chargeTime c).cacheMisses = s.cacheMisses := rfl
@[simp] theorem State.chargeTime_time2 (s : State) (c : Nat) : (s.chargeTime c).time2 = s.time2 + BitVec.ofNat 64 c := rfl
@[simp] theorem State.chargeTime_executed (s : State) (c : Nat) : (s.chargeTime c).executed = s.executed := rfl
@[simp] theorem State.chargeTime_cacheDraws (s : State) (c : Nat) : (s.chargeTime c).cacheDraws = s.cacheDraws := rfl
@[simp] theorem State.chargeTime_inputDraws (s : State) (c : Nat) : (s.chargeTime c).inputDraws = s.inputDraws := rfl

/-! ### `retire`: the bookkeeping of a completed instruction (R78) -/

@[simp] theorem State.retire_cfg (s : State) (o : BitVec 8) : (s.retire o).cfg = s.cfg := rfl
@[simp] theorem State.retire_regs (s : State) (o : BitVec 8) : (s.retire o).regs = s.regs := rfl
@[simp] theorem State.retire_pc (s : State) (o : BitVec 8) : (s.retire o).pc = s.pc := rfl
@[simp] theorem State.retire_flags (s : State) (o : BitVec 8) : (s.retire o).flags = s.flags := rfl
@[simp] theorem State.retire_run (s : State) (o : BitVec 8) : (s.retire o).run = s.run := rfl
@[simp] theorem State.retire_fault (s : State) (o : BitVec 8) : (s.retire o).fault = s.fault := rfl
@[simp] theorem State.retire_prog (s : State) (o : BitVec 8) : (s.retire o).prog = s.prog := rfl
@[simp] theorem State.retire_mem (s : State) (o : BitVec 8) : (s.retire o).mem = s.mem := rfl
@[simp] theorem State.retire_cache (s : State) (o : BitVec 8) : (s.retire o).cache = s.cache := rfl
@[simp] theorem State.retire_disk (s : State) (o : BitVec 8) : (s.retire o).disk = s.disk := rfl
@[simp] theorem State.retire_head (s : State) (o : BitVec 8) : (s.retire o).head = s.head := rfl
@[simp] theorem State.retire_inq (s : State) (o : BitVec 8) : (s.retire o).inq = s.inq := rfl
@[simp] theorem State.retire_outq (s : State) (o : BitVec 8) : (s.retire o).outq = s.outq := rfl
@[simp] theorem State.retire_cycles (s : State) (o : BitVec 8) : (s.retire o).cycles = s.cycles + 1 := rfl
@[simp] theorem State.retire_readOps (s : State) (o : BitVec 8) : (s.retire o).readOps = s.readOps := rfl
@[simp] theorem State.retire_writeOps (s : State) (o : BitVec 8) : (s.retire o).writeOps = s.writeOps := rfl
@[simp] theorem State.retire_cacheHits (s : State) (o : BitVec 8) : (s.retire o).cacheHits = s.cacheHits := rfl
@[simp] theorem State.retire_cacheMisses (s : State) (o : BitVec 8) : (s.retire o).cacheMisses = s.cacheMisses := rfl
@[simp] theorem State.retire_time2 (s : State) (o : BitVec 8) : (s.retire o).time2 = s.time2 := rfl
@[simp] theorem State.retire_executed (s : State) (o : BitVec 8) : (s.retire o).executed = s.executed ||| (1 : BitVec 32) <<< o.toNat := rfl
@[simp] theorem State.retire_cacheDraws (s : State) (o : BitVec 8) : (s.retire o).cacheDraws = s.cacheDraws := rfl
@[simp] theorem State.retire_inputDraws (s : State) (o : BitVec 8) : (s.retire o).inputDraws = s.inputDraws := rfl

/-! ### `markCompleted`: the end of a run (R74) -/

@[simp] theorem State.markCompleted_cfg (s : State) : s.markCompleted.cfg = s.cfg := rfl
@[simp] theorem State.markCompleted_regs (s : State) : s.markCompleted.regs = s.regs := rfl
@[simp] theorem State.markCompleted_pc (s : State) : s.markCompleted.pc = s.pc := rfl
@[simp] theorem State.markCompleted_flags (s : State) : s.markCompleted.flags = s.flags := rfl
@[simp] theorem State.markCompleted_run (s : State) : s.markCompleted.run = .completed := rfl
@[simp] theorem State.markCompleted_fault (s : State) : s.markCompleted.fault = s.fault := rfl
@[simp] theorem State.markCompleted_prog (s : State) : s.markCompleted.prog = s.prog := rfl
@[simp] theorem State.markCompleted_mem (s : State) : s.markCompleted.mem = s.mem := rfl
@[simp] theorem State.markCompleted_cache (s : State) : s.markCompleted.cache = s.cache := rfl
@[simp] theorem State.markCompleted_disk (s : State) : s.markCompleted.disk = s.disk := rfl
@[simp] theorem State.markCompleted_head (s : State) : s.markCompleted.head = s.head := rfl
@[simp] theorem State.markCompleted_inq (s : State) : s.markCompleted.inq = s.inq := rfl
@[simp] theorem State.markCompleted_outq (s : State) : s.markCompleted.outq = s.outq := rfl
@[simp] theorem State.markCompleted_cycles (s : State) : s.markCompleted.cycles = s.cycles := rfl
@[simp] theorem State.markCompleted_readOps (s : State) : s.markCompleted.readOps = s.readOps := rfl
@[simp] theorem State.markCompleted_writeOps (s : State) : s.markCompleted.writeOps = s.writeOps := rfl
@[simp] theorem State.markCompleted_cacheHits (s : State) : s.markCompleted.cacheHits = s.cacheHits := rfl
@[simp] theorem State.markCompleted_cacheMisses (s : State) : s.markCompleted.cacheMisses = s.cacheMisses := rfl
@[simp] theorem State.markCompleted_time2 (s : State) : s.markCompleted.time2 = s.time2 := rfl
@[simp] theorem State.markCompleted_executed (s : State) : s.markCompleted.executed = s.executed := rfl
@[simp] theorem State.markCompleted_cacheDraws (s : State) : s.markCompleted.cacheDraws = s.cacheDraws := rfl
@[simp] theorem State.markCompleted_inputDraws (s : State) : s.markCompleted.inputDraws = s.inputDraws := rfl

/-! ### `takeFault`: fault entry (R147) -/

@[simp] theorem State.takeFault_cfg (s : State) (k : FaultKind) : (s.takeFault k).cfg = s.cfg := rfl
@[simp] theorem State.takeFault_regs (s : State) (k : FaultKind) : (s.takeFault k).regs = s.regs := rfl
@[simp] theorem State.takeFault_pc (s : State) (k : FaultKind) : (s.takeFault k).pc = s.pc := rfl
@[simp] theorem State.takeFault_flags (s : State) (k : FaultKind) : (s.takeFault k).flags = s.flags := rfl
@[simp] theorem State.takeFault_run (s : State) (k : FaultKind) : (s.takeFault k).run = .faulted := rfl
@[simp] theorem State.takeFault_fault (s : State) (k : FaultKind) : (s.takeFault k).fault = ⟨k, s.pc + 1⟩ := rfl
@[simp] theorem State.takeFault_prog (s : State) (k : FaultKind) : (s.takeFault k).prog = s.prog := rfl
@[simp] theorem State.takeFault_mem (s : State) (k : FaultKind) : (s.takeFault k).mem = s.mem := rfl
@[simp] theorem State.takeFault_cache (s : State) (k : FaultKind) : (s.takeFault k).cache = s.cache := rfl
@[simp] theorem State.takeFault_disk (s : State) (k : FaultKind) : (s.takeFault k).disk = s.disk := rfl
@[simp] theorem State.takeFault_head (s : State) (k : FaultKind) : (s.takeFault k).head = s.head := rfl
@[simp] theorem State.takeFault_inq (s : State) (k : FaultKind) : (s.takeFault k).inq = s.inq := rfl
@[simp] theorem State.takeFault_outq (s : State) (k : FaultKind) : (s.takeFault k).outq = s.outq := rfl
@[simp] theorem State.takeFault_cycles (s : State) (k : FaultKind) : (s.takeFault k).cycles = s.cycles := rfl
@[simp] theorem State.takeFault_readOps (s : State) (k : FaultKind) : (s.takeFault k).readOps = s.readOps := rfl
@[simp] theorem State.takeFault_writeOps (s : State) (k : FaultKind) : (s.takeFault k).writeOps = s.writeOps := rfl
@[simp] theorem State.takeFault_cacheHits (s : State) (k : FaultKind) : (s.takeFault k).cacheHits = s.cacheHits := rfl
@[simp] theorem State.takeFault_cacheMisses (s : State) (k : FaultKind) : (s.takeFault k).cacheMisses = s.cacheMisses := rfl
@[simp] theorem State.takeFault_time2 (s : State) (k : FaultKind) : (s.takeFault k).time2 = s.time2 := rfl
@[simp] theorem State.takeFault_executed (s : State) (k : FaultKind) : (s.takeFault k).executed = s.executed := rfl
@[simp] theorem State.takeFault_cacheDraws (s : State) (k : FaultKind) : (s.takeFault k).cacheDraws = s.cacheDraws := rfl
@[simp] theorem State.takeFault_inputDraws (s : State) (k : FaultKind) : (s.takeFault k).inputDraws = s.inputDraws := rfl

/-! ### `countHit`: a cache hit (R37) -/

@[simp] theorem State.countHit_cfg (s : State) : s.countHit.cfg = s.cfg := rfl
@[simp] theorem State.countHit_regs (s : State) : s.countHit.regs = s.regs := rfl
@[simp] theorem State.countHit_pc (s : State) : s.countHit.pc = s.pc := rfl
@[simp] theorem State.countHit_flags (s : State) : s.countHit.flags = s.flags := rfl
@[simp] theorem State.countHit_run (s : State) : s.countHit.run = s.run := rfl
@[simp] theorem State.countHit_fault (s : State) : s.countHit.fault = s.fault := rfl
@[simp] theorem State.countHit_prog (s : State) : s.countHit.prog = s.prog := rfl
@[simp] theorem State.countHit_mem (s : State) : s.countHit.mem = s.mem := rfl
@[simp] theorem State.countHit_cache (s : State) : s.countHit.cache = s.cache := rfl
@[simp] theorem State.countHit_disk (s : State) : s.countHit.disk = s.disk := rfl
@[simp] theorem State.countHit_head (s : State) : s.countHit.head = s.head := rfl
@[simp] theorem State.countHit_inq (s : State) : s.countHit.inq = s.inq := rfl
@[simp] theorem State.countHit_outq (s : State) : s.countHit.outq = s.outq := rfl
@[simp] theorem State.countHit_cycles (s : State) : s.countHit.cycles = s.cycles := rfl
@[simp] theorem State.countHit_readOps (s : State) : s.countHit.readOps = s.readOps := rfl
@[simp] theorem State.countHit_writeOps (s : State) : s.countHit.writeOps = s.writeOps := rfl
@[simp] theorem State.countHit_cacheHits (s : State) : s.countHit.cacheHits = s.cacheHits + 1 := rfl
@[simp] theorem State.countHit_cacheMisses (s : State) : s.countHit.cacheMisses = s.cacheMisses := rfl
@[simp] theorem State.countHit_time2 (s : State) : s.countHit.time2 = s.time2 + BitVec.ofNat 64 Config.tHit2 := rfl
@[simp] theorem State.countHit_executed (s : State) : s.countHit.executed = s.executed := rfl
@[simp] theorem State.countHit_cacheDraws (s : State) : s.countHit.cacheDraws = s.cacheDraws := rfl
@[simp] theorem State.countHit_inputDraws (s : State) : s.countHit.inputDraws = s.inputDraws := rfl

/-! ### `fillMiss`: a cache miss (R37) -/

@[simp] theorem State.fillMiss_cfg (s : State) (k v : Word) : (s.fillMiss k v).cfg = s.cfg := rfl
@[simp] theorem State.fillMiss_regs (s : State) (k v : Word) : (s.fillMiss k v).regs = s.regs := rfl
@[simp] theorem State.fillMiss_pc (s : State) (k v : Word) : (s.fillMiss k v).pc = s.pc := rfl
@[simp] theorem State.fillMiss_flags (s : State) (k v : Word) : (s.fillMiss k v).flags = s.flags := rfl
@[simp] theorem State.fillMiss_run (s : State) (k v : Word) : (s.fillMiss k v).run = s.run := rfl
@[simp] theorem State.fillMiss_fault (s : State) (k v : Word) : (s.fillMiss k v).fault = s.fault := rfl
@[simp] theorem State.fillMiss_prog (s : State) (k v : Word) : (s.fillMiss k v).prog = s.prog := rfl
@[simp] theorem State.fillMiss_mem (s : State) (k v : Word) : (s.fillMiss k v).mem = s.mem := rfl
@[simp] theorem State.fillMiss_cache (s : State) (k v : Word) : (s.fillMiss k v).cache = Cells.insert s.cache k.toNat v := rfl
@[simp] theorem State.fillMiss_disk (s : State) (k v : Word) : (s.fillMiss k v).disk = s.disk := rfl
@[simp] theorem State.fillMiss_head (s : State) (k v : Word) : (s.fillMiss k v).head = s.head := rfl
@[simp] theorem State.fillMiss_inq (s : State) (k v : Word) : (s.fillMiss k v).inq = s.inq := rfl
@[simp] theorem State.fillMiss_outq (s : State) (k v : Word) : (s.fillMiss k v).outq = s.outq := rfl
@[simp] theorem State.fillMiss_cycles (s : State) (k v : Word) : (s.fillMiss k v).cycles = s.cycles := rfl
@[simp] theorem State.fillMiss_readOps (s : State) (k v : Word) : (s.fillMiss k v).readOps = s.readOps + 1 := rfl
@[simp] theorem State.fillMiss_writeOps (s : State) (k v : Word) : (s.fillMiss k v).writeOps = s.writeOps := rfl
@[simp] theorem State.fillMiss_cacheHits (s : State) (k v : Word) : (s.fillMiss k v).cacheHits = s.cacheHits := rfl
@[simp] theorem State.fillMiss_cacheMisses (s : State) (k v : Word) : (s.fillMiss k v).cacheMisses = s.cacheMisses + 1 := rfl
@[simp] theorem State.fillMiss_time2 (s : State) (k v : Word) : (s.fillMiss k v).time2 = s.time2 + BitVec.ofNat 64 Config.tMiss2 := rfl
@[simp] theorem State.fillMiss_executed (s : State) (k v : Word) : (s.fillMiss k v).executed = s.executed := rfl
@[simp] theorem State.fillMiss_cacheDraws (s : State) (k v : Word) : (s.fillMiss k v).cacheDraws = s.cacheDraws + 1 := rfl
@[simp] theorem State.fillMiss_inputDraws (s : State) (k v : Word) : (s.fillMiss k v).inputDraws = s.inputDraws := rfl

/-! ### `flushCache`: `CacheFlush` (R37) -/

@[simp] theorem State.flushCache_cfg (s : State) : s.flushCache.cfg = s.cfg := rfl
@[simp] theorem State.flushCache_regs (s : State) : s.flushCache.regs = s.regs := rfl
@[simp] theorem State.flushCache_pc (s : State) : s.flushCache.pc = s.pc := rfl
@[simp] theorem State.flushCache_flags (s : State) : s.flushCache.flags = s.flags := rfl
@[simp] theorem State.flushCache_run (s : State) : s.flushCache.run = s.run := rfl
@[simp] theorem State.flushCache_fault (s : State) : s.flushCache.fault = s.fault := rfl
@[simp] theorem State.flushCache_prog (s : State) : s.flushCache.prog = s.prog := rfl
@[simp] theorem State.flushCache_mem (s : State) : s.flushCache.mem = s.mem := rfl
@[simp] theorem State.flushCache_cache (s : State) : s.flushCache.cache = [] := rfl
@[simp] theorem State.flushCache_disk (s : State) : s.flushCache.disk = s.disk := rfl
@[simp] theorem State.flushCache_head (s : State) : s.flushCache.head = s.head := rfl
@[simp] theorem State.flushCache_inq (s : State) : s.flushCache.inq = s.inq := rfl
@[simp] theorem State.flushCache_outq (s : State) : s.flushCache.outq = s.outq := rfl
@[simp] theorem State.flushCache_cycles (s : State) : s.flushCache.cycles = s.cycles := rfl
@[simp] theorem State.flushCache_readOps (s : State) : s.flushCache.readOps = s.readOps := rfl
@[simp] theorem State.flushCache_writeOps (s : State) : s.flushCache.writeOps = s.writeOps := rfl
@[simp] theorem State.flushCache_cacheHits (s : State) : s.flushCache.cacheHits = s.cacheHits := rfl
@[simp] theorem State.flushCache_cacheMisses (s : State) : s.flushCache.cacheMisses = s.cacheMisses := rfl
@[simp] theorem State.flushCache_time2 (s : State) : s.flushCache.time2 = s.time2 := rfl
@[simp] theorem State.flushCache_executed (s : State) : s.flushCache.executed = s.executed := rfl
@[simp] theorem State.flushCache_cacheDraws (s : State) : s.flushCache.cacheDraws = s.cacheDraws := rfl
@[simp] theorem State.flushCache_inputDraws (s : State) : s.flushCache.inputDraws = s.inputDraws := rfl

/-! ### `invalidate`: `CacheInvalidate` (R37) -/

@[simp] theorem State.invalidate_cfg (s : State) (k : Word) : (s.invalidate k).cfg = s.cfg := rfl
@[simp] theorem State.invalidate_regs (s : State) (k : Word) : (s.invalidate k).regs = s.regs := rfl
@[simp] theorem State.invalidate_pc (s : State) (k : Word) : (s.invalidate k).pc = s.pc := rfl
@[simp] theorem State.invalidate_flags (s : State) (k : Word) : (s.invalidate k).flags = s.flags := rfl
@[simp] theorem State.invalidate_run (s : State) (k : Word) : (s.invalidate k).run = s.run := rfl
@[simp] theorem State.invalidate_fault (s : State) (k : Word) : (s.invalidate k).fault = s.fault := rfl
@[simp] theorem State.invalidate_prog (s : State) (k : Word) : (s.invalidate k).prog = s.prog := rfl
@[simp] theorem State.invalidate_mem (s : State) (k : Word) : (s.invalidate k).mem = s.mem := rfl
@[simp] theorem State.invalidate_cache (s : State) (k : Word) : (s.invalidate k).cache = Cells.erase s.cache k.toNat := rfl
@[simp] theorem State.invalidate_disk (s : State) (k : Word) : (s.invalidate k).disk = s.disk := rfl
@[simp] theorem State.invalidate_head (s : State) (k : Word) : (s.invalidate k).head = s.head := rfl
@[simp] theorem State.invalidate_inq (s : State) (k : Word) : (s.invalidate k).inq = s.inq := rfl
@[simp] theorem State.invalidate_outq (s : State) (k : Word) : (s.invalidate k).outq = s.outq := rfl
@[simp] theorem State.invalidate_cycles (s : State) (k : Word) : (s.invalidate k).cycles = s.cycles := rfl
@[simp] theorem State.invalidate_readOps (s : State) (k : Word) : (s.invalidate k).readOps = s.readOps := rfl
@[simp] theorem State.invalidate_writeOps (s : State) (k : Word) : (s.invalidate k).writeOps = s.writeOps := rfl
@[simp] theorem State.invalidate_cacheHits (s : State) (k : Word) : (s.invalidate k).cacheHits = s.cacheHits := rfl
@[simp] theorem State.invalidate_cacheMisses (s : State) (k : Word) : (s.invalidate k).cacheMisses = s.cacheMisses := rfl
@[simp] theorem State.invalidate_time2 (s : State) (k : Word) : (s.invalidate k).time2 = s.time2 := rfl
@[simp] theorem State.invalidate_executed (s : State) (k : Word) : (s.invalidate k).executed = s.executed := rfl
@[simp] theorem State.invalidate_cacheDraws (s : State) (k : Word) : (s.invalidate k).cacheDraws = s.cacheDraws := rfl
@[simp] theorem State.invalidate_inputDraws (s : State) (k : Word) : (s.invalidate k).inputDraws = s.inputDraws := rfl

/-! ### `portOut`: the output half of OUT (R131) -/

@[simp] theorem State.portOut_cfg (s : State) (p : Nat) (v : Word) : (s.portOut p v).cfg = s.cfg := rfl
@[simp] theorem State.portOut_regs (s : State) (p : Nat) (v : Word) : (s.portOut p v).regs = s.regs := rfl
@[simp] theorem State.portOut_pc (s : State) (p : Nat) (v : Word) : (s.portOut p v).pc = s.pc := rfl
@[simp] theorem State.portOut_flags (s : State) (p : Nat) (v : Word) : (s.portOut p v).flags = s.flags := rfl
@[simp] theorem State.portOut_run (s : State) (p : Nat) (v : Word) : (s.portOut p v).run = s.run := rfl
@[simp] theorem State.portOut_fault (s : State) (p : Nat) (v : Word) : (s.portOut p v).fault = s.fault := rfl
@[simp] theorem State.portOut_prog (s : State) (p : Nat) (v : Word) : (s.portOut p v).prog = s.prog := rfl
@[simp] theorem State.portOut_mem (s : State) (p : Nat) (v : Word) : (s.portOut p v).mem = s.mem := rfl
@[simp] theorem State.portOut_cache (s : State) (p : Nat) (v : Word) : (s.portOut p v).cache = s.cache := rfl
@[simp] theorem State.portOut_disk (s : State) (p : Nat) (v : Word) : (s.portOut p v).disk = s.disk := rfl
@[simp] theorem State.portOut_head (s : State) (p : Nat) (v : Word) : (s.portOut p v).head = s.head := rfl
@[simp] theorem State.portOut_inq (s : State) (p : Nat) (v : Word) : (s.portOut p v).inq = s.inq := rfl
@[simp] theorem State.portOut_outq (s : State) (p : Nat) (v : Word) : (s.portOut p v).outq = Cells.write [] s.outq p (s.outRecord p ++ [v]) := rfl
@[simp] theorem State.portOut_cycles (s : State) (p : Nat) (v : Word) : (s.portOut p v).cycles = s.cycles := rfl
@[simp] theorem State.portOut_readOps (s : State) (p : Nat) (v : Word) : (s.portOut p v).readOps = s.readOps := rfl
@[simp] theorem State.portOut_writeOps (s : State) (p : Nat) (v : Word) : (s.portOut p v).writeOps = s.writeOps := rfl
@[simp] theorem State.portOut_cacheHits (s : State) (p : Nat) (v : Word) : (s.portOut p v).cacheHits = s.cacheHits := rfl
@[simp] theorem State.portOut_cacheMisses (s : State) (p : Nat) (v : Word) : (s.portOut p v).cacheMisses = s.cacheMisses := rfl
@[simp] theorem State.portOut_time2 (s : State) (p : Nat) (v : Word) : (s.portOut p v).time2 = s.time2 := rfl
@[simp] theorem State.portOut_executed (s : State) (p : Nat) (v : Word) : (s.portOut p v).executed = s.executed := rfl
@[simp] theorem State.portOut_cacheDraws (s : State) (p : Nat) (v : Word) : (s.portOut p v).cacheDraws = s.cacheDraws := rfl
@[simp] theorem State.portOut_inputDraws (s : State) (p : Nat) (v : Word) : (s.portOut p v).inputDraws = s.inputDraws := rfl

/-! ### `injectWord`: the append of INJECT (R132) -/

@[simp] theorem State.injectWord_cfg (s : State) (p : Nat) (v : Word) : (s.injectWord p v).cfg = s.cfg := rfl
@[simp] theorem State.injectWord_regs (s : State) (p : Nat) (v : Word) : (s.injectWord p v).regs = s.regs := rfl
@[simp] theorem State.injectWord_pc (s : State) (p : Nat) (v : Word) : (s.injectWord p v).pc = s.pc := rfl
@[simp] theorem State.injectWord_flags (s : State) (p : Nat) (v : Word) : (s.injectWord p v).flags = s.flags := rfl
@[simp] theorem State.injectWord_run (s : State) (p : Nat) (v : Word) : (s.injectWord p v).run = s.run := rfl
@[simp] theorem State.injectWord_fault (s : State) (p : Nat) (v : Word) : (s.injectWord p v).fault = s.fault := rfl
@[simp] theorem State.injectWord_prog (s : State) (p : Nat) (v : Word) : (s.injectWord p v).prog = s.prog := rfl
@[simp] theorem State.injectWord_mem (s : State) (p : Nat) (v : Word) : (s.injectWord p v).mem = s.mem := rfl
@[simp] theorem State.injectWord_cache (s : State) (p : Nat) (v : Word) : (s.injectWord p v).cache = s.cache := rfl
@[simp] theorem State.injectWord_disk (s : State) (p : Nat) (v : Word) : (s.injectWord p v).disk = s.disk := rfl
@[simp] theorem State.injectWord_head (s : State) (p : Nat) (v : Word) : (s.injectWord p v).head = s.head := rfl
@[simp] theorem State.injectWord_inq (s : State) (p : Nat) (v : Word) : (s.injectWord p v).inq = Cells.write [] s.inq p (s.inBuffer p ++ [v]) := rfl
@[simp] theorem State.injectWord_outq (s : State) (p : Nat) (v : Word) : (s.injectWord p v).outq = s.outq := rfl
@[simp] theorem State.injectWord_cycles (s : State) (p : Nat) (v : Word) : (s.injectWord p v).cycles = s.cycles := rfl
@[simp] theorem State.injectWord_readOps (s : State) (p : Nat) (v : Word) : (s.injectWord p v).readOps = s.readOps := rfl
@[simp] theorem State.injectWord_writeOps (s : State) (p : Nat) (v : Word) : (s.injectWord p v).writeOps = s.writeOps := rfl
@[simp] theorem State.injectWord_cacheHits (s : State) (p : Nat) (v : Word) : (s.injectWord p v).cacheHits = s.cacheHits := rfl
@[simp] theorem State.injectWord_cacheMisses (s : State) (p : Nat) (v : Word) : (s.injectWord p v).cacheMisses = s.cacheMisses := rfl
@[simp] theorem State.injectWord_time2 (s : State) (p : Nat) (v : Word) : (s.injectWord p v).time2 = s.time2 := rfl
@[simp] theorem State.injectWord_executed (s : State) (p : Nat) (v : Word) : (s.injectWord p v).executed = s.executed := rfl
@[simp] theorem State.injectWord_cacheDraws (s : State) (p : Nat) (v : Word) : (s.injectWord p v).cacheDraws = s.cacheDraws := rfl
@[simp] theorem State.injectWord_inputDraws (s : State) (p : Nat) (v : Word) : (s.injectWord p v).inputDraws = s.inputDraws := rfl

/-! ### `skipEmpties`: the skipping of fetch (R73) -/

@[simp] theorem State.skipEmpties_cfg (s : State) : s.skipEmpties.cfg = s.cfg := rfl
@[simp] theorem State.skipEmpties_regs (s : State) : s.skipEmpties.regs = s.regs := rfl
@[simp] theorem State.skipEmpties_pc (s : State) : s.skipEmpties.pc = s.pc + BitVec.ofNat 32 (leadingEmpties (s.prog.drop s.pc.toNat)) := rfl
@[simp] theorem State.skipEmpties_flags (s : State) : s.skipEmpties.flags = s.flags := rfl
@[simp] theorem State.skipEmpties_run (s : State) : s.skipEmpties.run = s.run := rfl
@[simp] theorem State.skipEmpties_fault (s : State) : s.skipEmpties.fault = s.fault := rfl
@[simp] theorem State.skipEmpties_prog (s : State) : s.skipEmpties.prog = s.prog := rfl
@[simp] theorem State.skipEmpties_mem (s : State) : s.skipEmpties.mem = s.mem := rfl
@[simp] theorem State.skipEmpties_cache (s : State) : s.skipEmpties.cache = s.cache := rfl
@[simp] theorem State.skipEmpties_disk (s : State) : s.skipEmpties.disk = s.disk := rfl
@[simp] theorem State.skipEmpties_head (s : State) : s.skipEmpties.head = s.head := rfl
@[simp] theorem State.skipEmpties_inq (s : State) : s.skipEmpties.inq = s.inq := rfl
@[simp] theorem State.skipEmpties_outq (s : State) : s.skipEmpties.outq = s.outq := rfl
@[simp] theorem State.skipEmpties_cycles (s : State) : s.skipEmpties.cycles = s.cycles := rfl
@[simp] theorem State.skipEmpties_readOps (s : State) : s.skipEmpties.readOps = s.readOps := rfl
@[simp] theorem State.skipEmpties_writeOps (s : State) : s.skipEmpties.writeOps = s.writeOps := rfl
@[simp] theorem State.skipEmpties_cacheHits (s : State) : s.skipEmpties.cacheHits = s.cacheHits := rfl
@[simp] theorem State.skipEmpties_cacheMisses (s : State) : s.skipEmpties.cacheMisses = s.cacheMisses := rfl
@[simp] theorem State.skipEmpties_time2 (s : State) : s.skipEmpties.time2 = s.time2 := rfl
@[simp] theorem State.skipEmpties_executed (s : State) : s.skipEmpties.executed = s.executed := rfl
@[simp] theorem State.skipEmpties_cacheDraws (s : State) : s.skipEmpties.cacheDraws = s.cacheDraws := rfl
@[simp] theorem State.skipEmpties_inputDraws (s : State) : s.skipEmpties.inputDraws = s.inputDraws := rfl

end Sys2Proof.Machine
end

