-- ==== Sys2Proof/Laws/Ops.lean ====
section
/-! SUPPORT. For each shared operation, once, everything it can do: when it answers a value and which, and what it
raises otherwise. Later proofs cite these and do not unfold the operations. -/

namespace Sys2Proof.Machine

/-! ### Checks -/

theorem Check.bind_eq_ok {α β : Type} (x : Check α) (f : α → Check β) (b : β) :
    (x >>= f) = .ok b ↔ ∃ a, x = .ok a ∧ f a = .ok b := by
  cases x <;> simp [bind, Except.bind]

theorem Check.bind_eq_error {α β : Type} (x : Check α) (f : α → Check β) (e : Abort) :
    (x >>= f) = .error e ↔ x = .error e ∨ ∃ a, x = .ok a ∧ f a = .error e := by
  cases x <;> simp [bind, Except.bind]

@[simp] theorem Check.ok_bind {α β : Type} (a : α) (f : α → Check β) : (Except.ok a >>= f : Check β) = f a := rfl

@[simp] theorem Check.error_bind {α β : Type} (e : Abort) (f : α → Check β) :
    ((Except.error e : Check α) >>= f) = .error e := rfl

@[simp] theorem Check.raise_eq {α : Type} (k : FaultKind) : (raise k : Check α) = .error (.raise k) := rfl

/-! ### The end of an instruction (R72, R76, R78, R147) -/

/-- Every next state of an instruction is either its effect, booked, or fault entry in the state before it. -/
theorem conclude_eq_next {i : Instr} {s t : State} {body : Check State} :
    conclude i s body = .next t ↔
      (∃ u, body = .ok u ∧ t = u.retire (opcodeOf i)) ∨ (∃ k, body = .error (.raise k) ∧ t = s.takeFault k) := by
  cases body with
  | ok u => simp [conclude, eq_comm]
  | error e => cases e <;> simp [conclude, eq_comm]

@[simp] theorem conclude_ok (i : Instr) (s t : State) :
    conclude i s (.ok t) = .next (t.retire (opcodeOf i)) := rfl

@[simp] theorem conclude_raise (i : Instr) (s : State) (k : FaultKind) :
    conclude i s (.error (.raise k)) = .next (s.takeFault k) := rfl

/-- No instruction rule ends in a fault of the model. -/
theorem conclude_ne_fault (i : Instr) (s : State) (body : Check State) (f : Fault) :
    conclude i s body ≠ .fault f := by
  cases body with
  | ok u => simp [conclude]
  | error e => cases e <;> simp [conclude]

/-! ### Operands (R50, R56, R75, R91, R101) -/

theorem checkArgc_eq_ok {r : Args} {l : List Nat} {u : Unit} : checkArgc r l = .ok u ↔ argc r ∈ l := by
  simp only [checkArgc]; split <;> simp_all

theorem checkArgc_eq_error {r : Args} {l : List Nat} {e : Abort} :
    checkArgc r l = .error e ↔ argc r ∉ l ∧ e = .raise .invalidOperand := by
  simp only [checkArgc]; split <;> simp_all [eq_comm]

theorem regDest_eq_ok {s : State} {a : Operand} {n : Nat} :
    regDest s a = .ok n ↔ ∃ m, a = .reg m ∧ 1 ≤ m.toNat ∧ m.toNat ≤ s.cfg.nreg ∧ n = m.toNat := by
  cases a with
  | reg m =>
    simp only [regDest, Operand.reg.injEq, exists_eq_left']
    split
    · next h => simp [h.1, h.2, eq_comm]
    · next h => simp only [Check.raise_eq, reduceCtorEq, false_iff]; exact fun h' => h ⟨h'.1, h'.2.1⟩
  | _ => simp [regDest]

theorem regDest_error {s : State} {a : Operand} {e : Abort} (h : regDest s a = .error e) :
    e = .raise .invalidOperand := by
  cases a with
  | reg m => simp only [regDest] at h; split at h <;> simp_all
  | _ => simpa [regDest, eq_comm] using h

theorem valueOf_reg {s : State} {n : BitVec 32} (h1 : 1 ≤ n.toNat) (h2 : n.toNat ≤ s.cfg.nreg) :
    valueOf s (.reg n) = .ok (s.readReg n.toNat) := by simp [valueOf, h1, h2]

@[simp] theorem valueOf_imm (s : State) (v : Word) : valueOf s (.imm v) = .ok v := rfl

theorem valueOf_error {s : State} {a : Operand} {e : Abort} (h : valueOf s a = .error e) :
    e = .raise .invalidOperand := by
  cases a with
  | reg m => simp only [valueOf] at h; split at h <;> simp_all
  | imm v => simp [valueOf] at h
  | _ => simpa [valueOf, eq_comm] using h

theorem litOf_eq_ok {a : Operand} {v : Word} : litOf a = .ok v ↔ a = .imm v := by
  cases a <;> simp [litOf]

theorem litOf_error {a : Operand} {e : Abort} (h : litOf a = .error e) : e = .raise .invalidOperand := by
  cases a <;> simp_all [litOf]

theorem inPortOf_eq_ok {s : State} {a : Operand} {p : Nat} :
    inPortOf s a = .ok p ↔ ∃ m, a = .pin m ∧ m.toNat < s.cfg.nin ∧ p = m.toNat := by
  cases a with
  | pin m => simp only [inPortOf]; split <;> simp_all [eq_comm]
  | _ => simp [inPortOf]

theorem inPortOf_error {s : State} {a : Operand} {e : Abort} (h : inPortOf s a = .error e) :
    e = .raise .deviceError := by
  cases a with
  | pin m => simp only [inPortOf] at h; split at h <;> simp_all
  | _ => simpa [inPortOf, eq_comm] using h

theorem outPortOf_eq_ok {s : State} {a : Operand} {p : Nat} :
    outPortOf s a = .ok p ↔ ∃ m, a = .pout m ∧ m.toNat < s.cfg.nout ∧ p = m.toNat := by
  cases a with
  | pout m => simp only [outPortOf]; split <;> simp_all [eq_comm]
  | _ => simp [outPortOf]

theorem outPortOf_error {s : State} {a : Operand} {e : Abort} (h : outPortOf s a = .error e) :
    e = .raise .deviceError := by
  cases a with
  | pout m => simp only [outPortOf] at h; split at h <;> simp_all
  | _ => simpa [outPortOf, eq_comm] using h

/-- Everything `ArithOperands` can answer: an existing destination, and a left and a right value in one of the two
forms. -/
theorem arithOperands_eq_ok {s : State} {r : Args} {d : Nat} {a b : Word} :
    arithOperands s r = .ok (d, a, b) ↔
      regDest s r.a0 = .ok d
        ∧ ((argc r = 3 ∧ valueOf s r.a1 = .ok a ∧ valueOf s r.a2 = .ok b)
          ∨ (argc r = 2 ∧ a = s.readReg d ∧ valueOf s r.a1 = .ok b)) := by
  simp only [arithOperands, Check.bind_eq_ok, checkArgc_eq_ok, List.mem_cons, List.not_mem_nil, or_false]
  constructor
  · rintro ⟨_, hc, d', hd, h⟩
    split at h
    · next h3 =>
      simp only [Check.bind_eq_ok] at h
      obtain ⟨a', ha, b', hb, h⟩ := h
      injection h with h
      simp only [Prod.mk.injEq] at h
      obtain ⟨rfl, rfl, rfl⟩ := h
      exact ⟨hd, .inl ⟨h3, ha, hb⟩⟩
    · next h3 =>
      simp only [Check.bind_eq_ok] at h
      obtain ⟨b', hb, h⟩ := h
      injection h with h
      simp only [Prod.mk.injEq] at h
      obtain ⟨rfl, rfl, rfl⟩ := h
      exact ⟨hd, .inr ⟨hc.resolve_right h3, rfl, hb⟩⟩
  · rintro ⟨hd, ⟨h3, ha, hb⟩ | ⟨h2, rfl, hb⟩⟩
    · refine ⟨(), .inr h3, d, hd, ?_⟩
      simp only [h3, if_true, ha, hb, Check.ok_bind]
      rfl
    · refine ⟨(), .inl h2, d, hd, ?_⟩
      have : ¬ argc r = 3 := by omega
      simp only [this, if_false, hb, Check.ok_bind]
      rfl

theorem arithOperands_error {s : State} {r : Args} {e : Abort} (h : arithOperands s r = .error e) :
    e = .raise .invalidOperand := by
  simp only [arithOperands, Check.bind_eq_error, checkArgc_eq_error] at h
  rcases h with ⟨_, rfl⟩ | ⟨_, _, h | ⟨d, _, h⟩⟩
  · rfl
  · exact regDest_error h
  · split at h
    · simp only [Check.bind_eq_error] at h
      rcases h with h | ⟨a, _, h | ⟨b, _, h⟩⟩
      · exact valueOf_error h
      · exact valueOf_error h
      · simp [pure, Except.pure] at h
    · simp only [Check.bind_eq_error] at h
      rcases h with h | ⟨b, _, h⟩
      · exact valueOf_error h
      · simp [pure, Except.pure] at h

/-- Everything `JumpTarget` can answer: the slot of a literal line in `[1, PROG_LEN]`. -/
theorem jumpTarget_eq_ok {s : State} {r : Args} {t : BitVec 32} :
    jumpTarget s r = .ok t ↔
      argc r = 1 ∧ ∃ line : Word, r.a0 = .imm line ∧ 1 ≤ line.toInt ∧ line.toInt ≤ s.progLen ∧ t = line - 1 := by
  simp only [jumpTarget, Check.bind_eq_ok, checkArgc_eq_ok, litOf_eq_ok, List.mem_singleton]
  constructor
  · rintro ⟨_, hc, line, hl, h⟩
    split at h
    · simp at h
    · next hr =>
      injection h with h
      exact ⟨hc, line, hl, by omega, by omega, h.symm⟩
  · rintro ⟨hc, line, hl, h1, h2, rfl⟩
    refine ⟨(), hc, line, hl, ?_⟩
    rw [if_neg (by omega)]
    rfl

/-- What `JumpTarget` raises: `OutOfRange` only for a literal line, else `InvalidOperand` (R101). -/
theorem jumpTarget_error {s : State} {r : Args} {e : Abort} (h : jumpTarget s r = .error e) :
    e = .raise .invalidOperand ∨ e = .raise .outOfRange := by
  simp only [jumpTarget, Check.bind_eq_error, checkArgc_eq_error] at h
  rcases h with ⟨_, rfl⟩ | ⟨_, _, h | ⟨line, _, h⟩⟩
  · exact .inl rfl
  · exact .inl (litOf_error h)
  · split at h
    · simp only [Check.raise_eq, Except.error.injEq] at h
      exact .inr h.symm
    · simp [pure, Except.pure] at h

/-! ### Range checks, RAM, cache, disk, ports (R35 to R40, R130, R131) -/

theorem validateIndex_eq_ok {size : Nat} {a : Word} {n : Nat} :
    validateIndex size a = .ok n ↔ 0 ≤ a.toInt ∧ a.toInt < size ∧ (n : Int) = a.toInt := by
  simp only [validateIndex]
  split
  · simp only [Check.raise_eq, reduceCtorEq, false_iff]; omega
  · simp only [Except.ok.injEq]; omega

theorem validateIndex_eq_error {size : Nat} {a : Word} {e : Abort} :
    validateIndex size a = .error e ↔ (a.toInt < 0 ∨ (size : Int) ≤ a.toInt) ∧ e = .raise .outOfRange := by
  simp only [validateIndex]
  split
  · next h => simp [h, eq_comm]
  · next h => simp [h]

theorem memRead_eq_ok {s t : State} {a v : Word} :
    memRead s a = .ok (v, t) ↔
      ∃ n, validateIndex s.cfg.memSize a = .ok n ∧ v = s.readMem n ∧ t = s.chargeRead Config.tRam2 := by
  cases h : validateIndex s.cfg.memSize a <;> simp [memRead, h, eq_comm]

theorem memWrite_eq_ok {s t : State} {a v : Word} :
    memWrite s a v = .ok t ↔
      ∃ n, validateIndex s.cfg.memSize a = .ok n
        ∧ t = (s.writeMem n v).chargeWrite Config.tRam2 := by
  cases h : validateIndex s.cfg.memSize a <;> simp [memWrite, h, eq_comm]

theorem diskRead_eq_ok {s t : State} {a v : Word} :
    diskRead s a = .ok (v, t) ↔
      ∃ n, validateIndex s.cfg.nsect a = .ok n ∧ v = (s.sector n).val ∧ t = s.chargeRead Config.tDisk2 := by
  cases h : validateIndex s.cfg.nsect a <;> simp [diskRead, h, eq_comm]

theorem diskWrite_eq_ok {s t : State} {a v : Word} :
    diskWrite s a v = .ok t ↔
      ∃ n, validateIndex s.cfg.nsect a = .ok n
        ∧ t = (s.writeSector n ⟨v, true⟩).chargeWrite Config.tDisk2 := by
  cases h : validateIndex s.cfg.nsect a <;> simp [diskWrite, h, eq_comm]

theorem diskSeek_eq_ok {s t : State} {a : Word} :
    diskSeek s a = .ok t ↔
      ∃ n, validateIndex s.cfg.nsect a = .ok n
        ∧ t = (s.moveHead n).chargeTime (seekDistance n s.head * Config.tSeek2) := by
  cases h : validateIndex s.cfg.nsect a <;> simp [diskSeek, h, eq_comm]

/-- What the RAM and disk primitives raise is what their range check raises. -/
theorem memRead_error {s : State} {a : Word} {e : Abort} (h : memRead s a = .error e) :
    validateIndex s.cfg.memSize a = .error e := by
  simp only [memRead] at h; split at h <;> simp_all

theorem memWrite_error {s : State} {a v : Word} {e : Abort} (h : memWrite s a v = .error e) :
    validateIndex s.cfg.memSize a = .error e := by
  simp only [memWrite] at h; split at h <;> simp_all

theorem diskRead_error {s : State} {a : Word} {e : Abort} (h : diskRead s a = .error e) :
    validateIndex s.cfg.nsect a = .error e := by
  simp only [diskRead] at h; split at h <;> simp_all

theorem diskWrite_error {s : State} {a v : Word} {e : Abort} (h : diskWrite s a v = .error e) :
    validateIndex s.cfg.nsect a = .error e := by
  simp only [diskWrite] at h; split at h <;> simp_all

theorem diskSeek_error {s : State} {a : Word} {e : Abort} (h : diskSeek s a = .error e) :
    validateIndex s.cfg.nsect a = .error e := by
  simp only [diskSeek] at h; split at h <;> simp_all

/-- The two outcomes of `CacheAccess` (R37). -/
theorem cacheAccess_cases (s : State) (k : Word) :
    (∃ v, s.cached k = some v ∧ cacheAccess s k = (v, s.countHit))
      ∨ (s.cached k = none
        ∧ cacheAccess s k = (Config.cacheFill s.cacheDraws k, s.fillMiss k (Config.cacheFill s.cacheDraws k))) := by
  cases h : s.cached k with
  | none => exact .inr ⟨rfl, by simp [cacheAccess, h]⟩
  | some v => exact .inl ⟨v, rfl, by simp [cacheAccess, h]⟩

/-- The two outcomes of the input half of IN (R130). -/
theorem portIn_cases (s : State) (p : Nat) :
    (∃ v rest, s.inBuffer p = v :: rest ∧ portIn s p = (v, s.setInBuffer p rest))
      ∨ (s.inBuffer p = []
        ∧ portIn s p = (Config.inputDraw s.inputDraws p, s.countInputDraw)) := by
  cases h : s.inBuffer p with
  | nil => exact .inr ⟨rfl, by simp [portIn, h]⟩
  | cons v rest => exact .inl ⟨v, rest, rfl, by simp [portIn, h]⟩

@[simp] theorem State.readReg_writeReg_same (s : State) (n : Nat) (v : Word) : (s.writeReg n v).readReg n = v :=
  Cells.read_write_same 0 s.regs n v

theorem State.readReg_writeReg_other (s : State) (n m : Nat) (v : Word) (h : m ≠ n) :
    (s.writeReg n v).readReg m = s.readReg m := Cells.read_write_other 0 s.regs n m v h

/-! ### Results of the arithmetic instructions (R97) -/

/-- Everything `narrow` can do (R97 (b), (c)). -/
theorem narrow_cases (s : State) (x : Int) :
    narrow s x = .ok (wrap x)
      ∨ (s.cfg.overflow = .refuse ∧ fitsWord x = false ∧ narrow s x = .error (.refuse (.overflowNotAdmitted x))) := by
  cases ho : s.cfg.overflow with
  | wrap => exact .inl (by simp [narrow, ho])
  | refuse => cases hf : fitsWord x <;> simp [narrow, ho, hf]

/-! ### Fetch (R72, R73, R80) -/

theorem fetch_not_running {s : State} (h : s.run ≠ .running) : fetch s = .notRunning := by
  simp [fetch, h]

/-- What fetch answers with an instruction: the engine runs, and the slot after the skipping decodes to it. -/
theorem fetch_eq_instruction {s t : State} {i : Instr} :
    fetch s = .instruction i t ↔
      s.run = .running ∧ t = s.skipEmpties ∧ t.pc.toNat < t.progLen ∧ decode (t.slot t.pc.toNat) = .ok i := by
  simp only [fetch]
  split
  · next h =>
    split
    · next hl =>
      simp only [reduceCtorEq, h, true_and, false_iff]
      rintro ⟨rfl, h', _⟩; omega
    · next hl =>
      split <;> rename_i hd
      · simp only [Fetched.instruction.injEq, h, true_and]
        constructor
        · rintro ⟨rfl, rfl⟩; exact ⟨rfl, by omega, hd⟩
        · rintro ⟨rfl, _, hd'⟩; rw [hd'] at hd; simpa using hd.symm
      · simp only [reduceCtorEq, h, true_and, false_iff]
        rintro ⟨rfl, _, hd'⟩; rw [hd'] at hd; simp at hd
  · next h => simp [h]

end Sys2Proof.Machine
end

