-- ==== Sys2Proof/Laws/Exec.lean ====
section
/-! SUPPORT. Once for all instructions, everything one can do (`exec_cases`, `exec_next`), so that a statement over all
instructions is a short case analysis; and the skipping of EMPTY slots. -/

namespace Sys2Proof.Machine

/-- The state a completed rule of each instruction leaves, before it is booked (R78): which named operations it goes
through, and which of its checks bound their arguments. -/
inductive Effect (s : State) : Instr → State → Prop
  | mov {r n v} : 1 ≤ n → n ≤ s.cfg.nreg → Effect s (.mov r) (s.writeReg n v).advance
  | add {r n v} : 1 ≤ n → n ≤ s.cfg.nreg → Effect s (.add r) (s.writeReg n v).advance
  | sub {r n v} : 1 ≤ n → n ≤ s.cfg.nreg → Effect s (.sub r) (s.writeReg n v).advance
  | mul {r n v} : 1 ≤ n → n ≤ s.cfg.nreg → Effect s (.mul r) (s.writeReg n v).advance
  | div {r n v} : 1 ≤ n → n ≤ s.cfg.nreg → Effect s (.div r) (s.writeReg n v).advance
  | mod {r n v} : 1 ≤ n → n ≤ s.cfg.nreg → Effect s (.mod r) (s.writeReg n v).advance
  | cmp {r a b} : Effect s (.cmp r) (s.setFlags (compareFlags a b)).advance
  | jmp {r} {l : Word} : 1 ≤ l.toInt → l.toInt ≤ s.progLen → Effect s (.jmp r) (s.jumpTo (l - 1))
  | je {r} {l : Word} : 1 ≤ l.toInt → l.toInt ≤ s.progLen → Effect s (.je r) (s.jumpTo (l - 1))
  | je' {r} : Effect s (.je r) s.advance
  | jne {r} {l : Word} : 1 ≤ l.toInt → l.toInt ≤ s.progLen → Effect s (.jne r) (s.jumpTo (l - 1))
  | jne' {r} : Effect s (.jne r) s.advance
  | load {r n v} : 1 ≤ n → n ≤ s.cfg.nreg → Effect s (.load r) ((s.chargeRead Config.tRam2).writeReg n v).advance
  | store {r a v} : a < s.cfg.memSize → Effect s (.store r) ((s.writeMem a v).chargeWrite Config.tRam2).advance
  | hit {r n v} : 1 ≤ n → n ≤ s.cfg.nreg → Effect s (.cache r) (s.countHit.writeReg n v).advance
  | miss {r n v k} : 1 ≤ n → n ≤ s.cfg.nreg → Effect s (.cache r) ((s.fillMiss k v).writeReg n v).advance
  | flush {r} : Effect s (.cacheFlush r) s.flushCache.advance
  | inval {r k} : Effect s (.cacheInvalidate r) (s.invalidate k).advance
  | dread {r n v} : 1 ≤ n → n ≤ s.cfg.nreg → Effect s (.diskRead r) ((s.chargeRead Config.tDisk2).writeReg n v).advance
  | dwrite {r a v} : a < s.cfg.nsect →
      Effect s (.diskWrite r) ((s.writeSector a ⟨v, true⟩).chargeWrite Config.tDisk2).advance
  | seek {r a} : a < s.cfg.nsect →
      Effect s (.diskSeek r) ((s.moveHead a).chargeTime (seekDistance a s.head * Config.tSeek2)).advance
  | inq {r n v p q} : 1 ≤ n → n ≤ s.cfg.nreg → p < s.cfg.nin →
      Effect s (.inp r) ((s.setInBuffer p q).writeReg n v).advance
  | indraw {r n v} : 1 ≤ n → n ≤ s.cfg.nreg → Effect s (.inp r) (s.countInputDraw.writeReg n v).advance
  | out {r p v} : p < s.cfg.nout → Effect s (.out r) (s.portOut p v).advance

/-- The fault kinds each instruction can raise (R140, R143 to R145). -/
def MayRaise (k : FaultKind) (i : Instr) : Prop :=
  match k with
  | .none => False
  | .invalidOperand => True
  | .outOfRange => (opcodeOf i).toNat ∈ [8, 9, 10, 11, 12, 14, 15, 16]
  | .arithmeticError => (opcodeOf i).toNat ∈ [5, 6]
  | .deviceError => (opcodeOf i).toNat ∈ [17, 18]

theorem regDest_bounds {s : State} {a n} (h : regDest s a = .ok n) : 1 ≤ n ∧ n ≤ s.cfg.nreg := by
  obtain ⟨m, _, h1, h2, rfl⟩ := regDest_eq_ok.mp h; exact ⟨h1, h2⟩

theorem validateIndex_lt {size a n} (h : validateIndex size a = .ok n) : n < size := by
  have := validateIndex_eq_ok.mp h; omega

/-- How a rule may end without its effect: a fault it can raise, or the refusal of `Overflow` = `refuse` (R4). -/
def AbortsWell (s : State) (i : Instr) (e : Abort) : Prop :=
  (∃ k, e = .raise k ∧ MayRaise k i)
    ∨ ∃ x, e = .refuse (.overflowNotAdmitted x) ∧ s.cfg.overflow = .refuse ∧ fitsWord x = false
      ∧ (opcodeOf i).toNat ∈ [2, 3, 4, 5]

theorem abortsWell_invalidOperand {s : State} {i : Instr} {e : Abort} (h : e = .raise .invalidOperand) :
    AbortsWell s i e := .inl ⟨_, h, trivial⟩

theorem conclude_effect {i : Instr} {s : State} {body : Check State} (hok : ∀ u, body = .ok u → Effect s i u)
    (herr : ∀ e, body = .error e → AbortsWell s i e) :
    (∃ u, Effect s i u ∧ conclude i s body = .next (u.retire (opcodeOf i)))
      ∨ (∃ k, MayRaise k i ∧ conclude i s body = .next (s.takeFault k))
      ∨ (∃ x, s.cfg.overflow = .refuse ∧ fitsWord x = false ∧ (opcodeOf i).toNat ∈ [2, 3, 4, 5]
        ∧ conclude i s body = .refused (.overflowNotAdmitted x)) := by
  cases body with
  | ok u => exact .inl ⟨u, hok u rfl, rfl⟩
  | error e =>
    rcases herr e rfl with ⟨k, rfl, hk⟩ | ⟨x, rfl, h1, h2, h3⟩
    · exact .inr (.inl ⟨k, hk, rfl⟩)
    · exact .inr (.inr ⟨x, h1, h2, h3, rfl⟩)

theorem narrow_error {s : State} {x : Int} {e : Abort} (h : narrow s x = .error e) :
    e = .refuse (.overflowNotAdmitted x) ∧ s.cfg.overflow = .refuse ∧ fitsWord x = false := by
  rcases narrow_cases s x with h' | ⟨h1, h2, h'⟩
  · rw [h'] at h; simp at h
  · rw [h'] at h; simp at h; exact ⟨h.symm, h1, h2⟩

theorem checkArgc_error {r : Args} {l : List Nat} {e : Abort} (h : checkArgc r l = .error e) :
    e = .raise .invalidOperand := (checkArgc_eq_error.mp h).2

/-- Everything an instruction can do: its effect, booked; fault entry; or the refusal of `Overflow` = `refuse`. -/
theorem exec_cases (i : Instr) (s : State) (hi : i ≠ .empty) :
    (∃ u, Effect s i u ∧ exec i s = .next (u.retire (opcodeOf i)))
      ∨ (∃ k, MayRaise k i ∧ exec i s = .next (s.takeFault k))
      ∨ (∃ x, s.cfg.overflow = .refuse ∧ fitsWord x = false ∧ (opcodeOf i).toNat ∈ [2, 3, 4, 5]
        ∧ exec i s = .refused (.overflowNotAdmitted x)) := by
  cases i with
  | empty => exact absurd rfl hi
  | mov r =>
    apply conclude_effect
    · intro u h
      simp only [Check.bind_eq_ok] at h
      obtain ⟨_, _, d, hd, v, _, h⟩ := h
      injection h with h; subst h; exact .mov (regDest_bounds hd).1 (regDest_bounds hd).2
    · intro e h
      simp only [Check.bind_eq_error] at h
      rcases h with h | ⟨_, _, h | ⟨_, _, h | ⟨_, _, h⟩⟩⟩
      · exact abortsWell_invalidOperand (checkArgc_error h)
      · exact abortsWell_invalidOperand (regDest_error h)
      · exact abortsWell_invalidOperand (valueOf_error h)
      · injection h
  | add r =>
    apply conclude_effect
    · intro u h
      simp only [Check.bind_eq_ok] at h
      obtain ⟨⟨d, a, b⟩, ha, v, _, h⟩ := h
      have hd := (arithOperands_eq_ok.mp ha).1
      injection h with h; subst h; exact .add (regDest_bounds hd).1 (regDest_bounds hd).2
    · intro e h
      simp only [Check.bind_eq_error] at h
      rcases h with h | ⟨_, _, h | ⟨_, _, h⟩⟩
      · exact abortsWell_invalidOperand (arithOperands_error h)
      · obtain ⟨h1, h2, h3⟩ := narrow_error h; exact .inr ⟨_, h1, h2, h3, by simp [opcodeOf]⟩
      · injection h
  | sub r =>
    apply conclude_effect
    · intro u h
      simp only [Check.bind_eq_ok] at h
      obtain ⟨⟨d, a, b⟩, ha, v, _, h⟩ := h
      have hd := (arithOperands_eq_ok.mp ha).1
      injection h with h; subst h; exact .sub (regDest_bounds hd).1 (regDest_bounds hd).2
    · intro e h
      simp only [Check.bind_eq_error] at h
      rcases h with h | ⟨_, _, h | ⟨_, _, h⟩⟩
      · exact abortsWell_invalidOperand (arithOperands_error h)
      · obtain ⟨h1, h2, h3⟩ := narrow_error h; exact .inr ⟨_, h1, h2, h3, by simp [opcodeOf]⟩
      · injection h
  | mul r =>
    apply conclude_effect
    · intro u h
      simp only [Check.bind_eq_ok] at h
      obtain ⟨⟨d, a, b⟩, ha, v, _, h⟩ := h
      have hd := (arithOperands_eq_ok.mp ha).1
      injection h with h; subst h; exact .mul (regDest_bounds hd).1 (regDest_bounds hd).2
    · intro e h
      simp only [Check.bind_eq_error] at h
      rcases h with h | ⟨_, _, h | ⟨_, _, h⟩⟩
      · exact abortsWell_invalidOperand (arithOperands_error h)
      · obtain ⟨h1, h2, h3⟩ := narrow_error h; exact .inr ⟨_, h1, h2, h3, by simp [opcodeOf]⟩
      · injection h
  | div r =>
    apply conclude_effect
    · intro u h
      simp only [Check.bind_eq_ok] at h
      obtain ⟨⟨d, a, b⟩, ha, v, _, h⟩ := h
      have hd := (arithOperands_eq_ok.mp ha).1
      injection h with h; subst h; exact .div (regDest_bounds hd).1 (regDest_bounds hd).2
    · intro e h
      simp only [Check.bind_eq_error] at h
      rcases h with h | ⟨_, _, h | ⟨_, _, h⟩⟩
      · exact abortsWell_invalidOperand (arithOperands_error h)
      · split at h
        · simp at h; exact .inl ⟨_, h.symm, by simp [MayRaise, opcodeOf]⟩
        · obtain ⟨h1, h2, h3⟩ := narrow_error h; exact .inr ⟨_, h1, h2, h3, by simp [opcodeOf]⟩
      · injection h
  | mod r =>
    apply conclude_effect
    · intro u h
      simp only [Check.bind_eq_ok] at h
      obtain ⟨⟨d, a, b⟩, ha, v, _, h⟩ := h
      have hd := (arithOperands_eq_ok.mp ha).1
      injection h with h; subst h; exact .mod (regDest_bounds hd).1 (regDest_bounds hd).2
    · intro e h
      simp only [Check.bind_eq_error] at h
      rcases h with h | ⟨_, _, h | ⟨_, _, h⟩⟩
      · exact abortsWell_invalidOperand (arithOperands_error h)
      · split at h
        · simp at h; exact .inl ⟨_, h.symm, by simp [MayRaise, opcodeOf]⟩
        · simp at h
      · injection h
  | cmp r =>
    apply conclude_effect
    · intro u h
      simp only [Check.bind_eq_ok] at h
      obtain ⟨_, _, a, _, b, _, h⟩ := h
      injection h with h; subst h; exact .cmp
    · intro e h
      simp only [Check.bind_eq_error] at h
      rcases h with h | ⟨_, _, h | ⟨_, _, h | ⟨_, _, h⟩⟩⟩
      · exact abortsWell_invalidOperand (checkArgc_error h)
      · exact abortsWell_invalidOperand (valueOf_error h)
      · exact abortsWell_invalidOperand (valueOf_error h)
      · injection h
  | jmp r =>
    apply conclude_effect
    · intro u h
      simp only [Check.bind_eq_ok] at h
      obtain ⟨t, ht, h⟩ := h
      obtain ⟨_, l, _, h1, h2, rfl⟩ := jumpTarget_eq_ok.mp ht
      injection h with h; subst h; exact .jmp h1 h2
    · intro e h
      simp only [Check.bind_eq_error] at h
      rcases h with h | ⟨_, _, h⟩
      · rcases jumpTarget_error h with rfl | rfl
        · exact abortsWell_invalidOperand rfl
        · exact .inl ⟨_, rfl, by simp [MayRaise, opcodeOf]⟩
      · injection h
  | je r =>
    apply conclude_effect
    · intro u h
      simp only [Check.bind_eq_ok] at h
      obtain ⟨t, ht, h⟩ := h
      obtain ⟨_, l, _, h1, h2, rfl⟩ := jumpTarget_eq_ok.mp ht
      injection h with h; subst h
      split
      · exact .je h1 h2
      · exact .je'
    · intro e h
      simp only [Check.bind_eq_error] at h
      rcases h with h | ⟨_, _, h⟩
      · rcases jumpTarget_error h with rfl | rfl
        · exact abortsWell_invalidOperand rfl
        · exact .inl ⟨_, rfl, by simp [MayRaise, opcodeOf]⟩
      · injection h
  | jne r =>
    apply conclude_effect
    · intro u h
      simp only [Check.bind_eq_ok] at h
      obtain ⟨t, ht, h⟩ := h
      obtain ⟨_, l, _, h1, h2, rfl⟩ := jumpTarget_eq_ok.mp ht
      injection h with h; subst h
      split
      · exact .jne h1 h2
      · exact .jne'
    · intro e h
      simp only [Check.bind_eq_error] at h
      rcases h with h | ⟨_, _, h⟩
      · rcases jumpTarget_error h with rfl | rfl
        · exact abortsWell_invalidOperand rfl
        · exact .inl ⟨_, rfl, by simp [MayRaise, opcodeOf]⟩
      · injection h
  | load r =>
    apply conclude_effect
    · intro u h
      simp only [Check.bind_eq_ok] at h
      obtain ⟨_, _, d, hd, a, _, ⟨v, t⟩, hm, h⟩ := h
      obtain ⟨n, hn, rfl, rfl⟩ := memRead_eq_ok.mp hm
      injection h with h; subst h; exact .load (regDest_bounds hd).1 (regDest_bounds hd).2
    · intro e h
      simp only [Check.bind_eq_error] at h
      rcases h with h | ⟨_, _, h | ⟨_, _, h | ⟨_, _, h | ⟨_, _, h⟩⟩⟩⟩
      · exact abortsWell_invalidOperand (checkArgc_error h)
      · exact abortsWell_invalidOperand (regDest_error h)
      · exact abortsWell_invalidOperand (litOf_error h)
      · exact .inl ⟨_, (validateIndex_eq_error.mp (memRead_error h)).2, by simp [MayRaise, opcodeOf]⟩
      · injection h
  | store r =>
    apply conclude_effect
    · intro u h
      simp only [Check.bind_eq_ok] at h
      obtain ⟨_, _, v, _, a, _, t, hm, h⟩ := h
      obtain ⟨n, hn, rfl⟩ := memWrite_eq_ok.mp hm
      injection h with h; subst h; exact .store (validateIndex_lt hn)
    · intro e h
      simp only [Check.bind_eq_error] at h
      rcases h with h | ⟨_, _, h | ⟨_, _, h | ⟨_, _, h | ⟨_, _, h⟩⟩⟩⟩
      · exact abortsWell_invalidOperand (checkArgc_error h)
      · exact abortsWell_invalidOperand (valueOf_error h)
      · exact abortsWell_invalidOperand (litOf_error h)
      · exact .inl ⟨_, (validateIndex_eq_error.mp (memWrite_error h)).2, by simp [MayRaise, opcodeOf]⟩
      · injection h
  | cache r =>
    apply conclude_effect
    · intro u h
      simp only [Check.bind_eq_ok] at h
      obtain ⟨_, _, d, hd, k, _, h⟩ := h
      injection h with h; subst h
      rcases cacheAccess_cases s k with ⟨v, _, hk⟩ | ⟨_, hk⟩
      · rw [hk]; exact .hit (regDest_bounds hd).1 (regDest_bounds hd).2
      · rw [hk]; exact .miss (regDest_bounds hd).1 (regDest_bounds hd).2
    · intro e h
      simp only [Check.bind_eq_error] at h
      rcases h with h | ⟨_, _, h | ⟨_, _, h | ⟨_, _, h⟩⟩⟩
      · exact abortsWell_invalidOperand (checkArgc_error h)
      · exact abortsWell_invalidOperand (regDest_error h)
      · exact abortsWell_invalidOperand (litOf_error h)
      · injection h
  | diskRead r =>
    apply conclude_effect
    · intro u h
      simp only [Check.bind_eq_ok] at h
      obtain ⟨_, _, d, hd, a, _, ⟨v, t⟩, hm, h⟩ := h
      obtain ⟨n, hn, rfl, rfl⟩ := diskRead_eq_ok.mp hm
      injection h with h; subst h; exact .dread (regDest_bounds hd).1 (regDest_bounds hd).2
    · intro e h
      simp only [Check.bind_eq_error] at h
      rcases h with h | ⟨_, _, h | ⟨_, _, h | ⟨_, _, h | ⟨_, _, h⟩⟩⟩⟩
      · exact abortsWell_invalidOperand (checkArgc_error h)
      · exact abortsWell_invalidOperand (regDest_error h)
      · exact abortsWell_invalidOperand (litOf_error h)
      · exact .inl ⟨_, (validateIndex_eq_error.mp (diskRead_error h)).2, by simp [MayRaise, opcodeOf]⟩
      · injection h
  | diskWrite r =>
    apply conclude_effect
    · intro u h
      simp only [Check.bind_eq_ok] at h
      obtain ⟨_, _, v, _, a, _, t, hm, h⟩ := h
      obtain ⟨n, hn, rfl⟩ := diskWrite_eq_ok.mp hm
      injection h with h; subst h; exact .dwrite (validateIndex_lt hn)
    · intro e h
      simp only [Check.bind_eq_error] at h
      rcases h with h | ⟨_, _, h | ⟨_, _, h | ⟨_, _, h | ⟨_, _, h⟩⟩⟩⟩
      · exact abortsWell_invalidOperand (checkArgc_error h)
      · exact abortsWell_invalidOperand (valueOf_error h)
      · exact abortsWell_invalidOperand (litOf_error h)
      · exact .inl ⟨_, (validateIndex_eq_error.mp (diskWrite_error h)).2, by simp [MayRaise, opcodeOf]⟩
      · injection h
  | diskSeek r =>
    apply conclude_effect
    · intro u h
      simp only [Check.bind_eq_ok] at h
      obtain ⟨_, _, a, _, t, hm, h⟩ := h
      obtain ⟨n, hn, rfl⟩ := diskSeek_eq_ok.mp hm
      injection h with h; subst h; exact .seek (validateIndex_lt hn)
    · intro e h
      simp only [Check.bind_eq_error] at h
      rcases h with h | ⟨_, _, h | ⟨_, _, h | ⟨_, _, h⟩⟩⟩
      · exact abortsWell_invalidOperand (checkArgc_error h)
      · exact abortsWell_invalidOperand (litOf_error h)
      · exact .inl ⟨_, (validateIndex_eq_error.mp (diskSeek_error h)).2, by simp [MayRaise, opcodeOf]⟩
      · injection h
  | inp r =>
    apply conclude_effect
    · intro u h
      simp only [Check.bind_eq_ok] at h
      obtain ⟨_, _, d, hd, p, hp, h⟩ := h
      obtain ⟨m, _, hm, rfl⟩ := inPortOf_eq_ok.mp hp
      injection h with h; subst h
      rcases portIn_cases s m.toNat with ⟨v, rest, _, hk⟩ | ⟨_, hk⟩
      · rw [hk]; exact .inq (regDest_bounds hd).1 (regDest_bounds hd).2 hm
      · rw [hk]; exact .indraw (regDest_bounds hd).1 (regDest_bounds hd).2
    · intro e h
      simp only [Check.bind_eq_error] at h
      rcases h with h | ⟨_, _, h | ⟨_, _, h | ⟨_, _, h⟩⟩⟩
      · exact abortsWell_invalidOperand (checkArgc_error h)
      · exact abortsWell_invalidOperand (regDest_error h)
      · exact .inl ⟨_, inPortOf_error h, by simp [MayRaise, opcodeOf]⟩
      · injection h
  | out r =>
    apply conclude_effect
    · intro u h
      simp only [Check.bind_eq_ok] at h
      obtain ⟨_, _, v, _, p, hp, h⟩ := h
      obtain ⟨m, _, hm, rfl⟩ := outPortOf_eq_ok.mp hp
      injection h with h; subst h
      exact .out hm
    · intro e h
      simp only [Check.bind_eq_error] at h
      rcases h with h | ⟨_, _, h | ⟨_, _, h | ⟨_, _, h⟩⟩⟩
      · exact abortsWell_invalidOperand (checkArgc_error h)
      · exact abortsWell_invalidOperand (valueOf_error h)
      · exact .inl ⟨_, outPortOf_error h, by simp [MayRaise, opcodeOf]⟩
      · injection h
  | cacheFlush r =>
    apply conclude_effect
    · intro u h
      simp only [Check.bind_eq_ok] at h
      obtain ⟨_, _, h⟩ := h
      injection h with h; subst h; exact .flush
    · intro e h
      simp only [Check.bind_eq_error] at h
      rcases h with h | ⟨_, _, h⟩
      · exact abortsWell_invalidOperand (checkArgc_error h)
      · injection h
  | cacheInvalidate r =>
    apply conclude_effect
    · intro u h
      simp only [Check.bind_eq_ok] at h
      obtain ⟨_, _, _, _, h⟩ := h
      injection h with h; subst h; exact .inval
    · intro e h
      simp only [Check.bind_eq_error] at h
      rcases h with h | ⟨_, _, h | ⟨_, _, h⟩⟩
      · exact abortsWell_invalidOperand (checkArgc_error h)
      · exact abortsWell_invalidOperand (litOf_error h)
      · injection h

/-- Every next state of an instruction: the EMPTY slot passed, its effect booked, or fault entry. -/
theorem exec_next {i : Instr} {s t : State} (h : exec i s = .next t) :
    (i = .empty ∧ t = s.advance)
      ∨ (i ≠ .empty ∧ ∃ u, Effect s i u ∧ t = u.retire (opcodeOf i))
      ∨ (i ≠ .empty ∧ ∃ k, MayRaise k i ∧ t = s.takeFault k) := by
  by_cases hi : i = .empty
  · subst hi; simp only [exec, execEmpty, Host.Outcome.next.injEq] at h; exact .inl ⟨rfl, h.symm⟩
  · rcases exec_cases i s hi with ⟨u, hu, he⟩ | ⟨k, hk, he⟩ | ⟨x, _, _, _, he⟩
    · rw [he] at h; injection h with h; exact .inr (.inl ⟨hi, u, hu, h.symm⟩)
    · rw [he] at h; injection h with h; exact .inr (.inr ⟨hi, k, hk, h.symm⟩)
    · rw [he] at h; injection h

/-! ### The skipping of fetch (R73) -/

theorem leadingEmpties_le : ∀ l : List IWord, leadingEmpties l ≤ l.length
  | [] => Nat.le_refl _
  | iw :: r => by
    simp only [leadingEmpties]
    split
    · simpa using leadingEmpties_le r
    · exact Nat.zero_le _

/-- A stretch of EMPTY slots is counted one at a time. -/
theorem leadingEmpties_drop_succ {l : List IWord} {n : Nat} (h : n < l.length) (h0 : l.getD n 0 = 0) :
    leadingEmpties (l.drop n) = leadingEmpties (l.drop (n + 1)) + 1 := by
  rw [List.drop_eq_getElem_cons h]
  rw [List.getD_eq_getElem _ _ h] at h0
  simp [leadingEmpties, h0]

theorem leadingEmpties_of_all_zero {l : List IWord} (h : ∀ iw ∈ l, iw = 0) : leadingEmpties l = l.length := by
  induction l with
  | nil => rfl
  | cons a t ih =>
    have ha : a = 0 := h a (by simp)
    have ht := ih fun iw hi => h iw (by simp [hi])
    simp [leadingEmpties, ha, ht]

theorem leadingEmpties_of_ne_zero {l : List IWord} {n : Nat} (h : n < l.length) (h0 : l.getD n 0 ≠ 0) :
    leadingEmpties (l.drop n) = 0 := by
  rw [List.drop_eq_getElem_cons h]
  rw [List.getD_eq_getElem _ _ h] at h0
  simp only [leadingEmpties]
  rw [if_neg h0]

/-- The slot that the skipping stops at is not an EMPTY slot. -/
theorem getD_leadingEmpties {l : List IWord} (h : leadingEmpties l < l.length) : l.getD (leadingEmpties l) 0 ≠ 0 := by
  induction l with
  | nil => simp at h
  | cons a t ih =>
    revert h
    simp only [leadingEmpties]
    split
    · intro h; simpa using ih (by simpa using h)
    · next h0 => intro _; simpa using h0

/-- Only the all-zero word decodes to the EMPTY slot (R53). -/
theorem decode_ne_empty {iw : IWord} (h : iw ≠ 0) : decode iw ≠ .ok .empty := by
  unfold decode
  split
  · simp
  · split
    · simp
    · split
      · next hj => have := (instrOfOpcode_eq_some hj).2.2.2; simpa using this
      · simp

end Sys2Proof.Machine
end

