-- ==== Sys2Proof/Laws/PerInstr.lean ====
section
/-! SUPPORT. The per-instruction family OpcodeField: the opcode field of a record's word is the opcode number of its
row, at most 20, and its operand fields read back as that record's operands (30_encoding.md R51, R52, R54). One lemma for each constructor. -/

namespace Sys2Proof.Laws

/-- The word of `i` carries the opcode number of `i` in `OPC`, the kind and value of each of its operands in their
fields, and 0 in `RSV`. -/
def OpcodeField.Statement (i : Instr) : Prop :=
  fieldOpc (encode i) = opcodeOf i ∧ (opcodeOf i).toNat ≤ 20 ∧ fieldRsv (encode i) = 0
    ∧ decodeOperand (fieldK0 (encode i)) (fieldV0 (encode i)) = .ok (argsOf i).a0
    ∧ decodeOperand (fieldK1 (encode i)) (fieldV1 (encode i)) = .ok (argsOf i).a1
    ∧ decodeOperand (fieldK2 (encode i)) (fieldV2 (encode i)) = .ok (argsOf i).a2

/-- The fields of any encoded record. -/
theorem encodedFields (i : Instr) (h : (opcodeOf i).toNat ≤ 20) : OpcodeField.Statement i := by
  simp [OpcodeField.Statement, encode, h]

theorem OpcodeField.empty : OpcodeField.Statement .empty := encodedFields _ (by decide)
theorem OpcodeField.mov (r : Args) : OpcodeField.Statement (.mov r) := encodedFields _ (by simp [opcodeOf])
theorem OpcodeField.add (r : Args) : OpcodeField.Statement (.add r) := encodedFields _ (by simp [opcodeOf])
theorem OpcodeField.sub (r : Args) : OpcodeField.Statement (.sub r) := encodedFields _ (by simp [opcodeOf])
theorem OpcodeField.mul (r : Args) : OpcodeField.Statement (.mul r) := encodedFields _ (by simp [opcodeOf])
theorem OpcodeField.div (r : Args) : OpcodeField.Statement (.div r) := encodedFields _ (by simp [opcodeOf])
theorem OpcodeField.mod (r : Args) : OpcodeField.Statement (.mod r) := encodedFields _ (by simp [opcodeOf])
theorem OpcodeField.cmp (r : Args) : OpcodeField.Statement (.cmp r) := encodedFields _ (by simp [opcodeOf])
theorem OpcodeField.jmp (r : Args) : OpcodeField.Statement (.jmp r) := encodedFields _ (by simp [opcodeOf])
theorem OpcodeField.je (r : Args) : OpcodeField.Statement (.je r) := encodedFields _ (by simp [opcodeOf])
theorem OpcodeField.jne (r : Args) : OpcodeField.Statement (.jne r) := encodedFields _ (by simp [opcodeOf])
theorem OpcodeField.load (r : Args) : OpcodeField.Statement (.load r) := encodedFields _ (by simp [opcodeOf])
theorem OpcodeField.store (r : Args) : OpcodeField.Statement (.store r) := encodedFields _ (by simp [opcodeOf])
theorem OpcodeField.cache (r : Args) : OpcodeField.Statement (.cache r) := encodedFields _ (by simp [opcodeOf])
theorem OpcodeField.diskRead (r : Args) : OpcodeField.Statement (.diskRead r) := encodedFields _ (by simp [opcodeOf])
theorem OpcodeField.diskWrite (r : Args) : OpcodeField.Statement (.diskWrite r) := encodedFields _ (by simp [opcodeOf])
theorem OpcodeField.diskSeek (r : Args) : OpcodeField.Statement (.diskSeek r) := encodedFields _ (by simp [opcodeOf])
theorem OpcodeField.inp (r : Args) : OpcodeField.Statement (.inp r) := encodedFields _ (by simp [opcodeOf])
theorem OpcodeField.out (r : Args) : OpcodeField.Statement (.out r) := encodedFields _ (by simp [opcodeOf])
theorem OpcodeField.cacheFlush (r : Args) : OpcodeField.Statement (.cacheFlush r) := encodedFields _ (by simp [opcodeOf])
theorem OpcodeField.cacheInvalidate (r : Args) : OpcodeField.Statement (.cacheInvalidate r) := encodedFields _ (by simp [opcodeOf])

end Sys2Proof.Laws
end

