-- ==== Sys2Proof/Laws/Safety.lean ====
section
/-! SUPPORT. What the resolvers answer, in the terms of Safety.lean, and the shapes of a well-formed operand list by its
argument count. -/

namespace Sys2Proof.Machine

/-- `ValueOf` answers exactly what the operand denotes (R55, R56). -/
theorem valueOf_eq_ok {s : State} {a : Operand} {v : Word} : valueOf s a = .ok v ↔ s.Denotes a v := by
  constructor
  · intro h
    cases a with
    | reg n =>
      simp only [valueOf] at h
      split at h
      · next hn => injection h with h; subst h; exact .reg n hn
      · simp at h
    | imm w => simp only [valueOf, Except.ok.injEq] at h; subst h; exact .imm w
    | _ => simp [valueOf] at h
  · rintro (⟨n, hn⟩ | v)
    · exact valueOf_reg hn.1 hn.2
    · rfl

/-- An operand that denotes nothing raises `InvalidOperand` (R56). -/
theorem valueOf_of_notValue {s : State} {a : Operand} (h : s.NotValue a) :
    valueOf s a = .error (.raise .invalidOperand) := by
  cases hv : valueOf s a with
  | ok v => exact absurd (valueOf_eq_ok.mp hv) (h v)
  | error e => rw [valueOf_error hv]

/-- A `val` operand either denotes a value or raises `InvalidOperand`. -/
theorem valueOf_cases (s : State) (a : Operand) :
    (∃ v, s.Denotes a v ∧ valueOf s a = .ok v)
      ∨ (s.NotValue a ∧ valueOf s a = .error (.raise .invalidOperand)) := by
  by_cases h : ∃ v, s.Denotes a v
  · obtain ⟨v, hv⟩ := h; exact .inl ⟨v, hv, valueOf_eq_ok.mpr hv⟩
  · have hn : s.NotValue a := fun v hv => h ⟨v, hv⟩
    exact .inr ⟨hn, valueOf_of_notValue hn⟩

/-- A `dst` operand either is a register that exists or raises `InvalidOperand`. -/
theorem regDest_cases (s : State) (a : Operand) :
    (∃ n, a = .reg n ∧ s.HasReg n ∧ regDest s a = .ok n.toNat)
      ∨ ((∀ n, s.HasReg n → a ≠ .reg n) ∧ regDest s a = .error (.raise .invalidOperand)) := by
  cases h : regDest s a with
  | ok n =>
    obtain ⟨m, rfl, h1, h2, rfl⟩ := regDest_eq_ok.mp h
    exact .inl ⟨m, rfl, ⟨h1, h2⟩, rfl⟩
  | error e =>
    refine .inr ⟨?_, by rw [regDest_error h]⟩
    rintro n hn rfl
    rw [regDest_eq_ok.mpr ⟨n, rfl, hn.1, hn.2, rfl⟩] at h
    simp at h

theorem regDest_of_hasReg {s : State} {n : BitVec 32} (h : s.HasReg n) : regDest s (.reg n) = .ok n.toNat :=
  regDest_eq_ok.mpr ⟨n, rfl, h.1, h.2, rfl⟩

/-- An operand that denotes a value is there. -/
theorem State.Denotes.ne_absent {s : State} {a : Operand} {v : Word} (h : s.Denotes a v) : a ≠ .absent := by
  cases h <;> simp

theorem presence_of_ne_absent {a : Operand} (h : a ≠ .absent) : presence a = 1 := by
  cases a <;> first | rfl | exact absurd rfl h

@[simp] theorem presence_absent : presence .absent = 0 := rfl

/-- The one operand list with no argument. -/
theorem argc_eq_zero {r : Args} : argc r = 0 ↔ r = ⟨.absent, .absent, .absent, false⟩ := by
  obtain ⟨a0, a1, a2, xa⟩ := r
  cases a0 <;> cases a1 <;> cases a2 <;> cases xa <;> simp [argc, presence]

/-- The well-formed operand lists with one argument. -/
theorem argc_eq_one {r : Args} (hw : r.wellFormed = true) :
    argc r = 1 ↔ ∃ a0, a0 ≠ .absent ∧ r = ⟨a0, .absent, .absent, false⟩ := by
  obtain ⟨a0, a1, a2, xa⟩ := r
  cases a0 <;> cases a1 <;> cases a2 <;> cases xa <;>
    simp_all [argc, presence, Args.wellFormed, Args.noGap, Args.xaHasThird]

/-- The well-formed operand lists with two arguments. -/
theorem argc_eq_two {r : Args} (hw : r.wellFormed = true) :
    argc r = 2 ↔ ∃ a0 a1, a0 ≠ .absent ∧ a1 ≠ .absent ∧ r = ⟨a0, a1, .absent, false⟩ := by
  obtain ⟨a0, a1, a2, xa⟩ := r
  cases a0 <;> cases a1 <;> cases a2 <;> cases xa <;>
    simp_all [argc, presence, Args.wellFormed, Args.noGap, Args.xaHasThird]

/-- The well-formed operand lists with three arguments. -/
theorem argc_eq_three {r : Args} (hw : r.wellFormed = true) :
    argc r = 3 ↔ ∃ a0 a1 a2, a0 ≠ .absent ∧ a1 ≠ .absent ∧ a2 ≠ .absent ∧ r = ⟨a0, a1, a2, false⟩ := by
  obtain ⟨a0, a1, a2, xa⟩ := r
  cases a0 <;> cases a1 <;> cases a2 <;> cases xa <;>
    simp_all [argc, presence, Args.wellFormed, Args.noGap, Args.xaHasThird]

/-! ### The checks of an instruction, answered by the shape of its operand list -/

theorem checkArgc_two {a0 a1 : Operand} (h0 : a0 ≠ .absent) (h1 : a1 ≠ .absent) :
    checkArgc ⟨a0, a1, .absent, false⟩ [2] = .ok () :=
  checkArgc_eq_ok.mpr (by simp [argc, presence_of_ne_absent h0, presence_of_ne_absent h1])

theorem checkArgc_one {a0 : Operand} (h0 : a0 ≠ .absent) : checkArgc ⟨a0, .absent, .absent, false⟩ [1] = .ok () :=
  checkArgc_eq_ok.mpr (by simp [argc, presence_of_ne_absent h0])

theorem checkArgc_of_not_mem {r : Args} {l : List Nat} (h : argc r ∉ l) :
    checkArgc r l = .error (.raise .invalidOperand) := checkArgc_eq_error.mpr ⟨h, rfl⟩

/-- A `lit` operand either is an immediate or raises `InvalidOperand` (R56). -/
theorem litOf_cases (a : Operand) :
    (∃ v, a = .imm v ∧ litOf a = .ok v)
      ∨ ((∀ v, a ≠ .imm v) ∧ litOf a = .error (.raise .invalidOperand)) := by
  cases a <;> simp [litOf]

theorem inPortOf_of_none {s : State} {a : Operand} (h : ∀ p : BitVec 32, p.toNat < s.cfg.nin → a ≠ .pin p) :
    inPortOf s a = .error (.raise .deviceError) := by
  cases hp : inPortOf s a with
  | error e => rw [inPortOf_error hp]
  | ok p => obtain ⟨m, rfl, hm, _⟩ := inPortOf_eq_ok.mp hp; exact absurd rfl (h m hm)

theorem outPortOf_of_none {s : State} {a : Operand} (h : ∀ p : BitVec 32, p.toNat < s.cfg.nout → a ≠ .pout p) :
    outPortOf s a = .error (.raise .deviceError) := by
  cases hp : outPortOf s a with
  | error e => rw [outPortOf_error hp]
  | ok p => obtain ⟨m, rfl, hm, _⟩ := outPortOf_eq_ok.mp hp; exact absurd rfl (h m hm)

theorem validateIndex_of_inRange {size : Nat} {a : Word} (h : 0 ≤ a.toInt ∧ a.toInt < size) :
    validateIndex size a = .ok a.toInt.toNat := validateIndex_eq_ok.mpr ⟨h.1, h.2, by omega⟩

theorem validateIndex_of_outOfRange {size : Nat} {a : Word} (h : ¬ (0 ≤ a.toInt ∧ a.toInt < size)) :
    validateIndex size a = .error (.raise .outOfRange) := validateIndex_eq_error.mpr ⟨by omega, rfl⟩

/-- The operands of an arithmetic instruction in one of its two forms (R91). -/
theorem arithOperands_of_form {s : State} {r : Args} {n : BitVec 32} {a b : Word} (h : s.ArithForm n r a b) :
    arithOperands s r = .ok (n.toNat, a, b) := by
  rw [arithOperands_eq_ok]
  cases h with
  | three hn a1 a2 a b ha hb =>
    refine ⟨regDest_of_hasReg hn, .inl ⟨?_, valueOf_eq_ok.mpr ha, valueOf_eq_ok.mpr hb⟩⟩
    simp [argc, presence_of_ne_absent ha.ne_absent, presence_of_ne_absent hb.ne_absent,
      presence_of_ne_absent (a := .reg n)]
  | two hn a1 b hb =>
    refine ⟨regDest_of_hasReg hn, .inr ⟨?_, rfl, valueOf_eq_ok.mpr hb⟩⟩
    simp [argc, presence_of_ne_absent hb.ne_absent, presence_of_ne_absent (a := .reg n)]

/-- Every other operand list of an arithmetic instruction raises `InvalidOperand` (R91). -/
theorem arithOperands_of_no_form {s : State} {r : Args} (hw : r.wellFormed = true)
    (h : ∀ n a b, ¬ s.ArithForm n r a b) : arithOperands s r = .error (.raise .invalidOperand) := by
  cases hh : arithOperands s r with
  | error e => rw [arithOperands_error hh]
  | ok p =>
    obtain ⟨d, a, b⟩ := p
    rw [arithOperands_eq_ok] at hh
    obtain ⟨hd, ⟨h3, ha, hb⟩ | ⟨h2, rfl, hb⟩⟩ := hh
    · obtain ⟨a0, a1, a2, _, _, _, rfl⟩ := (argc_eq_three hw).mp h3
      obtain ⟨m, rfl, h1, h2, rfl⟩ := regDest_eq_ok.mp hd
      exact absurd (.three ⟨h1, h2⟩ a1 a2 a b (valueOf_eq_ok.mp ha) (valueOf_eq_ok.mp hb)) (h m a b)
    · obtain ⟨a0, a1, _, _, rfl⟩ := (argc_eq_two hw).mp h2
      obtain ⟨m, rfl, h1, h2, rfl⟩ := regDest_eq_ok.mp hd
      exact absurd (.two ⟨h1, h2⟩ a1 b (valueOf_eq_ok.mp hb)) (h m _ b)

end Sys2Proof.Machine
end

