-- ==== Sys2Proof/Tests/Slice0.lean ====
section
/-! SUPPORT. The author's tests: what WellFormed and Decode refuse, one written-out word for each instruction, one or two
steps of each, with the values of spec/95_test_vectors.md or of the rule named, and for each obligation with hypotheses
states that meet them. -/

open Sys2Proof Sys2Proof.Machine

namespace Sys2Proof.Tests

/-! ### Records and words that are refused (30_encoding.md R53) -/

/-- Condition 4: an operand after an absent one (V-W6). -/
theorem test_wellFormed_refuses_gap : Instr.wellFormed (.mov ⟨.absent, .imm 1, .absent, false⟩) = false := by decide

/-- Condition 4, between the second and the third operand. -/
theorem test_wellFormed_refuses_second_gap :
    Instr.wellFormed (.add ⟨.reg 1, .absent, .imm 1, false⟩) = false := by decide

/-- Condition 5: `XA` without a third operand (V-W7). -/
theorem test_wellFormed_refuses_xa : Instr.wellFormed (.add ⟨.reg 1, .reg 2, .absent, true⟩) = false := by decide

/-- V-W3. -/
theorem test_decode_refuses_opcode_21 : decode 0x15000000000000000000000000000000#128 = .error .reservedOpcode := by
  decide
/-- V-W4. -/
theorem test_decode_refuses_kind_6 : decode 0x01600000000000000000000000000000#128 = .error .reservedKind := by decide
/-- V-W5. -/
theorem test_decode_refuses_reserved_bits : decode 0x01000001000000000000000000000000#128 = .error .reservedBits := by
  decide
/-- V-W6. -/
theorem test_decode_refuses_gap : decode 0x01020000000000000000000000000000#128 = .error .operandGap := by decide
/-- V-W7. -/
theorem test_decode_refuses_xa : decode 0x02110800000000000000000000000000#128 = .error .xaWithoutThird := by decide
/-- V-W8. -/
theorem test_decode_refuses_bad_value : decode 0x01500000000000010000000000000000#128 = .error .valueInEmptyOperand := by
  decide
/-- V-W9. -/
theorem test_decode_refuses_nonzero_empty : decode 0x00000000000000000000000000000001#128 = .error .nonzeroEmpty := by
  decide
/-- V-W10. -/
theorem test_decode_refuses_opcode_255 : decode 0xFF000000000000000000000000000000#128 = .error .reservedOpcode := by
  decide

/-! ### One word for each instruction, written out from R51 to R54 (R63 and 95_test_vectors.md) -/

/-- V-W1. -/
theorem test_decode_empty : decode 0x00000000000000000000000000000000#128 = .ok .empty := by decide
/-- `MOV R1,-1` (R63). -/
theorem test_decode_mov :
    decode 0x0112000000000001FFFFFFFF00000000#128 = .ok (.mov ⟨.reg 1, .imm (-1), .absent, false⟩) := by decide
/-- `ADD R1,R2,R3,R4` (R63). -/
theorem test_decode_add :
    decode 0x02111800000000010000000200000003#128 = .ok (.add ⟨.reg 1, .reg 2, .reg 3, true⟩) := by decide
/-- `SUB R1,R2`. -/
theorem test_decode_sub :
    decode 0x03110000000000010000000200000000#128 = .ok (.sub ⟨.reg 1, .reg 2, .absent, false⟩) := by decide
/-- `MUL R1,2` (R63). -/
theorem test_decode_mul :
    decode 0x04120000000000010000000200000000#128 = .ok (.mul ⟨.reg 1, .imm 2, .absent, false⟩) := by decide
/-- `DIV R1,R2,R3` (R63). -/
theorem test_decode_div :
    decode 0x05111000000000010000000200000003#128 = .ok (.div ⟨.reg 1, .reg 2, .reg 3, false⟩) := by decide
/-- `MOD R1,R2,R3`. -/
theorem test_decode_mod :
    decode 0x06111000000000010000000200000003#128 = .ok (.mod ⟨.reg 1, .reg 2, .reg 3, false⟩) := by decide
/-- `CMP R1,50` (R63). -/
theorem test_decode_cmp :
    decode 0x07120000000000010000003200000000#128 = .ok (.cmp ⟨.reg 1, .imm 50, .absent, false⟩) := by decide
/-- `JMP 6` (P1). -/
theorem test_decode_jmp :
    decode 0x08200000000000060000000000000000#128 = .ok (.jmp ⟨.imm 6, .absent, .absent, false⟩) := by decide
/-- `JE 5` (R63). -/
theorem test_decode_je :
    decode 0x09200000000000050000000000000000#128 = .ok (.je ⟨.imm 5, .absent, .absent, false⟩) := by decide
/-- `JNE 4` (P2). -/
theorem test_decode_jne :
    decode 0x0A200000000000040000000000000000#128 = .ok (.jne ⟨.imm 4, .absent, .absent, false⟩) := by decide
/-- `LOAD R3,100` (P2). -/
theorem test_decode_load :
    decode 0x0B120000000000030000006400000000#128 = .ok (.load ⟨.reg 3, .imm 100, .absent, false⟩) := by decide
/-- `STORE 7,50`. -/
theorem test_decode_store :
    decode 0x0C220000000000070000003200000000#128 = .ok (.store ⟨.imm 7, .imm 50, .absent, false⟩) := by decide
/-- `CACHE R1,-3`. -/
theorem test_decode_cache :
    decode 0x0D12000000000001FFFFFFFD00000000#128 = .ok (.cache ⟨.reg 1, .imm (-3), .absent, false⟩) := by decide
/-- `DISK_READ R2,10` (P3). -/
theorem test_decode_diskRead :
    decode 0x0E120000000000020000000A00000000#128 = .ok (.diskRead ⟨.reg 2, .imm 10, .absent, false⟩) := by decide
/-- `DISK_WRITE R1,10` (P3). -/
theorem test_decode_diskWrite :
    decode 0x0F120000000000010000000A00000000#128 = .ok (.diskWrite ⟨.reg 1, .imm 10, .absent, false⟩) := by decide
/-- `DISK_SEEK 64`. -/
theorem test_decode_diskSeek :
    decode 0x10200000000000400000000000000000#128 = .ok (.diskSeek ⟨.imm 64, .absent, .absent, false⟩) := by decide
/-- `IN R1,OUT0` (V-P2): a port of the wrong direction decodes, and faults when it is executed. -/
theorem test_decode_in :
    decode 0x11140000000000010000000000000000#128 = .ok (.inp ⟨.reg 1, .pout 0, .absent, false⟩) := by decide
/-- `OUT R1,IN0` (V-P7). -/
theorem test_decode_out :
    decode 0x12130000000000010000000000000000#128 = .ok (.out ⟨.reg 1, .pin 0, .absent, false⟩) := by decide
/-- `CACHE_FLUSH` (R63). -/
theorem test_decode_cacheFlush :
    decode 0x13000000000000000000000000000000#128 = .ok (.cacheFlush ⟨.absent, .absent, .absent, false⟩) := by decide
/-- `CACHE_INVALIDATE 7`. -/
theorem test_decode_cacheInvalidate :
    decode 0x14200000000000070000000000000000#128 = .ok (.cacheInvalidate ⟨.imm 7, .absent, .absent, false⟩) := by
  decide

/-- `MOV R9,abc` (R63), from the table's bit numbering. -/
theorem test_decodeTableWord :
    decodeTableWord 128 0x01150000000000090000000000000000 = some (.mov ⟨.reg 9, .bad, .absent, false⟩) := by decide

/-- A comment line, a blank line, and a lower-case line with white space around its tokens (R59, R60, P2). -/
theorem test_assemble :
    assemble Config.default ['\t', 'm', 'o', 'v', ' ', 'R', '1', ' ', ',', '-', '5', '\r', '\n', '\n', ';', 'c', '\n']
      = .ok [0x0112000000000001FFFFFFFB00000000#128, 0, 0] := by decide

/-- A line whose first token is no mnemonic is refused, with its line number (R60). -/
theorem test_assemble_refuses : assemble Config.default ['\n', 'N', 'O', 'P'] = .error 2 := by decide

/-! ### Small states -/

/-- The next state of an outcome, if there is one. -/
def nextOf (o : Host.Outcome State Fault Refusal) : Option State :=
  match o with
  | .next t => some t
  | .fault _ => none
  | .refused _ => none

/-- What one item of the state is after an instruction. -/
def after {α : Type} (i : Instr) (s : State) (f : State → α) : Option α :=
  match exec i s with
  | .next t => some (f t)
  | .fault _ => none
  | .refused _ => none

/-- The kind and line of the fault an instruction raises. -/
def faultOf (i : Instr) (s : State) : Option FaultRecord := after i s fun t => t.fault

/-- The word of `MOV R1,10`. -/
def movWord : IWord := 0x01120000000000010000000A00000000#128

/-- An engine running a two-line program, with something in each of its stores. -/
def ready : State :=
  { State.reset with
    run := .running
    prog := [movWord, movWord]
    regs := [(1, 5), (2, -7)]
    flags := ⟨true, true, false, false, true⟩
    mem := [(50, 9)]
    cache := [(7, 4)]
    disk := [(3, ⟨42, true⟩)]
    head := 10
    inq := [(0, [7, 9])] }

/-- `ready` with other values in registers 1 and 2. -/
def withRegs (a b : Word) : State := (ready.writeReg 1 a).writeReg 2 b

/-- `DIV R3,R1,R2`. -/
def divInstr : Instr := .div ⟨.reg 3, .reg 1, .reg 2, false⟩
/-- `MOD R3,R1,R2`. -/
def modInstr : Instr := .mod ⟨.reg 3, .reg 1, .reg 2, false⟩

/-- What `DIV` and `MOD` of two values give (one row of the table of R97). -/
def divMod (a b : Word) : Option Int × Option Int :=
  (after divInstr (withRegs a b) fun t => (t.readReg 3).toInt, after modInstr (withRegs a b) fun t => (t.readReg 3).toInt)

/-! ### Moves and arithmetic (R90 to R97) -/

/-- V-M1: the least word, and the booking of the instruction (R77, R78). -/
theorem test_mov : after (.mov ⟨.reg 8, .imm 0x80000000, .absent, false⟩) ready
    (fun t => ((t.readReg 8).toInt, t.pc, t.cycles, t.executed)) = some (-2147483648, 1, 1, 2) := by decide
/-- V-M2, V-M5: register 9 of 8, and three arguments. -/
theorem test_mov_faults : faultOf (.mov ⟨.reg 9, .imm 1, .absent, false⟩) ready = some ⟨.invalidOperand, 1⟩
    ∧ faultOf (.mov ⟨.reg 1, .imm 2, .imm 3, false⟩) ready = some ⟨.invalidOperand, 1⟩ := by decide
/-- V-A1, V-A3: wrap-around, and a source that is the destination. -/
theorem test_add : after (.add ⟨.reg 1, .imm 1, .absent, false⟩) (withRegs 2147483647 0) (fun t => (t.readReg 1).toInt)
      = some (-2147483648)
    ∧ after (.add ⟨.reg 1, .reg 1, .reg 1, false⟩) (withRegs 3 0) (fun t => (t.readReg 1).toInt) = some 6 := by decide
/-- V-A11: four arguments; and R4 with `Overflow` = `refuse`: no step (93_implementation_defined.md U1). -/
theorem test_add_stops : faultOf (.add ⟨.reg 1, .reg 2, .reg 3, true⟩) ready = some ⟨.invalidOperand, 1⟩
    ∧ exec (.add ⟨.reg 1, .imm 1, .absent, false⟩) { withRegs 2147483647 0 with cfg.overflow := .refuse }
      = .refused (.overflowNotAdmitted 2147483648) := ⟨by decide, rfl⟩
/-- R93: left minus right in both forms (V-A4). -/
theorem test_sub : after (.sub ⟨.reg 3, .reg 1, .reg 2, false⟩) (withRegs 20 4) (fun t => (t.readReg 3).toInt) = some 16
    ∧ after (.sub ⟨.reg 1, .reg 2, .absent, false⟩) (withRegs 20 4) (fun t => (t.readReg 1).toInt) = some 16 := by decide
/-- V-A5. -/
theorem test_sub_wraps : after (.sub ⟨.reg 1, .imm 1, .absent, false⟩) (withRegs 0x80000000 0)
    (fun t => (t.readReg 1).toInt) = some 2147483647 := by decide
/-- V-A6, V-A7. -/
theorem test_mul : after (.mul ⟨.reg 1, .reg 1, .absent, false⟩) (withRegs 65536 0) (fun t => (t.readReg 1).toInt) = some 0
    ∧ after (.mul ⟨.reg 1, .imm 0x80000000, .absent, false⟩) (withRegs (-1) 0) (fun t => (t.readReg 1).toInt)
      = some (-2147483648) := by decide
/-- V-A8. -/
theorem test_mul_signed : after (.mul ⟨.reg 2, .reg 1, .imm 6, false⟩) (withRegs (-7) 0)
    (fun t => (t.readReg 2).toInt) = some (-42) := by decide
/-- The rows of the table of R97 in which a sign is negative, and those at the ends of the range. -/
theorem test_divMod : divMod (-7) 2 = (some (-4), some 1) ∧ divMod 7 (-2) = (some (-4), some (-1))
    ∧ divMod (-7) (-2) = (some 3, some (-1)) ∧ divMod (-1) 2 = (some (-1), some 1)
    ∧ divMod 1 (-2) = (some (-1), some (-1)) ∧ divMod (-6) 3 = (some (-2), some 0)
    ∧ divMod 0x80000000 (-1) = (some (-2147483648), some 0)
    ∧ divMod 0x80000000 1 = (some (-2147483648), some 0) ∧ divMod 2147483647 (-1) = (some (-2147483647), some 0) := by
  decide
/-- V-D1 with `DivMod` = `trunc`. -/
theorem test_divMod_trunc :
    after divInstr { withRegs (-7) 2 with cfg.divMod := .trunc } (fun t => (t.readReg 3).toInt) = some (-3)
    ∧ after modInstr { withRegs (-7) 2 with cfg.divMod := .trunc } (fun t => (t.readReg 3).toInt) = some (-1) := by
  decide
/-- V-D4, V-D6: the divisor 0, and the operand that is checked before it. -/
theorem test_div_faults : faultOf (.div ⟨.reg 1, .imm 0, .absent, false⟩) ready = some ⟨.arithmeticError, 1⟩
    ∧ faultOf (.div ⟨.reg 9, .reg 1, .imm 0, false⟩) ready = some ⟨.invalidOperand, 1⟩ := by decide
/-- V-D5: the destination keeps its value. -/
theorem test_mod_faults : after (.mod ⟨.reg 1, .reg 3, .absent, false⟩) ready
    (fun t => (t.fault, t.readReg 1, t.cycles, t.executed, t.pc)) = some (⟨.arithmeticError, 1⟩, 5, 0, 0, 0) := by
  decide

/-! ### Comparison and jumps (R100 to R104) -/

/-- V-C2: signed, not by a wrapping subtraction. -/
theorem test_cmp : after (.cmp ⟨.reg 1, .imm 1, .absent, false⟩) (withRegs 0x80000000 0) (fun t => t.flags)
    = some ⟨true, false, false, true, false⟩ := by decide
/-- V-C3, V-C4. -/
theorem test_cmp_equal_greater : after (.cmp ⟨.imm 3, .imm 3, .absent, false⟩) ready (fun t => t.flags)
      = some ⟨true, true, false, false, true⟩
    ∧ after (.cmp ⟨.reg 1, .imm 4, .absent, false⟩) (withRegs 9 0) (fun t => t.flags)
      = some ⟨true, false, true, false, false⟩ := by decide
/-- R101: the last line, and one past the end (V-J5). -/
theorem test_jmp : after (.jmp ⟨.imm 2, .absent, .absent, false⟩) ready (fun t => t.pc) = some 1
    ∧ faultOf (.jmp ⟨.imm 3, .absent, .absent, false⟩) ready = some ⟨.outOfRange, 1⟩ := by decide
/-- V-J4, V-J7. -/
theorem test_jmp_faults : faultOf (.jmp ⟨.imm 0, .absent, .absent, false⟩) ready = some ⟨.outOfRange, 1⟩
    ∧ faultOf (.jmp ⟨.reg 1, .absent, .absent, false⟩) ready = some ⟨.invalidOperand, 1⟩ := by decide
/-- V-J12 and V-J1: taken on equal, not before any CMP. -/
theorem test_je : after (.je ⟨.imm 1, .absent, .absent, false⟩) ready (fun t => t.pc) = some 0
    ∧ after (.je ⟨.imm 1, .absent, .absent, false⟩)
      { ready with flags := ⟨false, false, false, false, false⟩ } (fun t => t.pc) = some 1 := by decide
/-- V-J6: the target is checked though the jump is not taken. -/
theorem test_je_faults : faultOf (.je ⟨.imm 9, .absent, .absent, false⟩)
    { ready with flags := ⟨true, false, true, false, false⟩ } = some ⟨.outOfRange, 1⟩ := by decide
/-- V-J10, V-J11. -/
theorem test_jne : after (.jne ⟨.imm 1, .absent, .absent, false⟩)
      { ready with flags := ⟨true, false, true, false, false⟩ } (fun t => t.pc) = some 0
    ∧ after (.jne ⟨.imm 1, .absent, .absent, false⟩) ready (fun t => t.pc) = some 1 := by decide
/-- V-J1: not taken before any CMP. -/
theorem test_jne_undefined : after (.jne ⟨.imm 1, .absent, .absent, false⟩)
    { ready with flags := ⟨false, false, false, false, false⟩ } (fun t => t.pc) = some 1 := by decide

/-! ### RAM and cache (R110 to R114) -/

/-- V-L1. -/
theorem test_load : after (.load ⟨.reg 2, .imm 50, .absent, false⟩) ready
    (fun t => (t.readReg 2, t.readOps, t.time2)) = some (9, 1, 200) := by decide
/-- V-L3, V-L4, V-L7. -/
theorem test_load_faults : faultOf (.load ⟨.reg 1, .imm 1024, .absent, false⟩) ready = some ⟨.outOfRange, 1⟩
    ∧ faultOf (.load ⟨.reg 1, .imm (-1), .absent, false⟩) ready = some ⟨.outOfRange, 1⟩
    ∧ faultOf (.load ⟨.reg 9, .imm 5000, .absent, false⟩) ready = some ⟨.invalidOperand, 1⟩ := by decide
/-- V-L2. -/
theorem test_store : after (.store ⟨.imm 7, .imm 1023, .absent, false⟩) ready
    (fun t => (t.readMem 1023, t.readMem 50, t.writeOps, t.time2)) = some (7, 9, 1, 200) := by decide
/-- The canonical form: storing 0 unlists the address (log 8); and V-L5. -/
theorem test_store_zero : after (.store ⟨.imm 0, .imm 50, .absent, false⟩) ready (fun t => t.mem) = some []
    ∧ faultOf (.store ⟨.reg 1, .imm 1024, .absent, false⟩) ready = some ⟨.outOfRange, 1⟩ := by decide
/-- A hit (R112). -/
theorem test_cache_hit : after (.cache ⟨.reg 2, .imm 7, .absent, false⟩) ready
    (fun t => (t.readReg 2, t.cacheHits, t.cacheMisses, t.readOps, t.time2)) = some (4, 1, 0, 0, 2) := by decide
/-- A miss (R112, V-K1): the entry and the register hold the same word, whatever it is. -/
theorem test_cache_miss : after (.cache ⟨.reg 2, .imm (-3), .absent, false⟩) ready
    (fun t => (t.cached (-3), t.cacheHits, t.cacheMisses, t.readOps, t.time2))
      = some (some (Config.cacheFill 0 (-3)), 0, 1, 1, 200)
    ∧ after (.cache ⟨.reg 2, .imm (-3), .absent, false⟩) ready (fun t => t.cacheDraws) = some 1 := ⟨rfl, rfl⟩
/-- R113, and V-K6. -/
theorem test_cacheFlush : after (.cacheFlush ⟨.absent, .absent, .absent, false⟩) ready (fun t => (t.cache, t.time2))
      = some ([], 0)
    ∧ faultOf (.cacheFlush ⟨.imm 1, .absent, .absent, false⟩) ready = some ⟨.invalidOperand, 1⟩ := by decide
/-- R114, and V-K5. -/
theorem test_cacheInvalidate : after (.cacheInvalidate ⟨.imm 7, .absent, .absent, false⟩)
      { ready with cache := [(7, 4), (9, 1)] } (fun t => t.cache) = some [(9, 1)]
    ∧ after (.cacheInvalidate ⟨.imm 5, .absent, .absent, false⟩) ready (fun t => t.cache) = some [(7, 4)] := by decide

/-! ### Disk (R120 to R122) -/

/-- R120. -/
theorem test_diskRead : after (.diskRead ⟨.reg 1, .imm 3, .absent, false⟩) ready
    (fun t => (t.readReg 1, t.readOps, t.time2, t.head)) = some (42, 1, 20, 10) := by decide
/-- V-S3, and V-S1: an unallocated sector reads as 0. -/
theorem test_diskRead_ends : faultOf (.diskRead ⟨.reg 1, .imm 64, .absent, false⟩) ready = some ⟨.outOfRange, 1⟩
    ∧ after (.diskRead ⟨.reg 1, .imm 63, .absent, false⟩) ready (fun t => t.readReg 1) = some 0 := by decide
/-- R121: `DISK_WRITE R2,63` with -7. -/
theorem test_diskWrite : after (.diskWrite ⟨.reg 2, .imm 63, .absent, false⟩) ready
    (fun t => (t.sector 63, t.writeOps, t.time2, t.head)) = some (⟨-7, true⟩, 1, 20, 10) := by decide
/-- V-S2: the value 0 still sets the allocated bit. -/
theorem test_diskWrite_zero : after (.diskWrite ⟨.imm 0, .imm 5, .absent, false⟩) ready (fun t => t.sector 5)
    = some ⟨0, true⟩ := by decide
/-- V-S4: from 10 to 4 costs 6, from 10 to 63 costs 53. -/
theorem test_diskSeek : after (.diskSeek ⟨.imm 4, .absent, .absent, false⟩) ready (fun t => (t.head, t.time2)) = some (4, 6)
    ∧ after (.diskSeek ⟨.imm 63, .absent, .absent, false⟩) ready (fun t => (t.head, t.time2)) = some (63, 53) := by decide
/-- V-S3: the head and the time stay. -/
theorem test_diskSeek_faults : after (.diskSeek ⟨.imm 64, .absent, .absent, false⟩) ready
    (fun t => (t.fault, t.head, t.time2)) = some (⟨.outOfRange, 1⟩, 10, 0) := by decide

/-! ### Ports (R130 to R132) -/

/-- V-P1, and an empty buffer, which gives some word. -/
theorem test_in : after (.inp ⟨.reg 1, .pin 0, .absent, false⟩) ready (fun t => (t.readReg 1, t.inBuffer 0)) = some (7, [9])
    ∧ after (.inp ⟨.reg 1, .pin 0, .absent, false⟩) { ready with inq := [] } (fun t => t.inputDraws) = some 1 :=
  ⟨by decide, rfl⟩
/-- V-P2, V-P3, V-P4. -/
theorem test_in_faults : faultOf (.inp ⟨.reg 1, .pout 0, .absent, false⟩) ready = some ⟨.deviceError, 1⟩
    ∧ faultOf (.inp ⟨.reg 1, .pin 1, .absent, false⟩) ready = some ⟨.deviceError, 1⟩
    ∧ faultOf (.inp ⟨.reg 9, .pout 0, .absent, false⟩) ready = some ⟨.invalidOperand, 1⟩ := by decide
/-- V-P8. -/
theorem test_out : after (.out ⟨.imm (-1), .pout 0, .absent, false⟩) { ready with outq := [(0, [5])] }
    (fun t => t.outRecord 0) = some [5, -1] := by decide
/-- V-P7, V-P9. -/
theorem test_out_faults : faultOf (.out ⟨.reg 1, .pin 0, .absent, false⟩) ready = some ⟨.deviceError, 1⟩
    ∧ faultOf (.out ⟨.reg 9, .pout 0, .absent, false⟩) ready = some ⟨.invalidOperand, 1⟩ := by decide
/-- R132, V-P10. -/
theorem test_inject : (hostInject 0 3 ready).1.inBuffer 0 = [7, 9, 3] ∧ (hostInject 1 5 ready).2 = .noSuchPort := by
  decide

/-! ### The engine (R70 to R82) -/

/-- V-E1. -/
theorem test_step_idle : step State.reset = .next State.reset ∧ stepResult State.reset = some .notRunning :=
  ⟨rfl, rfl⟩
/-- V-E4, its first tick: line 1 is a comment. -/
theorem test_step_skips : stepResult { ready with prog := [0, movWord] } = some (.executed 2)
    ∧ (nextOf (step { ready with prog := [0, movWord] })).map (fun t => (t.readReg 1, t.pc, t.cycles))
      = some (10, 2, 1) := by decide
/-- V-E3: a program of comments completes on the first tick. -/
theorem test_step_completes : step { ready with prog := [0, 0, 0] }
    = .next { ready with prog := [0, 0, 0], pc := 3, run := .completed } := rfl
/-- V-E5: the image is refused for its third word and nothing changes. -/
theorem test_start_refuses : hostStart [movWord, movWord, 0x15000000000000000000000000000000#128] ready
    = (ready, .parseError 3) := by decide
/-- Placing a word where STEP fetches is what START does with a one-word image (log 3). -/
theorem test_withFetchWord : State.reset.withFetchWord 128 movWord.toNat = (hostStart [movWord] State.reset).1 := by decide
/-- That word is the first instruction run after reset. -/
theorem test_withFetchWord_step : (nextOf (step (State.reset.withFetchWord 128 movWord.toNat))).map
    (fun t => (t.readReg 1, t.pc, t.executed)) = some (10, 1, 2) := by decide

/-! ### States that meet the hypotheses of the obligations -/

theorem movWord_wellFormed : ∀ iw ∈ [movWord, movWord], wordWellFormed iw = true := by
  intro iw h
  simp only [List.mem_cons, List.not_mem_nil, or_false, or_self] at h
  subst h
  decide

/-- `ready` meets the invariant. -/
theorem ready_valid : ready.Valid where
  cfgLegal := by decide
  regsWf := by decide
  memWf := by decide
  cacheWf := by decide
  diskWf := by decide
  diskAlloc := by
    intro n
    by_cases h : n = 3
    · subst h; decide
    · have : ready.sector n = Sector.blank := by
        simp [State.sector, ready, Cells.read, Cells.lookup, Ne.symm h]
      rw [this]; decide
  headInRange := by decide
  inqWf := by decide
  outqWf := by decide
  progFits := Nat.le_of_ble_eq_true rfl
  progWords := movWord_wellFormed
  pcInRange := by decide
  idleEmpty := by decide
  completedAtEnd := by decide
  faultedHere := by decide
  unfaulted := by decide
  flagsLegal := by decide
  executedBits := by decide

/-- Registers 1 and 8, the first and the last, exist. -/
theorem hasReg_one : ready.HasReg 1 := ⟨by decide, by decide⟩
theorem hasReg_eight : ready.HasReg 8 := ⟨by decide, by decide⟩

/-- Register 1 of `ready` denotes 5; the least word denotes itself. -/
theorem denotes_reg : ready.Denotes (.reg 1) 5 := .reg 1 hasReg_one
theorem denotes_imm : ready.Denotes (.imm 0x80000000) 0x80000000 := .imm _

/-- Registers 0 and 9 do not exist. -/
theorem no_reg_zero : ¬ ready.HasReg 0 := fun h => absurd h.1 (by decide)
theorem no_reg_nine : ¬ ready.HasReg 9 := fun h => absurd h.2 (by decide)

/-- A register that does not exist denotes nothing. -/
theorem reg_nine_denotes_nothing : ∀ v, ¬ ready.Denotes (.reg 9) v := by
  intro v h
  cases h with
  | reg n hn => exact no_reg_nine hn

theorem witness_EncodeThenDecode : Instr.wellFormed (.add ⟨.reg 0xFFFFFFFF, .bad, .pout 7, true⟩) = true
    ∧ Instr.wellFormed .empty = true := by decide

theorem witness_DecodeThenEncode : decode 0x02111800000000010000000200000003#128
    = .ok (.add ⟨.reg 1, .reg 2, .reg 3, true⟩) := test_decode_add

theorem witness_StepRunsDecodedInstruction : ready.run = .running ∧ ready.pc.toNat < ready.progLen
    ∧ ready.slot ready.pc.toNat ≠ 0
    ∧ decode (ready.slot ready.pc.toNat) = .ok (.mov ⟨.reg 1, .imm 10, .absent, false⟩) := by decide

theorem witness_EmptySlotIsPassedOver : ({ ready with prog := [0, movWord] } : State).run = .running
    ∧ ({ ready with prog := [0, movWord] } : State).pc.toNat < ({ ready with prog := [0, movWord] } : State).progLen
    ∧ ({ ready with prog := [0, movWord] } : State).progLen < 2 ^ 32
    ∧ ({ ready with prog := [0, movWord] } : State).slot 0 = 0 := by decide

/-- An EMPTY slot after the last instruction, and the boundary: `pc` already at the end. -/
theorem witness_StepCompletesAtEnd :
    (∀ k, (1 : Nat) ≤ k → ({ ready with prog := [movWord, 0], pc := 1 } : State).slot k = 0)
    ∧ ∀ k, (2 : Nat) ≤ k → ({ ready with pc := 2 } : State).slot k = 0 := by
  constructor
  · intro k hk; match k, hk with | 1, _ => rfl | k + 2, _ => rfl
  · intro k hk; match k, hk with | k + 2, _ => rfl

/-- The first and the last byte of the second word of an image of two. -/
theorem witness_ImageBytesRoundTrip : (imageToBytes [0, movWord])[16]? = some 0x01
    ∧ (imageToBytes [0, movWord])[31]? = some (movWord.extractLsb' 0 8) := by decide

theorem witness_StepOutsideRunning : State.reset.run ≠ .running ∧ (hostStart [movWord] State.reset).2 = .ok := by decide

/-- One state for each result of STEP. -/
theorem witness_StepResultIsTruthful : stepResult ready = some (.executed 1)
    ∧ stepResult { ready with pc := 2 } = some .completed
    ∧ stepResult { ready with prog := [0x01000000000000000000000000000000#128] } = some (.faulted .invalidOperand 1)
    ∧ stepResult State.reset = some .notRunning
    ∧ ready.progLen < 2 ^ 32 ∧ (nextOf (step ready)).isSome = true := by decide

/-- A jump to the last line, a JE taken, a JE not taken. -/
theorem witness_NextSlotOrJumpTarget : Instr.jmp ⟨.imm 2, .absent, .absent, false⟩ ≠ .empty ∧
    after (.jmp ⟨.imm 2, .absent, .absent, false⟩) ready (fun t => t.run) = some .running
    ∧ after (.je ⟨.imm 1, .absent, .absent, false⟩) ready (fun t => t.run) = some .running ∧ ready.flags.fe = true
    ∧ after (.jne ⟨.imm 1, .absent, .absent, false⟩) ready (fun t => t.run) = some .running := by decide

theorem witness_ValidStepHasNext : ready.Valid ∧ ready.cfg.overflow = .wrap := ⟨ready_valid, rfl⟩

/-- The least and the greatest legal parameters. -/
theorem witness_ResetIsValid : (Config.legal ⟨1, 256, 1, 1, 1, 1, .refuse, .trunc⟩) = true
    ∧ (Config.legal ⟨2 ^ 32 - 1, 2 ^ 31, 2 ^ 31, 2 ^ 32, 2 ^ 32, 2 ^ 31 - 1, .wrap, .floor⟩) = true := by decide

theorem witness_StepKeepsValid : ready.Valid ∧ (nextOf (step ready)).isSome = true := ⟨ready_valid, by decide⟩

theorem witness_HostOperationsKeepValid : ready.Valid
    ∧ (nextOf (applyOps [.inject 0 7, .start [movWord], .step, .reset] ready)).isSome = true :=
  ⟨ready_valid, by decide⟩

theorem witness_MovRule : ready.HasReg 8 ∧ ready.Denotes (.imm 0x80000000) 0x80000000 ∧ ready.Denotes (.reg 1) 5 :=
  ⟨hasReg_eight, denotes_imm, denotes_reg⟩

/-- A destination that does not exist. -/
theorem witness_MovRule_faults : Args.wellFormed ⟨.reg 9, .imm 1, .absent, false⟩ = true
    ∧ ∀ n a1 v, ready.HasReg n → ready.Denotes a1 v →
      (⟨.reg 9, .imm 1, .absent, false⟩ : Args) ≠ ⟨.reg n, a1, .absent, false⟩ := by
  refine ⟨by decide, ?_⟩
  intro n a1 v hn _ h
  simp only [Args.mk.injEq, Operand.reg.injEq] at h
  exact no_reg_nine (h.1 ▸ hn)

/-- Both arithmetic forms, and the two sides of the overflow condition. -/
theorem witness_ArithForm : ready.ArithForm 8 ⟨.reg 8, .imm 0x80000000, .reg 1, false⟩ 0x80000000 5
    ∧ ready.ArithForm 1 ⟨.reg 1, .imm 0, .absent, false⟩ 5 0
    ∧ fitsWord 2147483647 = true ∧ fitsWord 2147483648 = false :=
  ⟨.three hasReg_eight _ _ _ _ denotes_imm denotes_reg, .two hasReg_one _ _ (.imm 0), by decide, by decide⟩

/-- An operand list that neither form admits: four arguments. -/
theorem witness_ArithForm_faults : Args.wellFormed ⟨.reg 1, .imm 1, .imm 2, true⟩ = true
    ∧ ∀ n a b, ¬ ready.ArithForm n ⟨.reg 1, .imm 1, .imm 2, true⟩ a b :=
  ⟨by decide, fun n a b h => by cases h⟩

/-- `ready` with the parameter `Overflow` = `refuse`. -/
def refusing : State := { ready with cfg := { ready.cfg with overflow := .refuse } }

/-- With each overflow rule: the one quotient that fits no word, and its neighbours, in a form of DIV. -/
theorem witness_OnlyOneQuotientOverflows : ready.ArithForm 8 ⟨.reg 8, .imm 0x80000000, .imm (-1), false⟩ 0x80000000 (-1)
    ∧ ready.ArithForm 8 ⟨.reg 8, .imm 0x80000001, .imm (-1), false⟩ 0x80000001 (-1)
    ∧ ready.ArithForm 8 ⟨.reg 8, .imm 0x80000000, .imm 1, false⟩ 0x80000000 1
    ∧ (-1 : Word) ≠ 0 ∧ (0x80000000 : Word).toInt = -2147483648 ∧ (-1 : Word).toInt = -1
    ∧ ready.cfg.overflow = .wrap
    ∧ refusing.cfg.overflow = .refuse
    ∧ refusing.ArithForm 8 ⟨.reg 8, .imm 0x80000000, .imm (-1), false⟩ 0x80000000 (-1) :=
  ⟨.three hasReg_eight _ _ _ _ denotes_imm (.imm _), .three hasReg_eight _ _ _ _ (.imm _) (.imm _),
    .three hasReg_eight _ _ _ _ denotes_imm (.imm _), by decide, by decide, by decide, rfl, rfl,
    .three ⟨by decide, by decide⟩ _ _ _ _ (.imm _) (.imm _)⟩

theorem witness_CmpRule : ready.Denotes (.reg 1) 5 ∧ ready.Denotes (.imm 0x80000000) 0x80000000 :=
  ⟨denotes_reg, denotes_imm⟩

/-- A second operand that denotes nothing (for CMP). -/
theorem witness_CmpRule_faults : Args.wellFormed ⟨.imm 1, .reg 9, .absent, false⟩ = true
    ∧ ∀ a0 a1 a b, ready.Denotes a0 a → ready.Denotes a1 b →
      (⟨.imm 1, .reg 9, .absent, false⟩ : Args) ≠ ⟨a0, a1, .absent, false⟩ := by
  refine ⟨by decide, ?_⟩
  intro a0 a1 a b _ hb h
  simp only [Args.mk.injEq] at h
  exact reg_nine_denotes_nothing b (h.2.1 ▸ hb)

/-- The first and the last line are in range; line 0 and one past the end are not; a register is no line. -/
theorem witness_JumpsRule : (1 ≤ (1 : Word).toInt ∧ (1 : Word).toInt ≤ ready.progLen)
    ∧ (1 ≤ (2 : Word).toInt ∧ (2 : Word).toInt ≤ ready.progLen)
    ∧ ¬ (1 ≤ (0 : Word).toInt ∧ (0 : Word).toInt ≤ ready.progLen)
    ∧ ¬ (1 ≤ (3 : Word).toInt ∧ (3 : Word).toInt ≤ ready.progLen)
    ∧ Args.wellFormed ⟨.reg 1, .absent, .absent, false⟩ = true
    ∧ ∀ line, (⟨.reg 1, .absent, .absent, false⟩ : Args) ≠ ⟨.imm line, .absent, .absent, false⟩ :=
  ⟨by decide, by decide, by decide, by decide, by decide, fun line => by simp⟩

theorem witness_ConditionalJumpsAfterCmp : ready.Valid ∧ ready.run = .running
    ∧ after (.cmp ⟨.reg 1, .imm 4, .absent, false⟩) ready (fun t => t.run) = some .running
    ∧ (State.resetWith Config.default).flags.fv = false := ⟨ready_valid, rfl, by decide, rfl⟩

/-- The first and the last word of RAM are in range; -1 and 1024 are not. -/
theorem witness_RamRange : (0 ≤ (0 : Word).toInt ∧ (0 : Word).toInt < ready.cfg.memSize)
    ∧ (0 ≤ (1023 : Word).toInt ∧ (1023 : Word).toInt < ready.cfg.memSize)
    ∧ ¬ (0 ≤ (-1 : Word).toInt ∧ (-1 : Word).toInt < ready.cfg.memSize)
    ∧ ¬ (0 ≤ (1024 : Word).toInt ∧ (1024 : Word).toInt < ready.cfg.memSize) := by decide

/-- The first and the last sector are in range; -1 and 64 are not. -/
theorem witness_DiskRange : (0 ≤ (0 : Word).toInt ∧ (0 : Word).toInt < ready.cfg.nsect)
    ∧ (0 ≤ (63 : Word).toInt ∧ (63 : Word).toInt < ready.cfg.nsect)
    ∧ ¬ (0 ≤ (-1 : Word).toInt ∧ (-1 : Word).toInt < ready.cfg.nsect)
    ∧ ¬ (0 ≤ (64 : Word).toInt ∧ (64 : Word).toInt < ready.cfg.nsect) := by decide

/-- An unlisted address. -/
theorem witness_LoadRule : ready.HasReg 8 ∧ Cells.lookup ready.mem 51 = none := ⟨hasReg_eight, by decide⟩

/-- A register as an address, key or sector (LOAD, CACHE, DISK_READ). -/
theorem witness_LoadRule_faults : Args.wellFormed ⟨.reg 1, .reg 2, .absent, false⟩ = true
    ∧ ∀ (n : BitVec 32) (a : Word), ready.HasReg n →
      (⟨.reg 1, .reg 2, .absent, false⟩ : Args) ≠ ⟨.reg n, .imm a, .absent, false⟩ :=
  ⟨by decide, fun n a _ => by simp⟩

/-- A register as an address or sector (STORE, DISK_WRITE). -/
theorem witness_StoreRule_faults : Args.wellFormed ⟨.imm 1, .reg 2, .absent, false⟩ = true
    ∧ ∀ (a0 : Operand) (v a : Word), ready.Denotes a0 v →
      (⟨.imm 1, .reg 2, .absent, false⟩ : Args) ≠ ⟨a0, .imm a, .absent, false⟩ :=
  ⟨by decide, fun a0 v a _ => by simp⟩

theorem witness_StoreThenLoad : ready.run = .running ∧ ready.Denotes (.reg 1) 5 ∧ ready.HasReg 8
    ∧ after (.store ⟨.reg 1, .imm 1023, .absent, false⟩) ready (fun t => t.run) = some .running :=
  ⟨rfl, denotes_reg, hasReg_eight, by decide⟩

/-- A cached key, and one that is not. -/
theorem witness_CacheRule : ready.HasReg 8 ∧ ready.cached 7 = some 4 ∧ ready.cached (-3) = none :=
  ⟨hasReg_eight, by decide, by decide⟩

theorem witness_CacheFlushRule_faults : Args.wellFormed ⟨.imm 1, .absent, .absent, false⟩ = true
    ∧ (⟨.imm 1, .absent, .absent, false⟩ : Args) ≠ ⟨.absent, .absent, .absent, false⟩ := by decide

/-- No operand (for CACHE_INVALIDATE and DISK_SEEK). -/
theorem witness_LiteralOnly_faults : Args.wellFormed ⟨.absent, .absent, .absent, false⟩ = true
    ∧ ∀ k, (⟨.absent, .absent, .absent, false⟩ : Args) ≠ ⟨.imm k, .absent, .absent, false⟩ :=
  ⟨by decide, fun k => by simp⟩

theorem witness_MaintenanceForcesMiss : ready.HasReg 1 := hasReg_one

theorem witness_SecondCacheAccessHits : ready.HasReg 1 ∧ ready.HasReg 8
    ∧ (after (.cache ⟨.reg 1, .imm 9, .absent, false⟩) ready (fun t => t.cacheDraws)) = some 1 :=
  ⟨hasReg_one, hasReg_eight, rfl⟩

/-- A CACHE that hits, one that misses, one that faults, and another instruction. -/
theorem witness_HitsAndMissesCountAccesses : ready.run = .running
    ∧ after (.cache ⟨.reg 1, .imm 7, .absent, false⟩) ready (fun t => (t.run, t.cacheHits)) = some (.running, 1)
    ∧ after (.cache ⟨.reg 1, .imm 9, .absent, false⟩) ready (fun t => (t.run, t.cacheMisses)) = some (.running, 1)
    ∧ after (.cache ⟨.reg 9, .imm 7, .absent, false⟩) ready (fun t => (t.run, t.cacheHits)) = some (.faulted, 0)
    ∧ after (.mov ⟨.reg 1, .imm 7, .absent, false⟩) ready (fun t => t.cacheHits) = some 0 :=
  ⟨rfl, by decide, rfl, by decide, by decide⟩

/-- A STORE that changes RAM, a flush and a miss that change the cache. -/
theorem witness_CacheAndRamAreIndependent :
    after (.store ⟨.imm 7, .imm 0, .absent, false⟩) ready (fun t => decide (t.mem = ready.mem)) = some false
    ∧ after (.cacheFlush ⟨.absent, .absent, .absent, false⟩) ready (fun t => decide (t.cache = ready.cache)) = some false
    ∧ after (.cache ⟨.reg 1, .imm 9, .absent, false⟩) ready (fun t => t.cacheMisses) = some 1
    ∧ (after (.cacheInvalidate ⟨.imm 7, .absent, .absent, false⟩) ready (fun t => t.cache)) = some []
    ∧ after (.load ⟨.reg 1, .imm 50, .absent, false⟩) ready (fun t => t.readReg 1) = some 9 :=
  ⟨by decide, by decide, rfl, by decide, by decide⟩

theorem witness_SeekCostDependsOnPath : ready.run = .running
    ∧ after (.diskSeek ⟨.imm 63, .absent, .absent, false⟩) ready (fun t => t.run) = some .running
    ∧ ((nextOf (exec (.diskSeek ⟨.imm 63, .absent, .absent, false⟩) ready)).bind fun t =>
        after (.diskSeek ⟨.imm 0, .absent, .absent, false⟩) t (fun u => u.run)) = some .running := by decide

/-- An existing input port with words in its buffer, and with none. -/
theorem witness_InRule : ready.HasReg 8 ∧ (0 : BitVec 32).toNat < ready.cfg.nin ∧ ready.inBuffer 0 = [7, 9]
    ∧ ({ ready with inq := [] } : State).inBuffer 0 = [] := ⟨hasReg_eight, by decide, by decide, by decide⟩

/-- The first input port that does not exist; and a destination that is an immediate. -/
theorem witness_InRule_faults : ready.HasReg 8 ∧ (Operand.pin 1) ≠ .absent
    ∧ (∀ p : BitVec 32, p.toNat < ready.cfg.nin → (Operand.pin 1) ≠ .pin p)
    ∧ Args.wellFormed ⟨.imm 1, .pin 0, .absent, false⟩ = true
    ∧ ∀ n a1, ready.HasReg n → a1 ≠ .absent → (⟨.imm 1, .pin 0, .absent, false⟩ : Args) ≠ ⟨.reg n, a1, .absent, false⟩ := by
  refine ⟨hasReg_eight, by decide, ?_, by decide, fun n a1 _ _ => by simp⟩
  intro p hp h
  simp only [Operand.pin.injEq] at h
  subst h
  exact absurd hp (by decide)

theorem witness_OutRule : ready.Denotes (.reg 1) 5 ∧ (0 : BitVec 32).toNat < ready.cfg.nout :=
  ⟨denotes_reg, by decide⟩

/-- The first output port that does not exist; and a source that denotes nothing. -/
theorem witness_OutRule_faults : ready.Denotes (.reg 1) 5 ∧ (Operand.pout 1) ≠ .absent
    ∧ (∀ p : BitVec 32, p.toNat < ready.cfg.nout → (Operand.pout 1) ≠ .pout p)
    ∧ Args.wellFormed ⟨.reg 9, .pout 0, .absent, false⟩ = true
    ∧ ∀ a0 v a1, ready.Denotes a0 v → a1 ≠ .absent →
      (⟨.reg 9, .pout 0, .absent, false⟩ : Args) ≠ ⟨a0, a1, .absent, false⟩ := by
  refine ⟨denotes_reg, by decide, ?_, by decide, ?_⟩
  · intro p hp h
    simp only [Operand.pout.injEq] at h
    subst h
    exact absurd hp (by decide)
  · intro a0 v a1 hv _ h
    simp only [Args.mk.injEq] at h
    exact reg_nine_denotes_nothing v (h.1 ▸ hv)

/-- The last port that exists, and the first that does not. -/
theorem witness_InjectRule : 0 < ready.cfg.nin ∧ ready.cfg.nin ≤ 1 := by decide

theorem witness_InjectedWordIsRead : (0 : BitVec 32).toNat < State.reset.cfg.nin ∧ State.reset.HasReg 8
    ∧ State.reset.inBuffer 0 = [] := ⟨by decide, ⟨by decide, by decide⟩, rfl⟩

/-- A fault of each kind, and an instruction that completes. -/
theorem witness_Faults : ready.run = .running
    ∧ after (.mov ⟨.reg 9, .imm 1, .absent, false⟩) ready (fun t => (t.run, t.fault.kind))
      = some (.faulted, .invalidOperand)
    ∧ after (.load ⟨.reg 1, .imm 1024, .absent, false⟩) ready (fun t => (t.run, t.fault.kind))
      = some (.faulted, .outOfRange)
    ∧ after (.mod ⟨.reg 1, .imm 0, .absent, false⟩) ready (fun t => (t.run, t.fault.kind))
      = some (.faulted, .arithmeticError)
    ∧ after (.inp ⟨.reg 1, .pout 0, .absent, false⟩) ready (fun t => (t.run, t.fault.kind))
      = some (.faulted, .deviceError) := by decide

theorem witness_CompletionIsBooked : ready.run = .running ∧ Instr.mov ⟨.reg 1, .imm 1, .absent, false⟩ ≠ .empty
    ∧ after (.mov ⟨.reg 1, .imm 1, .absent, false⟩) ready (fun t => t.run) = some .running := by decide

/-- One instruction for each item: it has a next state, and the item changes. -/
theorem witness_EachItemHasItsWriters :
    after (.mov ⟨.reg 1, .imm 1, .absent, false⟩) ready (fun t => decide (t.regs = ready.regs)) = some false
    ∧ after (.jmp ⟨.imm 1, .absent, .absent, false⟩) ready (fun t => t.pc) = some 0
    ∧ after (.cmp ⟨.imm 1, .imm 2, .absent, false⟩) ready (fun t => decide (t.flags = ready.flags)) = some false
    ∧ after (.mov ⟨.reg 9, .imm 1, .absent, false⟩) ready (fun t => (t.run, t.pc, t.cycles)) = some (.faulted, 0, 0)
    ∧ after (.mov ⟨.reg 1, .imm 1, .absent, false⟩) ready (fun t => (t.cycles, t.executed)) = some (1, 2)
    ∧ after (.load ⟨.reg 1, .imm 50, .absent, false⟩) ready (fun t => (t.readOps, t.time2)) = some (1, 200)
    ∧ after (.cache ⟨.reg 1, .imm 7, .absent, false⟩) ready (fun t => t.cacheHits) = some 1
    ∧ after (.diskWrite ⟨.imm 1, .imm 3, .absent, false⟩) ready
        (fun t => (decide (t.disk = ready.disk), t.writeOps)) = some (false, 1)
    ∧ after (.diskSeek ⟨.imm 1, .absent, .absent, false⟩) ready (fun t => decide (t.head = ready.head)) = some false
    ∧ after (.inp ⟨.reg 1, .pin 0, .absent, false⟩) ready (fun t => decide (t.inq = ready.inq)) = some false
    ∧ after (.out ⟨.imm 1, .pout 0, .absent, false⟩) ready (fun t => decide (t.outq = ready.outq)) = some false := by
  decide

theorem witness_CostFreeInstructions : (opcodeOf (.out ⟨.imm 1, .pout 0, .absent, false⟩)).toNat ∈
      [1, 2, 3, 4, 5, 6, 7, 8, 9, 10, 17, 18, 19, 20]
    ∧ after (.out ⟨.imm 1, .pout 0, .absent, false⟩) ready (fun t => t.time2) = some 0 := by decide

/-- A STEP that runs OUT. -/
theorem witness_OutputRecordsOnlyGrow :
    (nextOf (step { ready with prog := [0x12140000000000010000000000000000#128] })).map (fun t => t.outRecord 0)
      = some [5] := by decide

/-- A Faulted state, a START it admits and one it refuses. -/
theorem witness_FaultedIsLeftOnlyByResetOrStart : (ready.takeFault .outOfRange).run = .faulted
    ∧ (hostStart [movWord] (ready.takeFault .outOfRange)).2 = .ok
    ∧ (hostStart [1] (ready.takeFault .outOfRange)).2 ≠ .ok := by decide

/-- Two different states with the same parameters and draws. -/
theorem witness_ResetIsIdempotent : ready ≠ State.reset ∧ ready.cfg = State.reset.cfg
    ∧ ready.cacheDraws = State.reset.cacheDraws ∧ ready.inputDraws = State.reset.inputDraws :=
  ⟨fun h => absurd (congrArg State.run h) (by decide), rfl, rfl, rfl⟩

/-- Images of one slot too many, of the greatest length with an ill-formed last word, and well-formed ones. -/
theorem witness_StartRule : ({ ready with cfg.progMax := 2 } : State).cfg.progMax < [movWord, movWord, movWord].length
    ∧ [movWord, 1].length ≤ ({ ready with cfg.progMax := 2 } : State).cfg.progMax
    ∧ wordWellFormed ([movWord, 1].getD 1 0) = false ∧ (∀ j, j < 1 → wordWellFormed ([movWord, 1].getD j 0) = true)
    ∧ ∀ iw ∈ [movWord, movWord], wordWellFormed iw = true :=
  ⟨by decide, by decide, by decide, by decide, movWord_wellFormed⟩

theorem witness_AssembledTextStarts : assemble ready.cfg ['J', 'E', ' ', '5', '\n']
    = .ok [0x09200000000000050000000000000000#128] := by decide

end Sys2Proof.Tests
end

