-- ==== Sys2Proof/Proofs/RamSequencer.lean ====
section
/-! The RAM validator and sequencer (20_memory.md R35, R36): what the two primitives answer inside and outside the
address range, what a read sees after a write, and the statement O25 assembled from these. -/

namespace Sys2Proof.Machine

/-! ### Reads of RAM after an update of the state -/

@[simp] theorem State.readMem_chargeRead (s : State) (c b : Nat) : (s.chargeRead c).readMem b = s.readMem b := rfl

@[simp] theorem State.readMem_chargeWrite (s : State) (c b : Nat) : (s.chargeWrite c).readMem b = s.readMem b := rfl

@[simp] theorem State.readMem_writeMem_same (s : State) (n : Nat) (v : Word) : (s.writeMem n v).readMem n = v :=
  Memory.read_write_same s.mem n v

theorem State.readMem_writeMem_other (s : State) (n b : Nat) (v : Word) (h : b ≠ n) :
    (s.writeMem n v).readMem b = s.readMem b := Memory.read_write_other s.mem n b v h

/-! ### The two primitives by the range of their address (R35, R36) -/

section InRange
variable {s : State} {a : Word}

theorem memRead_of_inRange (h : 0 ≤ a.toInt ∧ a.toInt < s.cfg.memSize) :
    memRead s a = .ok (s.readMem a.toInt.toNat, s.chargeRead Config.tRam2) :=
  memRead_eq_ok.mpr ⟨a.toInt.toNat, validateIndex_of_inRange h, rfl, rfl⟩

theorem memWrite_of_inRange (h : 0 ≤ a.toInt ∧ a.toInt < s.cfg.memSize) (v : Word) :
    memWrite s a v = .ok ((s.writeMem a.toInt.toNat v).chargeWrite Config.tRam2) :=
  memWrite_eq_ok.mpr ⟨a.toInt.toNat, validateIndex_of_inRange h, rfl⟩

theorem memRead_of_outOfRange (h : ¬ (0 ≤ a.toInt ∧ a.toInt < s.cfg.memSize)) :
    memRead s a = .error (.raise .outOfRange) := by
  simp only [memRead, validateIndex_of_outOfRange h]

theorem memWrite_of_outOfRange (h : ¬ (0 ≤ a.toInt ∧ a.toInt < s.cfg.memSize)) (v : Word) :
    memWrite s a v = .error (.raise .outOfRange) := by
  simp only [memWrite, validateIndex_of_outOfRange h]

end InRange

/-- The word a read answers does not depend on the cache (R36, R38). -/
theorem memRead_word_of_any_cache (s : State) (a : Word) (c : Cells Word) :
    (memRead { s with cache := c } a).map Prod.fst = (memRead s a).map Prod.fst := by
  by_cases h : 0 ≤ a.toInt ∧ a.toInt < s.cfg.memSize
  · rw [memRead_of_inRange h, memRead_of_inRange (s := { s with cache := c }) h]; rfl
  · rw [memRead_of_outOfRange h, memRead_of_outOfRange (s := { s with cache := c }) h]

/-- A read after a write to the same address yields the written word (R36). -/
theorem memRead_of_memWrite {s t : State} {a v : Word} (h : memWrite s a v = .ok t) :
    memRead t a = .ok (v, t.chargeRead Config.tRam2) := by
  obtain ⟨n, hn, rfl⟩ := memWrite_eq_ok.mp h
  exact memRead_eq_ok.mpr ⟨n, hn, by simp, rfl⟩

end Sys2Proof.Machine

namespace Sys2Proof
open Sys2Proof.Machine

/-- Settles O25, by the range of the address: inside it by the answers of the two primitives and the laws of
`writeMem`, outside it by what they raise. -/
theorem ramSequencerRule : Obligations.RamSequencerRule := by
  intro s a v
  split
  next h =>
    have hw := memWrite_of_inRange h v
    exact ⟨memRead_of_inRange h, memRead_word_of_any_cache s a, _, hw, rfl,
      fun b hb => State.readMem_writeMem_other s _ b v hb, _, memRead_of_memWrite hw⟩
  next h => exact ⟨memRead_of_outOfRange h, memWrite_of_outOfRange h v⟩

end Sys2Proof
end

