-- ==== Sys2Proof/Proofs/CacheMaintenance.lean ====
section
/-! The cache instructions (20_memory.md R37, R45; 43_memory_cache.md R112 to R114): the next state of each, which keys
are cached in it, and the statement O33 assembled from these. -/

namespace Sys2Proof.Machine

/-! ### Which keys are cached after an update of the state -/

@[simp] theorem State.cached_advance (s : State) (k : Word) : s.advance.cached k = s.cached k := rfl

@[simp] theorem State.cached_retire (s : State) (opc : BitVec 8) (k : Word) :
    (s.retire opc).cached k = s.cached k := rfl

@[simp] theorem State.cached_flushCache (s : State) (k : Word) : s.flushCache.cached k = none := rfl

@[simp] theorem State.cached_invalidate_same (s : State) (k : Word) : (s.invalidate k).cached k = none :=
  Cells.lookup_erase_same s.cache k.toNat

theorem State.cached_invalidate_other (s : State) (k j : Word) (h : j ≠ k) :
    (s.invalidate k).cached j = s.cached j :=
  Cells.lookup_erase_other s.cache k.toNat j.toNat fun hn => h (BitVec.eq_of_toNat_eq hn)

/-- Which registers exist depends on the parameters only (R4, R10). -/
theorem State.HasReg.of_cfg_eq {s t : State} {n : BitVec 32} (hn : s.HasReg n) (hc : t.cfg = s.cfg) : t.HasReg n := by
  rw [State.HasReg, hc]; exact hn

/-! ### The next state of each cache instruction -/

/-- CACHE of a register that exists (R112), whatever the cache answers. -/
theorem exec_cache_of_hasReg {s : State} {n : BitVec 32} (hn : s.HasReg n) (k : Word) :
    exec (.cache ⟨.reg n, .imm k, .absent, false⟩) s
      = .next ((((cacheAccess s k).2.writeReg n.toNat (cacheAccess s k).1).advance).retire 0x0D#8) := by
  have hargc : checkArgc ⟨.reg n, .imm k, .absent, false⟩ [2] = .ok () := checkArgc_two (by simp) (by simp)
  simp only [exec, execCache, hargc, regDest_of_hasReg hn, litOf_eq_ok.mpr rfl, Check.ok_bind]
  rfl

/-- CACHE_FLUSH without operands (R113). -/
theorem exec_cacheFlush_no_operand (s : State) :
    exec (.cacheFlush ⟨.absent, .absent, .absent, false⟩) s = .next (s.flushCache.advance.retire 0x13#8) := rfl

/-- CACHE_INVALIDATE of a literal key (R114). -/
theorem exec_cacheInvalidate_imm (s : State) (k : Word) :
    exec (.cacheInvalidate ⟨.imm k, .absent, .absent, false⟩) s
      = .next ((s.invalidate k).advance.retire 0x14#8) := rfl

/-- A CACHE of a key that is not cached completes, and is counted as a miss and not as a hit (R37, R112). -/
theorem exec_cache_counts_miss {s : State} {n : BitVec 32} {k : Word} (hn : s.HasReg n) (hk : s.cached k = none) :
    ∃ u, exec (.cache ⟨.reg n, .imm k, .absent, false⟩) s = .next u
      ∧ u.cacheMisses = s.cacheMisses + 1 ∧ u.cacheHits = s.cacheHits := by
  refine ⟨_, exec_cache_of_hasReg hn k, ?_⟩
  obtain ⟨v, hv, -⟩ | ⟨-, hmiss⟩ := cacheAccess_cases s k
  · simp [hk] at hv
  · simp [hmiss]

end Sys2Proof.Machine

namespace Sys2Proof
open Sys2Proof.Machine

/-- Settles O33: after either maintenance instruction the key is not cached, so the next CACHE of it is a counted
miss. -/
theorem maintenanceForcesMiss : Obligations.MaintenanceForcesMiss := by
  intro s n k hn
  constructor
  · obtain ⟨u, hu, hcounts⟩ := exec_cache_counts_miss (s := s.flushCache.advance.retire 0x13#8) (k := k)
      (hn.of_cfg_eq (by simp)) (by simp)
    exact ⟨_, u, exec_cacheFlush_no_operand s, by simp, by simp, hu, hcounts⟩
  · obtain ⟨u, hu, hcounts⟩ := exec_cache_counts_miss (s := (s.invalidate k).advance.retire 0x14#8) (k := k)
      (hn.of_cfg_eq (by simp)) (by simp)
    exact ⟨_, u, exec_cacheInvalidate_imm s k, by simp, by simp,
      fun j hj => by simp [State.cached_invalidate_other s k j hj], hu, hcounts⟩

end Sys2Proof
end

