-- ==== Sys2Proof/Proofs/NextSlot.lean ====
section
/-! Where an instruction that completes leaves `pc` (40_engine_cycle.md R77): the next slot for every instruction that
is no jump, the slot of the line or the next slot for the three jumps (42_compare_jump.md R102 to R104), and the
statement O12 assembled from these. -/

namespace Sys2Proof.Machine

/-! ### Completion (R72, R76) -/

/-- A rule that ends with the engine still `Running` has raised nothing (R147). -/
theorem conclude_completed {i : Instr} {s t : State} {body : Check State} (h : conclude i s body = .next t)
    (ht : t.run = .running) : ∃ u, body = .ok u ∧ t = u.retire (opcodeOf i) := by
  obtain hok | ⟨k, -, rfl⟩ := conclude_eq_next.mp h
  · exact hok
  · simp at ht

/-- An instruction that ends with the engine still `Running` has had its effect, booked. -/
theorem exec_completed {i : Instr} {s t : State} (hi : i ≠ .empty) (h : exec i s = .next t)
    (ht : t.run = .running) : ∃ u, Effect s i u ∧ t = u.retire (opcodeOf i) := by
  obtain ⟨he, -⟩ | ⟨-, heff⟩ | ⟨-, k, -, rfl⟩ := exec_next h
  · exact absurd he hi
  · exact heff
  · simp at ht

/-- Only the effect of a jump can leave `pc` anywhere but at the next slot (R77). -/
theorem Effect.jump_or_next_slot {s u : State} {i : Instr} (h : Effect s i u) :
    (∃ r, i = .jmp r ∨ i = .je r ∨ i = .jne r) ∨ u.pc = s.pc + 1 := by
  cases h with
  | jmp => exact .inl ⟨_, .inl rfl⟩
  | je | je' => exact .inl ⟨_, .inr (.inl rfl)⟩
  | jne | jne' => exact .inl ⟨_, .inr (.inr rfl)⟩
  | _ => right; simp

/-! ### The three jumps (R101 to R104) -/

theorem presence_eq_zero {a : Operand} : presence a = 0 ↔ a = .absent := by
  by_cases ha : a = .absent
  · simp [ha]
  · simp [ha, presence_of_ne_absent ha]

/-- One argument, counted without any premise of well-formedness, leaves no room beside a first operand (R50). -/
theorem eq_of_argc_one {r : Args} (hc : argc r = 1) (h0 : r.a0 ≠ .absent) : r = ⟨r.a0, .absent, .absent, false⟩ := by
  obtain ⟨a0, a1, a2, xa⟩ := r
  simp only [argc, presence_of_ne_absent h0] at hc
  obtain rfl : a1 = .absent := presence_eq_zero.mp (by omega)
  obtain rfl : a2 = .absent := presence_eq_zero.mp (by omega)
  simpa using hc

/-- The zero-based slot of a line, as a word and as the word of an exact difference (R101). -/
theorem ofInt_line_sub_one (line : Word) : BitVec.ofInt 32 (line.toInt - 1) = line - 1 := by
  apply BitVec.eq_of_toInt_eq
  rw [BitVec.toInt_ofInt, BitVec.toInt_sub]; rfl

/-- What the jumps share (R101, R77): one that completes has a literal line as its only operand, and ends at the slot
of that line or, when not taken, at the next slot. -/
theorem conclude_jump_completed {i : Instr} {r : Args} {s t : State} {taken : Bool}
    (h : conclude i s (do let slot ← jumpTarget s r; return if taken then s.jumpTo slot else s.advance) = .next t)
    (ht : t.run = .running) :
    ∃ line : Word, r = ⟨.imm line, .absent, .absent, false⟩
      ∧ t.pc = if taken then BitVec.ofInt 32 (line.toInt - 1) else s.pc + 1 := by
  obtain ⟨u, hbody, rfl⟩ := conclude_completed h ht
  obtain ⟨slot, hslot, hu⟩ := (Check.bind_eq_ok _ _ _).mp hbody
  obtain ⟨hc, line, hline, -, -, rfl⟩ := jumpTarget_eq_ok.mp hslot
  obtain rfl := Except.ok.inj hu
  refine ⟨line, hline ▸ eq_of_argc_one hc (by simp [hline]), ?_⟩
  cases taken <;> simp [ofInt_line_sub_one]

section Jumps
variable {r : Args} {s t : State}

/-- JMP is always taken (R102). -/
theorem exec_jmp_completed (h : exec (.jmp r) s = .next t) (ht : t.run = .running) :
    ∃ line : Word, r = ⟨.imm line, .absent, .absent, false⟩ ∧ t.pc = BitVec.ofInt 32 (line.toInt - 1) :=
  conclude_jump_completed (taken := true) h ht

/-- JE is taken iff `FE` = 1 (R103). -/
theorem exec_je_completed (h : exec (.je r) s = .next t) (ht : t.run = .running) :
    ∃ line : Word, r = ⟨.imm line, .absent, .absent, false⟩
      ∧ t.pc = if s.flags.fe then BitVec.ofInt 32 (line.toInt - 1) else s.pc + 1 :=
  conclude_jump_completed h ht

/-- JNE is taken iff `FV` = 1 and `FE` = 0 (R104). -/
theorem exec_jne_completed (h : exec (.jne r) s = .next t) (ht : t.run = .running) :
    ∃ line : Word, r = ⟨.imm line, .absent, .absent, false⟩
      ∧ t.pc = if s.flags.fv && !s.flags.fe then BitVec.ofInt 32 (line.toInt - 1) else s.pc + 1 :=
  conclude_jump_completed h ht

end Jumps

end Sys2Proof.Machine

namespace Sys2Proof
open Sys2Proof.Machine

/-- Settles O12: a taken jump by the rule of each of the three jumps; otherwise by the effect of the instruction, where
a jump that completes has a literal line and so is not taken. -/
theorem nextSlotOrJumpTarget : Obligations.NextSlotOrJumpTarget := by
  intro i s t _ hi h ht
  constructor
  · rintro line (rfl | ⟨rfl, hfe⟩ | ⟨rfl, hfv, hfe⟩)
    · obtain ⟨_, ⟨⟩, hpc⟩ := exec_jmp_completed h ht
      exact hpc
    · obtain ⟨_, ⟨⟩, hpc⟩ := exec_je_completed h ht
      rwa [if_pos hfe] at hpc
    · obtain ⟨_, ⟨⟩, hpc⟩ := exec_jne_completed h ht
      rwa [if_pos (by simp [hfv, hfe])] at hpc
  · intro hnot
    obtain ⟨u, hu, htu⟩ := exec_completed hi h ht
    obtain ⟨r, rfl | rfl | rfl⟩ | hpc := hu.jump_or_next_slot
    · obtain ⟨line, rfl, -⟩ := exec_jmp_completed h ht
      exact absurd rfl (hnot line).1
    · obtain ⟨line, rfl, hpc⟩ := exec_je_completed h ht
      obtain ⟨-, hfe, -⟩ := hnot line
      rwa [if_neg (by simp [hfe rfl])] at hpc
    · obtain ⟨line, rfl, hpc⟩ := exec_jne_completed h ht
      obtain ⟨-, -, hflags⟩ := hnot line
      rwa [if_neg (by obtain hfv | hfe := hflags rfl <;> simp [*])] at hpc
    · simp [htu, hpc]

end Sys2Proof
end

