-- ==== Sys2Proof/Proofs/Move.lean ====
section
/-! The MOV instruction (41_move_arith.md R90): its next state when both operands resolve, the fault it raises for every
other well-formed operand list, and the statement O17 assembled from these. -/

namespace Sys2Proof.Machine

/-! ### A register write that is booked (R10, R77, R78) -/

/-- An instruction that ends with a register write and completes has written that register and no other. -/
theorem State.setsReg_writeReg_booked (s : State) (n : BitVec 32) (v : Word) (opc : BitVec 8) :
    s.SetsReg ((s.writeReg n.toNat v).advance.retire opc) n v :=
  ⟨State.readReg_writeReg_same s n.toNat v, fun m hm => State.readReg_writeReg_other s n.toNat m v hm⟩

/-- A register write that is booked changes `regs` and the booked items only. -/
theorem State.writeReg_booked_eq (s : State) (n : Nat) (v : Word) (opc : BitVec 8) :
    (s.writeReg n v).advance.retire opc
      = { s.booked opc.toNat with regs := ((s.writeReg n v).advance.retire opc).regs } := rfl

/-! ### The next state of MOV (R90) -/

/-- MOV into a register that exists, of a source that denotes a value. -/
theorem exec_mov_of_denotes {s : State} {n : BitVec 32} {a1 : Operand} {v : Word} (hn : s.HasReg n)
    (hv : s.Denotes a1 v) :
    exec (.mov ⟨.reg n, a1, .absent, false⟩) s = .next ((s.writeReg n.toNat v).advance.retire 0x01#8) := by
  have hargc : checkArgc ⟨.reg n, a1, .absent, false⟩ [2] = .ok () := checkArgc_two (by simp) hv.ne_absent
  simp only [exec, execMov, hargc, regDest_of_hasReg hn, valueOf_eq_ok.mpr hv, Check.ok_bind]
  rfl

/-- Every other well-formed operand list fails one of the three checks of MOV, in their order (R146). -/
theorem faults_mov_of_no_form {s : State} {r : Args} (hw : r.wellFormed = true)
    (h : ∀ n a1 v, s.HasReg n → s.Denotes a1 v → r ≠ ⟨.reg n, a1, .absent, false⟩) :
    Faults (.mov r) s .invalidOperand := by
  change exec (.mov r) s = .next (s.takeFault .invalidOperand)
  by_cases hc : argc r = 2
  · have hargc : checkArgc r [2] = .ok () := checkArgc_eq_ok.mpr (by simp [hc])
    obtain ⟨n, ha0, hn, hdst⟩ | ⟨-, hdst⟩ := regDest_cases s r.a0
    · obtain ⟨v, hv, -⟩ | ⟨-, hsrc⟩ := valueOf_cases s r.a1
      · obtain ⟨a0, a1, -, -, rfl⟩ := (argc_eq_two hw).mp hc
        obtain rfl : a0 = .reg n := ha0
        exact absurd rfl (h n a1 v hn hv)
      · simp only [exec, execMov, hargc, hdst, hsrc, Check.ok_bind, Check.error_bind, conclude_raise]
    · simp only [exec, execMov, hargc, hdst, Check.ok_bind, Check.error_bind, conclude_raise]
  · have hargc : checkArgc r [2] = .error (.raise .invalidOperand) := checkArgc_of_not_mem (by simp [hc])
    simp only [exec, execMov, hargc, Check.error_bind, conclude_raise]

end Sys2Proof.Machine

namespace Sys2Proof
open Sys2Proof.Machine

/-- Settles O17: the opcode by the fields of an encoded record, the next state by the booked register write, the fault
by the checks of MOV. -/
theorem movRule : Obligations.MovRule := by
  intro s
  refine ⟨fun r => (Laws.OpcodeField.mov r).1, fun n a1 v hn hv => ?_, fun r hw h => faults_mov_of_no_form hw h⟩
  exact ⟨_, exec_mov_of_denotes hn hv, s.setsReg_writeReg_booked n v 0x01#8, s.writeReg_booked_eq n.toNat v 0x01#8⟩

end Sys2Proof
end

