-- ==== Sys2Proof/Proofs/OutOfRange.lean ====
section
/-! Which instructions raise `OutOfRange`, and when (60_exceptions.md R143, with 42_compare_jump.md R101,
43_memory_cache.md R110, R111 and 44_disk.md R120 to R122): each of the eight that can raises it
exactly when every check before the range check has passed, and the statement O47 assembled from these. -/

namespace Sys2Proof.Machine

/-! ### Which kind a rule raises (R76, R146, R147) -/

/-- No instruction writes `RUN` by its effect (R13). -/
theorem Effect.run_eq {s u : State} {i : Instr} (h : Effect s i u) : u.run = s.run := by
  cases h <;> simp

/-- Fault entry records its kind (R147). -/
theorem State.takeFault_inj {s : State} {k k' : FaultKind} : s.takeFault k = s.takeFault k' ↔ k = k' := by
  refine ⟨fun h => ?_, fun h => h ▸ rfl⟩
  simpa using congrArg (·.fault.kind) h

/-- A running instruction raises only the kinds of its row of R140. -/
theorem Faults.mayRaise {i : Instr} {s : State} {k : FaultKind} (h : Faults i s k) (hrun : s.run = .running) :
    MayRaise k i := by
  change exec i s = .next (s.takeFault k) at h
  obtain ⟨-, ht⟩ | ⟨-, u, hu, ht⟩ | ⟨-, k', hk', ht⟩ := exec_next h
  · simpa [hrun] using congrArg State.run ht
  · simpa [hu.run_eq, hrun] using congrArg State.run ht
  · exact State.takeFault_inj.mp ht ▸ hk'

/-- A rule whose writes leave `RUN` alone ends in fault entry exactly when its checks raise that fault. -/
theorem conclude_eq_takeFault {i : Instr} {s : State} {body : Check State} {k : FaultKind} (hrun : s.run = .running)
    (hok : ∀ u, body = .ok u → u.run = s.run) :
    conclude i s body = .next (s.takeFault k) ↔ body = .error (.raise k) := by
  constructor
  · intro h
    obtain ⟨u, hu, ht⟩ | ⟨k', hbody, ht⟩ := conclude_eq_next.mp h
    · simpa [hok u hu, hrun] using congrArg State.run ht
    · rw [hbody, State.takeFault_inj.mp ht]
  · rintro rfl
    rfl

/-- A check that raises `InvalidOperand` alone has passed when the checks from it on raise another kind (R146). -/
theorem Check.bind_eq_raise {α β : Type} {x : Check α} {f : α → Check β} {k : FaultKind} (hk : k ≠ .invalidOperand)
    (hx : ∀ e, x = .error e → e = .raise .invalidOperand) :
    (x >>= f) = .error (.raise k) ↔ ∃ a, x = .ok a ∧ f a = .error (.raise k) := by
  rw [Check.bind_eq_error, or_iff_right]
  intro h
  exact hk (Abort.raise.inj (hx _ h))

/-- What follows the last check raises nothing. -/
theorem Check.bind_pure_eq_error {α β : Type} {x : Check α} {f : α → β} {e : Abort} :
    (x >>= fun a => pure (f a)) = .error e ↔ x = .error e := by
  cases x <;> simp [pure, Except.pure]

/-! ### Operand lists that resolve, without any premise of well-formedness (R50, R55, R56) -/

theorem eq_of_argc_two {r : Args} (hc : argc r = 2) (h0 : r.a0 ≠ .absent) (h1 : r.a1 ≠ .absent) :
    r = ⟨r.a0, r.a1, .absent, false⟩ := by
  obtain ⟨a0, a1, a2, xa⟩ := r
  simp only [argc, presence_of_ne_absent h0, presence_of_ne_absent h1] at hc
  obtain rfl : a2 = .absent := presence_eq_zero.mp (by omega)
  simpa using hc

/-- One argument, a literal. -/
theorem resolves_lit_iff {r : Args} {a : Word} :
    argc r = 1 ∧ r.a0 = .imm a ↔ r = ⟨.imm a, .absent, .absent, false⟩ := by
  constructor
  · rintro ⟨hc, h0⟩
    exact h0 ▸ eq_of_argc_one hc (by simp [h0])
  · rintro rfl
    exact ⟨rfl, rfl⟩

/-- Two arguments, a register that exists and a literal. -/
theorem resolves_reg_lit_iff {s : State} {r : Args} {a : Word} :
    argc r = 2 ∧ (∃ d, regDest s r.a0 = .ok d) ∧ r.a1 = .imm a
      ↔ ∃ n, s.HasReg n ∧ r = ⟨.reg n, .imm a, .absent, false⟩ := by
  constructor
  · rintro ⟨hc, ⟨d, hd⟩, h1⟩
    obtain ⟨n, h0, hlo, hhi, -⟩ := regDest_eq_ok.mp hd
    exact ⟨n, ⟨hlo, hhi⟩, h0 ▸ h1 ▸ eq_of_argc_two hc (by simp [h0]) (by simp [h1])⟩
  · rintro ⟨n, hn, rfl⟩
    exact ⟨rfl, ⟨_, regDest_of_hasReg hn⟩, rfl⟩

/-- Two arguments, an operand that denotes a value and a literal. -/
theorem resolves_value_lit_iff {s : State} {r : Args} {a : Word} :
    argc r = 2 ∧ (∃ v, valueOf s r.a0 = .ok v) ∧ r.a1 = .imm a
      ↔ ∃ a0 v, s.Denotes a0 v ∧ r = ⟨a0, .imm a, .absent, false⟩ := by
  constructor
  · rintro ⟨hc, ⟨v, hv⟩, h1⟩
    have hden : s.Denotes r.a0 v := valueOf_eq_ok.mp hv
    exact ⟨r.a0, v, hden, h1 ▸ eq_of_argc_two hc hden.ne_absent (by simp [h1])⟩
  · rintro ⟨a0, v, hden, rfl⟩
    have hc := checkArgc_eq_ok.mp (checkArgc_two hden.ne_absent (a1 := .imm a) (by simp))
    exact ⟨List.mem_singleton.mp hc, ⟨v, valueOf_eq_ok.mpr hden⟩, rfl⟩

/-! ### What the range checks raise (R35, R36, R40, R101) -/

theorem validateIndex_eq_outOfRange {size : Nat} {a : Word} :
    validateIndex size a = .error (.raise .outOfRange) ↔ ¬ (0 ≤ a.toInt ∧ a.toInt < size) := by
  rw [validateIndex_eq_error, and_iff_left rfl]
  omega

section Primitives
variable {s : State} {a v : Word}

theorem memRead_eq_outOfRange :
    memRead s a = .error (.raise .outOfRange) ↔ ¬ (0 ≤ a.toInt ∧ a.toInt < s.cfg.memSize) :=
  ⟨fun h => validateIndex_eq_outOfRange.mp (memRead_error h), memRead_of_outOfRange⟩

theorem memWrite_eq_outOfRange :
    memWrite s a v = .error (.raise .outOfRange) ↔ ¬ (0 ≤ a.toInt ∧ a.toInt < s.cfg.memSize) :=
  ⟨fun h => validateIndex_eq_outOfRange.mp (memWrite_error h), fun h => memWrite_of_outOfRange h v⟩

theorem diskRead_eq_outOfRange :
    diskRead s a = .error (.raise .outOfRange) ↔ ¬ (0 ≤ a.toInt ∧ a.toInt < s.cfg.nsect) :=
  ⟨fun h => validateIndex_eq_outOfRange.mp (diskRead_error h),
    fun h => by simp only [diskRead, validateIndex_of_outOfRange h]⟩

theorem diskWrite_eq_outOfRange :
    diskWrite s a v = .error (.raise .outOfRange) ↔ ¬ (0 ≤ a.toInt ∧ a.toInt < s.cfg.nsect) :=
  ⟨fun h => validateIndex_eq_outOfRange.mp (diskWrite_error h),
    fun h => by simp only [diskWrite, validateIndex_of_outOfRange h]⟩

theorem diskSeek_eq_outOfRange :
    diskSeek s a = .error (.raise .outOfRange) ↔ ¬ (0 ≤ a.toInt ∧ a.toInt < s.cfg.nsect) :=
  ⟨fun h => validateIndex_eq_outOfRange.mp (diskSeek_error h),
    fun h => by simp only [diskSeek, validateIndex_of_outOfRange h]⟩

end Primitives

/-- The line check of the jumps comes last (R101). -/
theorem jumpTarget_eq_outOfRange {s : State} {r : Args} :
    jumpTarget s r = .error (.raise .outOfRange) ↔
      ∃ line : Word, r = ⟨.imm line, .absent, .absent, false⟩ ∧ ¬ (1 ≤ line.toInt ∧ line.toInt ≤ s.progLen) := by
  have hline (line : Word) :
      (if line.toInt < 1 ∨ (s.progLen : Int) < line.toInt then raise .outOfRange
          else return line - 1 : Check (BitVec 32)) = .error (.raise .outOfRange)
        ↔ ¬ (1 ≤ line.toInt ∧ line.toInt ≤ s.progLen) := by
    split
    next h => simp only [Check.raise_eq, true_iff]; omega
    next h => simp only [pure, Except.pure, reduceCtorEq, false_iff]; omega
  simp only [jumpTarget, Check.bind_eq_raise (k := .outOfRange) (by simp) (fun _ => checkArgc_error),
    Check.bind_eq_raise (k := .outOfRange) (by simp) (fun _ => litOf_error), hline, checkArgc_eq_ok, litOf_eq_ok,
    List.mem_singleton, ← resolves_lit_iff, exists_and_left, exists_const, and_assoc]

/-! ### The eight instructions that can raise `OutOfRange` -/

section Faulting
variable {s : State} {r : Args}

/-- What LOAD, STORE, DISK_READ and DISK_WRITE share: a first operand, a literal, and then an access that is checked
against `size`. -/
theorem conclude_access_outOfRange {α β : Type} {i : Instr} {first : Check α} {access : α → Word → Check β}
    {write : α → β → State} {size : Nat} (hrun : s.run = .running)
    (hfirst : ∀ e, first = .error e → e = .raise .invalidOperand)
    (hok : ∀ x a p, access x a = .ok p → (write x p).run = s.run)
    (hrange : ∀ x a, access x a = .error (.raise .outOfRange) ↔ ¬ (0 ≤ a.toInt ∧ a.toInt < size)) :
    conclude i s (do checkArgc r [2]; let x ← first; let a ← litOf r.a1; let p ← access x a; return write x p)
        = .next (s.takeFault .outOfRange)
      ↔ ∃ a : Word, (argc r = 2 ∧ (∃ x, first = .ok x) ∧ r.a1 = .imm a) ∧ ¬ (0 ≤ a.toInt ∧ a.toInt < size) := by
  rw [conclude_eq_takeFault hrun]
  · simp only [Check.bind_eq_raise (k := .outOfRange) (by simp) (fun _ => checkArgc_error),
      Check.bind_eq_raise (k := .outOfRange) (by simp) hfirst,
      Check.bind_eq_raise (k := .outOfRange) (by simp) (fun _ => litOf_error),
      Check.bind_pure_eq_error, hrange, checkArgc_eq_ok, litOf_eq_ok, List.mem_singleton]
    constructor
    · rintro ⟨-, hc, x, hx, a, ha, hout⟩
      exact ⟨a, ⟨hc, ⟨x, hx⟩, ha⟩, hout⟩
    · rintro ⟨a, ⟨hc, ⟨x, hx⟩, ha⟩, hout⟩
      exact ⟨(), hc, x, hx, a, ha, hout⟩
  · intro u h
    simp only [Check.bind_eq_ok] at h
    obtain ⟨-, -, x, -, a, -, p, hp, hu⟩ := h
    exact Except.ok.inj hu ▸ hok x a p hp

/-- What the three jumps share: the target is checked before anything is written (R101). -/
theorem conclude_jump_outOfRange {i : Instr} {write : BitVec 32 → State} (hrun : s.run = .running)
    (hok : ∀ slot, (write slot).run = s.run) :
    conclude i s (do let slot ← jumpTarget s r; return write slot) = .next (s.takeFault .outOfRange)
      ↔ ∃ line : Word, r = ⟨.imm line, .absent, .absent, false⟩ ∧ ¬ (1 ≤ line.toInt ∧ line.toInt ≤ s.progLen) := by
  rw [conclude_eq_takeFault hrun, Check.bind_pure_eq_error, jumpTarget_eq_outOfRange]
  intro u h
  obtain ⟨slot, -, hu⟩ := (Check.bind_eq_ok _ _ _).mp h
  exact Except.ok.inj hu ▸ hok slot

theorem faults_load_outOfRange (hrun : s.run = .running) :
    Faults (.load r) s .outOfRange ↔ ∃ a : Word, (∃ n, s.HasReg n ∧ r = ⟨.reg n, .imm a, .absent, false⟩)
      ∧ ¬ (0 ≤ a.toInt ∧ a.toInt < s.cfg.memSize) := by
  simp only [← resolves_reg_lit_iff]
  refine conclude_access_outOfRange (access := fun _ a => memRead s a)
    (write := fun d p => (p.2.writeReg d p.1).advance) hrun (fun _ => regDest_error) ?_
    (fun _ _ => memRead_eq_outOfRange)
  rintro d a ⟨v, t⟩ h
  obtain ⟨_, _, _, rfl⟩ := memRead_eq_ok.mp h
  simp

theorem faults_diskRead_outOfRange (hrun : s.run = .running) :
    Faults (.diskRead r) s .outOfRange ↔ ∃ a : Word, (∃ n, s.HasReg n ∧ r = ⟨.reg n, .imm a, .absent, false⟩)
      ∧ ¬ (0 ≤ a.toInt ∧ a.toInt < s.cfg.nsect) := by
  simp only [← resolves_reg_lit_iff]
  refine conclude_access_outOfRange (access := fun _ a => diskRead s a)
    (write := fun d p => (p.2.writeReg d p.1).advance) hrun (fun _ => regDest_error) ?_
    (fun _ _ => diskRead_eq_outOfRange)
  rintro d a ⟨v, t⟩ h
  obtain ⟨_, _, _, rfl⟩ := diskRead_eq_ok.mp h
  simp

theorem faults_store_outOfRange (hrun : s.run = .running) :
    Faults (.store r) s .outOfRange ↔ ∃ a : Word, (∃ a0 v, s.Denotes a0 v ∧ r = ⟨a0, .imm a, .absent, false⟩)
      ∧ ¬ (0 ≤ a.toInt ∧ a.toInt < s.cfg.memSize) := by
  simp only [← resolves_value_lit_iff]
  refine conclude_access_outOfRange (access := fun v a => memWrite s a v) (write := fun _ t => t.advance) hrun
    (fun _ => valueOf_error) ?_ (fun _ _ => memWrite_eq_outOfRange)
  intro v a t h
  obtain ⟨_, _, rfl⟩ := memWrite_eq_ok.mp h
  simp

theorem faults_diskWrite_outOfRange (hrun : s.run = .running) :
    Faults (.diskWrite r) s .outOfRange ↔ ∃ a : Word, (∃ a0 v, s.Denotes a0 v ∧ r = ⟨a0, .imm a, .absent, false⟩)
      ∧ ¬ (0 ≤ a.toInt ∧ a.toInt < s.cfg.nsect) := by
  simp only [← resolves_value_lit_iff]
  refine conclude_access_outOfRange (access := fun v a => diskWrite s a v) (write := fun _ t => t.advance) hrun
    (fun _ => valueOf_error) ?_ (fun _ _ => diskWrite_eq_outOfRange)
  intro v a t h
  obtain ⟨_, _, rfl⟩ := diskWrite_eq_ok.mp h
  simp

theorem faults_diskSeek_outOfRange (hrun : s.run = .running) :
    Faults (.diskSeek r) s .outOfRange ↔
      ∃ a : Word, r = ⟨.imm a, .absent, .absent, false⟩ ∧ ¬ (0 ≤ a.toInt ∧ a.toInt < s.cfg.nsect) := by
  refine (conclude_eq_takeFault hrun ?_).trans ?_
  · intro u h
    simp only [Check.bind_eq_ok] at h
    obtain ⟨-, -, a, -, t, ht, hu⟩ := h
    obtain ⟨_, _, rfl⟩ := diskSeek_eq_ok.mp ht
    rw [← Except.ok.inj hu]
    simp
  · simp only [Check.bind_eq_raise (k := .outOfRange) (by simp) (fun _ => checkArgc_error),
      Check.bind_eq_raise (k := .outOfRange) (by simp) (fun _ => litOf_error), Check.bind_pure_eq_error,
      diskSeek_eq_outOfRange, checkArgc_eq_ok, litOf_eq_ok, List.mem_singleton, ← resolves_lit_iff, exists_and_left,
      exists_const, and_assoc]

theorem faults_jmp_outOfRange (hrun : s.run = .running) :
    Faults (.jmp r) s .outOfRange ↔
      ∃ line : Word, r = ⟨.imm line, .absent, .absent, false⟩ ∧ ¬ (1 ≤ line.toInt ∧ line.toInt ≤ s.progLen) :=
  conclude_jump_outOfRange (write := s.jumpTo) hrun (by simp)

theorem faults_je_outOfRange (hrun : s.run = .running) :
    Faults (.je r) s .outOfRange ↔
      ∃ line : Word, r = ⟨.imm line, .absent, .absent, false⟩ ∧ ¬ (1 ≤ line.toInt ∧ line.toInt ≤ s.progLen) :=
  conclude_jump_outOfRange (write := fun slot => if s.flags.jeTaken then s.jumpTo slot else s.advance) hrun
    (fun slot => by split <;> simp)

theorem faults_jne_outOfRange (hrun : s.run = .running) :
    Faults (.jne r) s .outOfRange ↔
      ∃ line : Word, r = ⟨.imm line, .absent, .absent, false⟩ ∧ ¬ (1 ≤ line.toInt ∧ line.toInt ≤ s.progLen) :=
  conclude_jump_outOfRange (write := fun slot => if s.flags.jneTaken then s.jumpTo slot else s.advance) hrun
    (fun slot => by split <;> simp)

end Faulting

end Sys2Proof.Machine

namespace Sys2Proof
open Sys2Proof.Machine

/-- Settles O47, by the instruction: each of the eight that can raise `OutOfRange` by its own equivalence, every other
one because its row of R140 does not list the kind. -/
theorem whenOutOfRangeIsRaised : Obligations.WhenOutOfRangeIsRaised := by
  intro i s hrun
  cases i with
  | load r => rw [faults_load_outOfRange hrun]; grind
  | diskRead r => rw [faults_diskRead_outOfRange hrun]; grind
  | store r => rw [faults_store_outOfRange hrun]; grind
  | diskWrite r => rw [faults_diskWrite_outOfRange hrun]; grind
  | diskSeek r => simpa using faults_diskSeek_outOfRange hrun
  | jmp r => simpa [and_comm] using faults_jmp_outOfRange hrun
  | je r => simpa [and_comm] using faults_je_outOfRange hrun
  | jne r => simpa [and_comm] using faults_jne_outOfRange hrun
  | _ =>
    refine iff_of_false (fun h => ?_) (by simp)
    simpa [MayRaise, opcodeOf] using h.mayRaise hrun

end Sys2Proof
end

