-- ==== Sys2Proof/Proofs/FaultExit.lean ====
section
/-! The ways out of `Faulted` (60_exceptions.md R148): what each host operation does to the state outside `Running`
(40_engine_cycle.md R70, R71, R80), and the statement O49 assembled from these. -/

namespace Sys2Proof.Machine

/-! ### STEP outside `Running` (R80) -/

theorem step_of_not_running {s : State} (h : s.run ≠ .running) : step s = .next s := by
  simp [step, fetch_not_running h]

theorem stepResult_of_not_running {s : State} (h : s.run ≠ .running) : stepResult s = some .notRunning := by
  simp [stepResult, fetch_not_running h]

/-! ### INJECT (R132) and RESET (R160) -/

/-- Everything INJECT can do to the state (R132). -/
theorem hostInject_cases (p : Nat) (v : Word) (s : State) :
    (p < s.cfg.nin ∧ hostInject p v s = (s.injectWord p v, .ok))
      ∨ (¬ p < s.cfg.nin ∧ hostInject p v s = (s, .noSuchPort)) := by
  by_cases h : p < s.cfg.nin
  · exact .inl ⟨h, if_pos h⟩
  · exact .inr ⟨h, if_neg h⟩

theorem hostInject_keeps_run_fault (p : Nat) (v : Word) (s : State) :
    (hostInject p v s).1.run = s.run ∧ (hostInject p v s).1.fault = s.fault := by
  obtain ⟨-, h⟩ | ⟨-, h⟩ := hostInject_cases p v s <;> simp [h]

@[simp] theorem State.hostReset_run (s : State) : s.hostReset.run = .idle := rfl

/-! ### START (R71, R162) -/

@[simp] theorem State.install_run (s : State) (image : List IWord) : (s.install image).run = .running := rfl
@[simp] theorem State.install_fault (s : State) (image : List IWord) : (s.install image).fault = ⟨.none, 0⟩ := rfl
@[simp] theorem State.install_readReg (s : State) (image : List IWord) (n : Nat) :
    (s.install image).readReg n = 0 := rfl
@[simp] theorem State.install_pc (s : State) (image : List IWord) : (s.install image).pc = 0 := rfl
@[simp] theorem State.install_flags (s : State) (image : List IWord) :
    (s.install image).flags = ⟨false, false, false, false, false⟩ := rfl
@[simp] theorem State.install_cycles (s : State) (image : List IWord) : (s.install image).cycles = 0 := rfl
@[simp] theorem State.install_readOps (s : State) (image : List IWord) : (s.install image).readOps = 0 := rfl
@[simp] theorem State.install_writeOps (s : State) (image : List IWord) : (s.install image).writeOps = 0 := rfl
@[simp] theorem State.install_cacheHits (s : State) (image : List IWord) : (s.install image).cacheHits = 0 := rfl
@[simp] theorem State.install_cacheMisses (s : State) (image : List IWord) : (s.install image).cacheMisses = 0 := rfl
@[simp] theorem State.install_time2 (s : State) (image : List IWord) : (s.install image).time2 = 0 := rfl
@[simp] theorem State.install_executed (s : State) (image : List IWord) : (s.install image).executed = 0 := rfl
@[simp] theorem State.install_prog (s : State) (image : List IWord) : (s.install image).prog = image := rfl

/-- Everything START can do: it installs the image that passes validation, and otherwise returns a parse error and the
state as it was (R71). -/
theorem hostStart_cases (image : List IWord) (s : State) :
    hostStart image s = (s.install image, .ok) ∨ ∃ line, hostStart image s = (s, .parseError line) := by
  unfold hostStart
  split
  · exact .inl rfl
  · exact .inr ⟨_, rfl⟩

theorem hostStart_of_ok {image : List IWord} {s : State} (h : (hostStart image s).2 = .ok) :
    (hostStart image s).1 = s.install image := by
  obtain hs | ⟨line, hs⟩ := hostStart_cases image s
  · rw [hs]
  · simp [hs] at h

theorem hostStart_of_not_ok {image : List IWord} {s : State} (h : (hostStart image s).2 ≠ .ok) :
    (hostStart image s).1 = s := by
  obtain hs | ⟨line, hs⟩ := hostStart_cases image s
  · simp [hs] at h
  · rw [hs]

end Sys2Proof.Machine

namespace Sys2Proof
open Sys2Proof.Machine

/-- Settles O49, by the host operation: STEP and INJECT stay in `Faulted`, RESET leads to `Idle`, and START either
installs the image or answers the same state. -/
theorem faultedIsLeftOnlyByResetOrStart : Obligations.FaultedIsLeftOnlyByResetOrStart := by
  intro s hs
  have hrun : s.run ≠ .running := by simp [hs]
  refine ⟨step_of_not_running hrun, stepResult_of_not_running hrun, fun p v => ?_, s.hostReset_run,
    fun image => ⟨fun hok => ?_, hostStart_of_not_ok⟩⟩
  · rw [← hs]
    exact hostInject_keeps_run_fault p v s
  · rw [hostStart_of_ok hok]
    simp

end Sys2Proof
end

