-- ==== Sys2Proof/Proofs/Encoding.lean ====
section
/-! The instruction word (30_encoding.md R51 to R54): `decode` and `encode` invert each other, the decoder accepts
exactly the words of R53, and the statements O1 to O4 assembled from these. -/

namespace Sys2Proof

/-! ### Records and their operands (R50, R53, R54) -/

/-- A record is well-formed exactly when its operands are (R53). -/
theorem Instr.wellFormed_eq_args (i : Instr) : i.wellFormed = (argsOf i).wellFormed := by
  cases i <;> rfl

theorem opcodeOf_ne_zero {i : Instr} (h : i ≠ .empty) : opcodeOf i ≠ 0#8 := by
  cases i with
  | empty => exact absurd rfl h
  | _ => simp [opcodeOf]

/-- The opcode numbers of R54 end at 20. -/
theorem opcodeOf_le (i : Instr) : (opcodeOf i).toNat ≤ 20 := by
  cases i <;> simp [opcodeOf]

theorem kindOf_eq_zero {a : Operand} : kindOf a = 0#4 ↔ a = .absent := by
  cases a <;> simp [kindOf]

theorem kindOf_le (a : Operand) : (kindOf a).toNat ≤ 5 := by
  cases a <;> simp [kindOf]

theorem valueMatchesKind_codes (a : Operand) : valueMatchesKind (kindOf a) (valueField a) = true := by
  cases a <;> rfl

/-! ### What the decoder answers (R53) -/

/-- Everything `decode` can answer: the EMPTY slot for the all-zero word, else the instruction of the opcode with the
operands of the word. -/
theorem decode_eq_ok {iw : IWord} {i : Instr} :
    decode iw = .ok i ↔
      (iw = 0#128 ∧ i = .empty)
        ∨ (fieldOpc iw ≠ 0#8 ∧ ∃ r, decodeArgs iw = .ok r ∧ instrOfOpcode (fieldOpc iw).toNat r = some i) := by
  by_cases hopc : fieldOpc iw = 0#8
  · by_cases hiw : iw = 0#128
    · simp [decode, hiw, show fieldOpc 0#128 = 0#8 by decide, eq_comm]
    · simp [decode, hopc, hiw]
  · have hiw : iw ≠ 0#128 := by
      rintro rfl
      exact hopc (by decide)
    cases hr : decodeArgs iw with
    | error e => simp [decode, hopc, hiw, hr]
    | ok r => cases hi : instrOfOpcode (fieldOpc iw).toNat r <;> simp [decode, hopc, hiw, hr, hi]

/-- The operands of an encoded record are read back from its word when they are well-formed (R52, R53). -/
theorem decodeArgs_encode {i : Instr} (h : i.wellFormed = true) : decodeArgs (encode i) = .ok (argsOf i) := by
  have hadmit : admitArgs 0 (argsOf i) = .ok (argsOf i) :=
    admitArgs_eq_ok.mpr ⟨rfl, i.wellFormed_eq_args ▸ h, rfl⟩
  have hxa : ((if (argsOf i).xa then 1 else 0 : BitVec 1) == 1) = (argsOf i).xa := by
    cases (argsOf i).xa <;> rfl
  simp only [decodeArgs, encode, fieldK0_packWord, fieldK1_packWord, fieldK2_packWord, fieldV0_packWord,
    fieldV1_packWord, fieldV2_packWord, fieldRsv_packWord, fieldXa_packWord, decodeOperand_kind_value, hxa]
  exact hadmit

theorem decode_encode {i : Instr} (h : i.wellFormed = true) : decode (encode i) = .ok i := by
  by_cases hi : i = .empty
  · subst hi
    decide
  · have hopc : fieldOpc (encode i) = opcodeOf i := fieldOpc_packWord ..
    refine decode_eq_ok.mpr (.inr ⟨hopc ▸ opcodeOf_ne_zero hi, argsOf i, decodeArgs_encode h, ?_⟩)
    rw [hopc, instrOfOpcode_opcodeOf i hi]

theorem encode_of_decode {iw : IWord} {i : Instr} (h : decode iw = .ok i) : encode i = iw ∧ i.wellFormed = true := by
  obtain ⟨rfl, rfl⟩ | ⟨-, r, hr, hi⟩ := decode_eq_ok.mp h
  · decide
  · obtain ⟨hrsv, hwf, hxa, ⟨hk0, hv0⟩, ⟨hk1, hv1⟩, hk2, hv2⟩ := decodeArgs_eq_ok hr
    obtain ⟨hopc, rfl, hiwf, -⟩ := instrOfOpcode_eq_some hi
    have hxaBit : (if (argsOf i).xa then 1 else 0) = fieldXa iw := by
      rw [hxa]
      obtain hx | hx := BitVec.eq_zero_or_eq_one (fieldXa iw) <;> simp [hx]
    refine ⟨?_, hiwf.trans hwf⟩
    calc encode i
        = packWord (fieldOpc iw) (fieldK0 iw) (fieldK1 iw) (fieldK2 iw) (fieldXa iw) (fieldV0 iw) (fieldV1 iw)
            (fieldV2 iw) := by
          rw [← hxaBit, ← hk0, ← hk1, ← hk2, ← hv0, ← hv1, ← hv2, ← BitVec.eq_of_toNat_eq hopc]
          rfl
      _ = iw := packWord_fields iw hrsv

/-! ### The seven conditions (R53) -/

/-- Conditions 2 and 6 are all that the codes of an operand must meet. -/
theorem exists_decodeOperand {k : BitVec 4} {v : BitVec 32} (hk : k.toNat ≤ 5) (hv : valueMatchesKind k v = true) :
    ∃ a, decodeOperand k v = .ok a := by
  have value_zero (h : k = 0#4 ∨ k = 5#4) : v = 0#32 := by
    rcases h with rfl | rfl <;> simpa [valueMatchesKind] using hv
  interval_cases hn : k.toNat
  · exact ⟨.absent, by simp [decodeOperand, hn, value_zero (.inl (BitVec.eq_of_toNat_eq hn))]⟩
  · exact ⟨.reg v, by simp [decodeOperand, hn]⟩
  · exact ⟨.imm v, by simp [decodeOperand, hn]⟩
  · exact ⟨.pin v, by simp [decodeOperand, hn]⟩
  · exact ⟨.pout v, by simp [decodeOperand, hn]⟩
  · exact ⟨.bad, by simp [decodeOperand, hn, value_zero (.inr (BitVec.eq_of_toNat_eq hn))]⟩

/-- Condition 1 and the first half of condition 7: the opcodes from 1 to 20 are those of the instructions. -/
theorem exists_instrOfOpcode {n : Nat} (h0 : n ≠ 0) (h20 : n ≤ 20) (r : Args) : ∃ i, instrOfOpcode n r = some i := by
  have h1 : 1 ≤ n := Nat.one_le_iff_ne_zero.mpr h0
  interval_cases n <;> exact ⟨_, rfl⟩

/-- Conditions 4 and 5, on the operands and on their kinds. -/
theorem Args.wellFormed_iff_kinds (r : Args) :
    r.wellFormed = true ↔
      (kindOf r.a0 ≠ 0#4 ∨ kindOf r.a1 = 0#4) ∧ (kindOf r.a1 ≠ 0#4 ∨ kindOf r.a2 = 0#4)
        ∧ (r.xa = false ∨ kindOf r.a2 ≠ 0#4) := by
  simp only [ne_eq, kindOf_eq_zero]
  simp [Args.wellFormed, Args.noGap, Args.xaHasThird, and_assoc]

/-- The seven conditions, each on the fields that it speaks of. -/
theorem wordWellFormed_iff (iw : IWord) :
    wordWellFormed iw = true ↔
      (fieldOpc iw).toNat ≤ 20
        ∧ ((fieldK0 iw).toNat ≤ 5 ∧ (fieldK1 iw).toNat ≤ 5 ∧ (fieldK2 iw).toNat ≤ 5)
        ∧ fieldRsv iw = 0#11
        ∧ ((fieldK0 iw ≠ 0#4 ∨ fieldK1 iw = 0#4) ∧ (fieldK1 iw ≠ 0#4 ∨ fieldK2 iw = 0#4))
        ∧ (fieldXa iw ≠ 1#1 ∨ fieldK2 iw ≠ 0#4)
        ∧ (valueMatchesKind (fieldK0 iw) (fieldV0 iw) = true ∧ valueMatchesKind (fieldK1 iw) (fieldV1 iw) = true
          ∧ valueMatchesKind (fieldK2 iw) (fieldV2 iw) = true)
        ∧ (fieldOpc iw ≠ 0#8 ∨ iw = 0#128) := by
  simp [wordWellFormed, and_assoc]

/-- The word of a well-formed record meets the seven conditions. -/
theorem wordWellFormed_encode {i : Instr} (h : i.wellFormed = true) : wordWellFormed (encode i) = true := by
  obtain ⟨hgap0, hgap1, hthird⟩ := (argsOf i).wellFormed_iff_kinds.mp (i.wellFormed_eq_args ▸ h)
  have hempty : opcodeOf i ≠ 0#8 ∨ encode i = 0#128 := by
    by_cases hi : i = .empty
    · subst hi
      decide
    · exact .inl (opcodeOf_ne_zero hi)
  have hxa : (if (argsOf i).xa then 1 else 0) ≠ 1#1 ∨ kindOf (argsOf i).a2 ≠ 0#4 :=
    hthird.imp_left fun hf => by simp [hf]
  refine (wordWellFormed_iff _).mpr ⟨?_, ?_, ?_, ?_, ?_, ?_, ?_⟩ <;>
    simp only [encode, fieldOpc_packWord, fieldK0_packWord, fieldK1_packWord, fieldK2_packWord, fieldV0_packWord,
      fieldV1_packWord, fieldV2_packWord, fieldRsv_packWord, fieldXa_packWord]
  · exact opcodeOf_le i
  · exact ⟨kindOf_le _, kindOf_le _, kindOf_le _⟩
  · rfl
  · exact ⟨hgap0, hgap1⟩
  · exact hxa
  · exact ⟨valueMatchesKind_codes _, valueMatchesKind_codes _, valueMatchesKind_codes _⟩
  · exact hempty

/-- A word that meets conditions 2 to 6 has operands. -/
theorem exists_decodeArgs {iw : IWord} (h : wordWellFormed iw = true) : ∃ r, decodeArgs iw = .ok r := by
  obtain ⟨-, ⟨hk0, hk1, hk2⟩, hrsv, ⟨hgap0, hgap1⟩, hthird, ⟨hv0, hv1, hv2⟩, -⟩ := (wordWellFormed_iff iw).mp h
  obtain ⟨a0, h0⟩ := exists_decodeOperand hk0 hv0
  obtain ⟨a1, h1⟩ := exists_decodeOperand hk1 hv1
  obtain ⟨a2, h2⟩ := exists_decodeOperand hk2 hv2
  have hwf : Args.wellFormed ⟨a0, a1, a2, fieldXa iw == 1⟩ = true := by
    rw [Args.wellFormed_iff_kinds, (decodeOperand_eq_ok h0).1, (decodeOperand_eq_ok h1).1,
      (decodeOperand_eq_ok h2).1]
    exact ⟨hgap0, hgap1, by simpa using hthird⟩
  exact ⟨_, by simp only [decodeArgs, h0, h1, h2]; exact admitArgs_eq_ok.mpr ⟨hrsv, hwf, rfl⟩⟩

theorem exists_decode_iff (iw : IWord) : (∃ i, decode iw = .ok i) ↔ wordWellFormed iw = true := by
  constructor
  · rintro ⟨i, hi⟩
    obtain ⟨rfl, hwf⟩ := encode_of_decode hi
    exact wordWellFormed_encode hwf
  · intro h
    obtain ⟨hopc, -, -, -, -, -, hempty⟩ := (wordWellFormed_iff iw).mp h
    by_cases h0 : fieldOpc iw = 0#8
    · exact ⟨.empty, decode_eq_ok.mpr (.inl ⟨hempty.resolve_left (not_not.mpr h0), rfl⟩)⟩
    · obtain ⟨r, hr⟩ := exists_decodeArgs h
      obtain ⟨i, hi⟩ := exists_instrOfOpcode (fun hn => h0 (BitVec.eq_of_toNat_eq hn)) hopc r
      exact ⟨i, decode_eq_ok.mpr (.inr ⟨h0, r, hr, hi⟩)⟩

/-! ### The statements -/

/-- Settles O1: the fields of a packed word are read back one by one. -/
theorem encodeThenDecode : Obligations.EncodeThenDecode :=
  fun _ h => decode_encode h

/-- Settles O2: a decoded record has the codes of the word's own fields, and reserved bits are 0. -/
theorem decodeThenEncode : Obligations.DecodeThenEncode :=
  fun _ _ h => encode_of_decode h

/-- Settles O3: one direction through the word of the decoded record, the other condition by condition. -/
theorem decodeAcceptsWellFormedWords : Obligations.DecodeAcceptsWellFormedWords :=
  exists_decode_iff

/-- Settles O4, by evaluating the decoder on the six words of R63. -/
theorem sampleWordsDecode : Obligations.SampleWordsDecode := by
  refine ⟨?_, ?_, ?_, ?_, ?_, ?_⟩ <;> decide

end Sys2Proof
end

