-- ==== Sys2Proof/Proofs/Invariant.lean ====
section
/-! The invariant `State.Valid` of 10_state.md R10 to R22: every named update of the state keeps it, so every effect of
an instruction, every STEP and every sequence of host operations does. The statements O14, O15, O16 and O11 assembled
from these. -/

namespace Sys2Proof.Machine

/-- The bits 1 to 20 of `EXECUTED` are those of the instructions (R22). -/
theorem executed_bit_legal {n : Nat} (h0 : n ≠ 0) (h20 : n ≤ 20) :
    (1 : BitVec 32) <<< n &&& 0xFFE00001#32 = 0 := by
  have h1 : 1 ≤ n := Nat.one_le_iff_ne_zero.mpr h0
  interval_cases n <;> decide

/-! ### Updates of one store (R10, R16 to R20) -/

namespace State.Valid
variable {s : State} (hs : s.Valid)
include hs

theorem writeReg {n : Nat} (h1 : 1 ≤ n) (h2 : n ≤ s.cfg.nreg) (v : Word) : (s.writeReg n v).Valid :=
  { hs with regsWf := RegFile.wf_write hs.regsWf n v h1 h2 }

theorem writeMem {a : Nat} (h : a < s.cfg.memSize) (v : Word) : (s.writeMem a v).Valid :=
  { hs with memWf := Memory.wf_write hs.memWf a v h }

/-- A sector that has been written is allocated, so the value 0 of the others is not in question (R18). -/
theorem writeSector {a : Nat} (h : a < s.cfg.nsect) (v : Word) : (s.writeSector a ⟨v, true⟩).Valid :=
  { hs with
    diskWf := Disk.wf_write hs.diskWf a _ h
    diskAlloc := fun n hn => by
      by_cases hna : n = a
      · subst hna
        simp [State.sector] at hn
      · rw [State.sector, State.writeSector_disk, Cells.read_write_other _ _ _ _ _ hna] at hn ⊢
        exact hs.diskAlloc n hn }

theorem moveHead {a : Nat} (h : a < s.cfg.nsect) : (s.moveHead a).Valid :=
  { hs with headInRange := h }

theorem setInBuffer {p : Nat} (h : p < s.cfg.nin) (q : List Word) : (s.setInBuffer p q).Valid :=
  { hs with inqWf := Ports.wf_write hs.inqWf p q h }

theorem portOut {p : Nat} (h : p < s.cfg.nout) (v : Word) : (s.portOut p v).Valid :=
  { hs with outqWf := Ports.wf_write hs.outqWf p _ h }

theorem fillMiss (k v : Word) : (s.fillMiss k v).Valid :=
  { hs with cacheWf := CacheMap.wf_insert hs.cacheWf k v }

theorem flushCache : s.flushCache.Valid :=
  { hs with cacheWf := rfl }

theorem invalidate (k : Word) : (s.invalidate k).Valid :=
  { hs with cacheWf := CacheMap.wf_erase hs.cacheWf k }

/-! ### Updates of the counters, on which the invariant puts no condition (R21, R25) -/

theorem chargeRead (c : Nat) : (s.chargeRead c).Valid := { hs with }
theorem chargeWrite (c : Nat) : (s.chargeWrite c).Valid := { hs with }
theorem chargeTime (c : Nat) : (s.chargeTime c).Valid := { hs with }
theorem countHit : s.countHit.Valid := { hs with }
theorem countInputDraw : s.countInputDraw.Valid := { hs with }

/-! ### Updates of `pc`, the flags, `RUN` and `EXECUTED` (R11 to R14, R22) -/

theorem setFlags {f : Flags} (h : f.legal = true) : (s.setFlags f).Valid :=
  { hs with flagsLegal := h }

/-- While the engine runs, `pc` may name any slot of the program or its end (R11). -/
theorem jumpTo (hrun : s.run = .running) {slot : BitVec 32} (h : slot.toNat ≤ s.prog.length) :
    (s.jumpTo slot).Valid :=
  { hs with
    pcInRange := h
    completedAtEnd := fun hc => by simp [hrun] at hc
    faultedHere := fun hf => by simp [hrun] at hf }

/-- No program is so long that the slot after one of its slots has no number (R4, R11). -/
theorem prog_length_lt : s.prog.length < 2 ^ 31 := by
  have hlegal := hs.cfgLegal
  simp only [Config.legal, Bool.and_eq_true, decide_eq_true_eq] at hlegal
  have := hs.progFits
  omega

theorem advance (hrun : s.run = .running) (hpc : s.pc.toNat < s.prog.length) : s.advance.Valid :=
  hs.jumpTo hrun (slot := s.pc + 1) <| by
    have := hs.prog_length_lt
    rw [BitVec.toNat_add_of_lt] <;> simp <;> omega

theorem retire {i : Instr} (hi : i ≠ .empty) : (s.retire (opcodeOf i)).Valid :=
  { hs with
    executedBits := by
      have hbit := executed_bit_legal (fun h0 => opcodeOf_ne_zero hi (BitVec.eq_of_toNat_eq h0)) (opcodeOf_le i)
      rw [State.retire_executed, BitVec.and_comm, BitVec.and_or_distrib_left, BitVec.and_comm _ s.executed,
        hs.executedBits, BitVec.and_comm, hbit]
      rfl }

/-- Fault entry at an instruction of the program keeps the relation between `RUN` and `FAULT` (R14, R147). -/
theorem takeFault (hpc : s.pc.toNat < s.prog.length) {k : FaultKind} (hk : k ≠ .none) : (s.takeFault k).Valid :=
  { hs with
    idleEmpty := fun h => by simp at h
    completedAtEnd := fun h => by simp at h
    faultedHere := fun _ => ⟨hk, rfl, hpc⟩
    unfaulted := fun h => absurd rfl h }

theorem markCompleted (hrun : s.run = .running) (hpc : s.prog.length ≤ s.pc.toNat) : s.markCompleted.Valid :=
  { hs with
    idleEmpty := fun h => by simp at h
    completedAtEnd := fun _ => Nat.le_antisymm hs.pcInRange hpc
    faultedHere := fun h => by simp at h
    unfaulted := fun _ => hs.unfaulted (by simp [hrun]) }

end State.Valid

/-! ### Instructions -/

/-- CMP computes a legal combination of the flags (R12, R100). -/
theorem compareFlags_legal (a b : Word) : (compareFlags a b).legal = true := by
  obtain h | h | h := lt_trichotomy a.toInt b.toInt
  · have hsub : ¬ a.toInt - b.toInt = 0 := by omega
    simp [compareFlags, Flags.legal, h, h.ne, h.le, hsub]
  · simp [compareFlags, Flags.legal, h]
  · have hsub : ¬ a.toInt - b.toInt = 0 := by omega
    simp [compareFlags, Flags.legal, h, h.ne', h.le, hsub]

/-- The slot of a line in `[1, PROG_LEN]` lies in the program (R101). -/
theorem toNat_line_sub_one_lt {line : Word} {len : Nat} (h1 : 1 ≤ line.toInt) (h2 : line.toInt ≤ len) :
    (line - 1).toNat < len := by
  have hline := line.toInt_eq_toNat_cond
  have := line.isLt
  split at hline
  · rw [BitVec.toNat_sub_of_le (by rw [BitVec.le_def]; simp; omega)]
    simp
    omega
  · omega

/-- The effect of an instruction of the program keeps the invariant. -/
theorem Effect.valid {s u : State} {i : Instr} (h : Effect s i u) (hs : s.Valid) (hrun : s.run = .running)
    (hpc : s.pc.toNat < s.prog.length) : u.Valid := by
  have hnext {t : State} (ht : t.Valid) (htrun : t.run = s.run) (htpc : t.pc = s.pc) (htprog : t.prog = s.prog) :
      t.advance.Valid := ht.advance (htrun.trans hrun) (by rwa [htpc, htprog])
  cases h with
  | mov h1 h2 | add h1 h2 | sub h1 h2 | mul h1 h2 | div h1 h2 | mod h1 h2 =>
    exact hnext (hs.writeReg h1 h2 _) rfl rfl rfl
  | cmp => exact hnext (hs.setFlags (compareFlags_legal _ _)) rfl rfl rfl
  | jmp h1 h2 | je h1 h2 | jne h1 h2 => exact hs.jumpTo hrun (toNat_line_sub_one_lt h1 h2).le
  | je' | jne' => exact hs.advance hrun hpc
  | load h1 h2 | dread h1 h2 => exact hnext ((hs.chargeRead _).writeReg h1 h2 _) rfl rfl rfl
  | store ha => exact hnext ((hs.writeMem ha _).chargeWrite _) rfl rfl rfl
  | hit h1 h2 => exact hnext (hs.countHit.writeReg h1 h2 _) rfl rfl rfl
  | miss h1 h2 => exact hnext ((hs.fillMiss _ _).writeReg h1 h2 _) rfl rfl rfl
  | flush => exact hnext hs.flushCache rfl rfl rfl
  | inval => exact hnext (hs.invalidate _) rfl rfl rfl
  | dwrite ha => exact hnext ((hs.writeSector ha _).chargeWrite _) rfl rfl rfl
  | seek ha => exact hnext ((hs.moveHead ha).chargeTime _) rfl rfl rfl
  | inq h1 h2 hp => exact hnext ((hs.setInBuffer hp _).writeReg h1 h2 _) rfl rfl rfl
  | indraw h1 h2 => exact hnext (hs.countInputDraw.writeReg h1 h2 _) rfl rfl rfl
  | out hp => exact hnext (hs.portOut hp _) rfl rfl rfl

/-- No row of R140 lists the kind `None`. -/
theorem MayRaise.ne_none {k : FaultKind} {i : Instr} (h : MayRaise k i) : k ≠ .none := by
  rintro rfl
  exact h

theorem exec_keeps_valid {i : Instr} {s t : State} (hs : s.Valid) (hrun : s.run = .running)
    (hpc : s.pc.toNat < s.prog.length) (h : exec i s = .next t) : t.Valid := by
  obtain ⟨-, rfl⟩ | ⟨hi, u, hu, rfl⟩ | ⟨-, k, hk, rfl⟩ := exec_next h
  · exact hs.advance hrun hpc
  · exact (hu.valid hs hrun hpc).retire hi
  · exact hs.takeFault hpc hk.ne_none

/-! ### STEP (R72) -/

/-- The skipping of fetch stops in the program or at its end (R73). -/
theorem State.skipEmpties_pc_toNat {s : State} (hpc : s.pc.toNat ≤ s.progLen) (hlen : s.progLen < 2 ^ 32) :
    s.skipEmpties.pc.toNat = s.pc.toNat + leadingEmpties (s.prog.drop s.pc.toNat)
      ∧ s.skipEmpties.pc.toNat ≤ s.progLen := by
  have hle := leadingEmpties_le (s.prog.drop s.pc.toNat)
  simp only [List.length_drop] at hle
  simp only [State.progLen] at hpc hlen ⊢
  have : s.skipEmpties.pc.toNat = s.pc.toNat + leadingEmpties (s.prog.drop s.pc.toNat) := by
    rw [State.skipEmpties_pc, BitVec.toNat_add, BitVec.toNat_ofNat]
    omega
  omega

theorem State.Valid.skipEmpties {s : State} (hs : s.Valid) (hrun : s.run = .running) : s.skipEmpties.Valid :=
  hs.jumpTo hrun (State.skipEmpties_pc_toNat hs.pcInRange
    (by have := hs.prog_length_lt; simp only [State.progLen]; omega)).2

/-- Everything fetch can find (R72, R73). -/
theorem fetch_cases (s : State) :
    (s.run ≠ .running ∧ fetch s = .notRunning)
      ∨ (s.run = .running ∧ s.progLen ≤ s.skipEmpties.pc.toNat ∧ fetch s = .endOfProgram s.skipEmpties)
      ∨ (s.run = .running ∧ s.skipEmpties.pc.toNat < s.progLen
        ∧ ((∃ e, decode (s.slot s.skipEmpties.pc.toNat) = .error e
              ∧ fetch s = .illFormed (s.skipEmpties.pc + 1) e)
          ∨ ∃ i, decode (s.slot s.skipEmpties.pc.toNat) = .ok i ∧ fetch s = .instruction i s.skipEmpties)) := by
  by_cases hrun : s.run = .running
  · by_cases hend : s.progLen ≤ s.skipEmpties.pc.toNat
    · exact .inr (.inl ⟨hrun, hend, by rw [fetch, if_pos hrun]; exact if_pos hend⟩)
    · refine .inr (.inr ⟨hrun, by omega, ?_⟩)
      have hfetch : fetch s = match decode (s.slot s.skipEmpties.pc.toNat) with
          | .ok i => .instruction i s.skipEmpties
          | .error e => .illFormed (s.skipEmpties.pc + 1) e := by
        rw [fetch, if_pos hrun]; exact if_neg hend
      cases hd : decode (s.slot s.skipEmpties.pc.toNat) with
      | error e => exact .inl ⟨e, rfl, by rw [hfetch, hd]⟩
      | ok i => exact .inr ⟨i, rfl, by rw [hfetch, hd]⟩
  · exact .inl ⟨hrun, fetch_not_running hrun⟩

/-- Every next state of STEP: the same state outside `Running`, the completed run, or the next state of the
instruction found (R72, R74, R80). -/
theorem step_next {s t : State} (h : step s = .next t) :
    (s.run ≠ .running ∧ t = s)
      ∨ (s.run = .running ∧ s.progLen ≤ s.skipEmpties.pc.toNat ∧ t = s.skipEmpties.markCompleted)
      ∨ (s.run = .running ∧ s.skipEmpties.pc.toNat < s.progLen
        ∧ ∃ i, decode (s.slot s.skipEmpties.pc.toNat) = .ok i ∧ exec i s.skipEmpties = .next t) := by
  obtain ⟨hrun, hf⟩ | ⟨hrun, hend, hf⟩ | ⟨hrun, hin, ⟨e, -, hf⟩ | ⟨i, hi, hf⟩⟩ := fetch_cases s <;>
    simp only [step, hf, Host.Outcome.next.injEq, reduceCtorEq] at h
  · exact .inl ⟨hrun, h.symm⟩
  · exact .inr (.inl ⟨hrun, hend, h.symm⟩)
  · exact .inr (.inr ⟨hrun, hin, i, hi, h⟩)

theorem step_keeps_valid {s t : State} (hs : s.Valid) (h : step s = .next t) : t.Valid := by
  obtain ⟨-, rfl⟩ | ⟨hrun, hend, rfl⟩ | ⟨hrun, hin, i, -, h⟩ := step_next h
  · exact hs
  · exact (hs.skipEmpties hrun).markCompleted hrun hend
  · exact exec_keeps_valid (hs.skipEmpties hrun) hrun hin h

/-! ### The parameters are fixed (R4) -/

theorem Effect.cfg_eq {s u : State} {i : Instr} (h : Effect s i u) : u.cfg = s.cfg := by
  cases h <;> rfl

theorem exec_cfg {i : Instr} {s t : State} (h : exec i s = .next t) : t.cfg = s.cfg := by
  obtain ⟨-, rfl⟩ | ⟨-, u, hu, rfl⟩ | ⟨-, k, -, rfl⟩ := exec_next h
  · rfl
  · exact hu.cfg_eq
  · rfl

theorem step_cfg {s t : State} (h : step s = .next t) : t.cfg = s.cfg := by
  obtain ⟨-, rfl⟩ | ⟨-, -, rfl⟩ | ⟨-, -, i, -, h⟩ := step_next h
  · rfl
  · rfl
  · exact (exec_cfg h :)

/-! ### RESET and START (R24, R71, R160) -/

theorem State.resetWith_valid {c : Config} (h : c.legal = true) : (State.resetWith c).Valid where
  cfgLegal := h
  regsWf := rfl
  memWf := rfl
  cacheWf := rfl
  diskWf := rfl
  diskAlloc := fun _ _ => rfl
  headInRange := by
    simp only [Config.legal, Bool.and_eq_true, decide_eq_true_eq] at h
    simp only [State.resetWith]
    omega
  inqWf := rfl
  outqWf := rfl
  progFits := Nat.zero_le _
  progWords := by simp [State.resetWith]
  pcInRange := Nat.le_refl _
  idleEmpty := fun _ => rfl
  completedAtEnd := fun _ => rfl
  faultedHere := fun h => by simp [State.resetWith] at h
  unfaulted := fun _ => rfl
  flagsLegal := rfl
  executedBits := BitVec.zero_and

theorem State.Valid.hostReset {s : State} (hs : s.Valid) : s.hostReset.Valid :=
  { State.resetWith_valid hs.cfgLegal with }

/-- An admissible image can be installed in any consistent engine. -/
theorem State.Valid.install {s : State} (hs : s.Valid) {image : List IWord} (hlen : image.length ≤ s.cfg.progMax)
    (hwords : ∀ iw ∈ image, wordWellFormed iw = true) : (s.install image).Valid :=
  { hs with
    regsWf := rfl
    progFits := hlen
    progWords := hwords
    pcInRange := Nat.zero_le _
    idleEmpty := fun h => by simp at h
    completedAtEnd := fun h => by simp at h
    faultedHere := fun h => by simp at h
    unfaulted := fun _ => rfl
    flagsLegal := rfl
    executedBits := BitVec.zero_and }

theorem firstIllFormed_eq_none {image : List IWord} :
    firstIllFormed image = none ↔ ∀ iw ∈ image, wordWellFormed iw = true := by
  induction image with
  | nil => simp [firstIllFormed]
  | cons iw rest ih =>
    by_cases h : wordWellFormed iw = true
    · cases hr : firstIllFormed rest <;> simpa [firstIllFormed, h, hr] using ih
    · simp [firstIllFormed, h]

/-- Everything the validation phase of START can find (R71). -/
theorem validateImage_cases (s : State) (image : List IWord) :
    (s.cfg.progMax < image.length ∧ validateImage s image = .parseError (s.cfg.progMax + 1))
      ∨ (image.length ≤ s.cfg.progMax ∧
        ((∃ k, firstIllFormed image = some k ∧ validateImage s image = .parseError (k + 1))
          ∨ (∀ iw ∈ image, wordWellFormed iw = true) ∧ validateImage s image = .ok)) := by
  by_cases hlen : s.cfg.progMax < image.length
  · exact .inl ⟨hlen, if_pos hlen⟩
  · refine .inr ⟨by omega, ?_⟩
    cases hf : firstIllFormed image with
    | some k => exact .inl ⟨k, rfl, by simp [validateImage, hlen, hf]⟩
    | none => exact .inr ⟨firstIllFormed_eq_none.mp hf, by simp [validateImage, hlen, hf]⟩

theorem State.Valid.hostStart {s : State} (hs : s.Valid) (image : List IWord) : (hostStart image s).1.Valid := by
  obtain ⟨-, h⟩ | ⟨hlen, ⟨k, -, h⟩ | ⟨hwords, h⟩⟩ := validateImage_cases s image <;> rw [Machine.hostStart, h]
  · exact hs
  · exact hs
  · exact hs.install hlen hwords

theorem State.Valid.hostInject {s : State} (hs : s.Valid) (p : Nat) (v : Word) : (hostInject p v s).1.Valid := by
  obtain ⟨hp, h⟩ | ⟨-, h⟩ := hostInject_cases p v s <;> rw [h]
  · exact hs.setInBuffer hp _
  · exact hs

/-! ### Host operations (R70) -/

theorem applyOp_keeps_valid {op : HostOp} {s t : State} (hs : s.Valid) (h : applyOp op s = .next t) : t.Valid := by
  cases op with
  | reset => obtain rfl := Host.Outcome.next.inj h; exact hs.hostReset
  | start image => obtain rfl := Host.Outcome.next.inj h; exact hs.hostStart image
  | step => exact step_keeps_valid hs h
  | inject p v => obtain rfl := Host.Outcome.next.inj h; exact hs.hostInject p v

theorem applyOp_cfg {op : HostOp} {s t : State} (h : applyOp op s = .next t) : t.cfg = s.cfg := by
  cases op with
  | reset => obtain rfl := Host.Outcome.next.inj h; rfl
  | start image =>
    obtain rfl := Host.Outcome.next.inj h
    obtain hs | ⟨line, hs⟩ := hostStart_cases image s <;> rw [hs]
    rfl
  | step => exact step_cfg h
  | inject p v =>
    obtain rfl := Host.Outcome.next.inj h
    obtain ⟨-, hi⟩ | ⟨-, hi⟩ := hostInject_cases p v s <;> rw [hi]
    rfl

/-- A sequence of host operations goes through the next state of its first one. -/
theorem applyOps_cons_eq_next {op : HostOp} {ops : List HostOp} {s t : State} :
    applyOps (op :: ops) s = .next t ↔ ∃ u, applyOp op s = .next u ∧ applyOps ops u = .next t := by
  cases h : applyOp op s <;> simp [applyOps, h]

/-! ### Progress (R4, R72) -/

/-- A consistent engine finds no ill-formed word, and no instruction is refused under the default rule. -/
theorem State.Valid.exists_step {s : State} (hs : s.Valid) (hwrap : s.cfg.overflow = .wrap) :
    ∃ t, step s = .next t := by
  obtain ⟨-, hf⟩ | ⟨-, -, hf⟩ | ⟨-, hin, ⟨e, he, -⟩ | ⟨i, -, hf⟩⟩ := fetch_cases s
  · exact ⟨s, by rw [step, hf]⟩
  · exact ⟨_, by rw [step, hf]⟩
  · have hmem : s.slot s.skipEmpties.pc.toNat ∈ s.prog := by
      rw [State.slot, List.getD_eq_getElem _ _ hin]
      exact List.getElem_mem hin
    obtain ⟨i, hi⟩ := (exists_decode_iff _).mpr (hs.progWords _ hmem)
    exact absurd (he.symm.trans hi) (by simp)
  · simp only [step, hf]
    by_cases hi : i = .empty
    · exact ⟨_, by rw [hi]; rfl⟩
    · obtain ⟨u, -, he⟩ | ⟨k, -, he⟩ | ⟨x, hrefuse, -⟩ := exec_cases i s.skipEmpties hi
      · exact ⟨_, he⟩
      · exact ⟨_, he⟩
      · simp [hwrap] at hrefuse

end Sys2Proof.Machine

namespace Sys2Proof
open Sys2Proof.Machine

/-- Settles O14: every store empty, every number 0. -/
theorem resetIsValid : Obligations.ResetIsValid :=
  ⟨fun _ h => State.resetWith_valid h, rfl, by decide⟩

/-- Settles O15: by what STEP can do, and for an instruction by its effect, booked, or fault entry. -/
theorem stepKeepsValid : Obligations.StepKeepsValid :=
  fun _ _ hs h => step_keeps_valid hs h

/-- Settles O16, by induction on the sequence. -/
theorem hostOperationsKeepValid : Obligations.HostOperationsKeepValid := by
  intro ops
  induction ops with
  | nil =>
    intro s t hs h
    obtain rfl := Host.Outcome.next.inj h
    exact ⟨hs, rfl⟩
  | cons op ops ih =>
    intro s t hs h
    obtain ⟨u, hu, ht⟩ := applyOps_cons_eq_next.mp h
    obtain ⟨hvalid, hcfg⟩ := ih u t (applyOp_keeps_valid hs hu) ht
    exact ⟨hvalid, hcfg.trans (applyOp_cfg hu)⟩

/-- Settles O11. -/
theorem validStepHasNext : Obligations.ValidStepHasNext :=
  fun _ hs hwrap => hs.exists_step hwrap

end Sys2Proof
end

