-- ==== Sys2Proof/Proofs/Writers.lean ====
section
/-! Which instruction changes which item of state (10_state.md R10 to R22, 60_exceptions.md R140, R147): one lemma for
each item on the effect of an instruction, and the statements O34, O44, O45, O46, O50, O51, O52 and O53 assembled from
these. -/

namespace Sys2Proof.Machine

/-! ### The items that no effect changes (R13 to R15, R21, R22) -/

section Effects
variable {s u : State} {i : Instr} (h : Effect s i u)
include h

theorem Effect.fault_eq : u.fault = s.fault := by cases h <;> rfl
theorem Effect.prog_eq : u.prog = s.prog := by cases h <;> rfl
theorem Effect.cycles_eq : u.cycles = s.cycles := by cases h <;> rfl
theorem Effect.executed_eq : u.executed = s.executed := by cases h <;> rfl

/-! ### The instructions whose effect changes each other item -/

theorem Effect.regs_writers : u.regs = s.regs ∨ (opcodeOf i).toNat ∈ [1, 2, 3, 4, 5, 6, 11, 13, 14, 17] := by
  cases h <;> simp [opcodeOf]

theorem Effect.pc_writers : u.pc = s.pc + 1 ∨ (opcodeOf i).toNat ∈ [8, 9, 10] := by
  cases h <;> simp [opcodeOf]

theorem Effect.flags_writers : u.flags = s.flags ∨ (opcodeOf i).toNat = 7 := by
  cases h <;> simp [opcodeOf]

theorem Effect.readOps_writers : u.readOps = s.readOps ∨ (opcodeOf i).toNat ∈ [11, 14]
    ∨ ((opcodeOf i).toNat = 13 ∧ u.cacheMisses = s.cacheMisses + 1) := by
  cases h <;> simp [opcodeOf]

theorem Effect.writeOps_writers : u.writeOps = s.writeOps ∨ (opcodeOf i).toNat ∈ [12, 15] := by
  cases h <;> simp [opcodeOf]

theorem Effect.cacheCounters_writers :
    (u.cacheHits = s.cacheHits ∧ u.cacheMisses = s.cacheMisses) ∨ (opcodeOf i).toNat = 13 := by
  cases h <;> simp [opcodeOf]

theorem Effect.time2_writers : u.time2 = s.time2 ∨ (opcodeOf i).toNat ∈ [11, 12, 13, 14, 15, 16] := by
  cases h <;> simp [opcodeOf]

theorem Effect.mem_writers : u.mem = s.mem ∨ (opcodeOf i).toNat = 12 := by
  cases h <;> simp [opcodeOf]

theorem Effect.cache_writers : u.cache = s.cache ∨ (opcodeOf i).toNat ∈ [19, 20]
    ∨ ((opcodeOf i).toNat = 13 ∧ u.cacheMisses = s.cacheMisses + 1) := by
  cases h <;> simp [opcodeOf]

theorem Effect.disk_writers : u.disk = s.disk ∨ (opcodeOf i).toNat = 15 := by
  cases h <;> simp [opcodeOf]

theorem Effect.head_writers : u.head = s.head ∨ (opcodeOf i).toNat = 16 := by
  cases h <;> simp [opcodeOf]

theorem Effect.inq_writers : u.inq = s.inq ∨ (opcodeOf i).toNat = 17 := by
  cases h <;> simp [opcodeOf]

theorem Effect.outq_writers : u.outq = s.outq ∨ (opcodeOf i).toNat = 18 := by
  cases h <;> simp [opcodeOf]

theorem Effect.cacheDraws_writers : u.cacheDraws = s.cacheDraws ∨ (opcodeOf i).toNat = 13 := by
  cases h <;> simp [opcodeOf]

theorem Effect.inputDraws_writers : u.inputDraws = s.inputDraws ∨ (opcodeOf i).toNat = 17 := by
  cases h <;> simp [opcodeOf]

/-- The record of an output port gets at most the one word of OUT, at its end (R131). -/
theorem Effect.outRecord_grows (p : Nat) : ∃ more, u.outRecord p = s.outRecord p ++ more ∧ more.length ≤ 1 := by
  cases h with
  | @out r q v hq =>
    by_cases hpq : p = q
    · subst hpq
      exact ⟨[v], Cells.read_write_same .., Nat.le_refl _⟩
    · exact ⟨[], by rw [List.append_nil]; exact Cells.read_write_other _ _ _ _ _ hpq, Nat.zero_le _⟩
  | _ => exact ⟨[], (List.append_nil _).symm, Nat.zero_le _⟩

end Effects

/-- A CACHE that completes is counted once, as a hit or as a miss (R37). -/
theorem Effect.cache_counts {s u : State} {r : Args} (h : Effect s (.cache r) u) :
    (u.cacheHits = s.cacheHits + 1 ∧ u.cacheMisses = s.cacheMisses)
      ∨ (u.cacheHits = s.cacheHits ∧ u.cacheMisses = s.cacheMisses + 1) := by
  cases h with
  | hit => exact .inl ⟨rfl, rfl⟩
  | miss => exact .inr ⟨rfl, rfl⟩

/-! ### Instructions that fault (R140, R147) -/

/-- A running engine that an instruction stops has taken a fault that the instruction can raise. -/
theorem exec_stopped {i : Instr} {s t : State} (hrun : s.run = .running) (h : exec i s = .next t)
    (ht : t.run ≠ .running) : i ≠ .empty ∧ ∃ k, MayRaise k i ∧ t = s.takeFault k := by
  obtain ⟨-, rfl⟩ | ⟨-, u, hu, rfl⟩ | hf := exec_next h
  · exact absurd hrun ht
  · exact absurd (hu.run_eq.trans hrun) ht
  · exact hf

theorem exec_outRecord_grows {i : Instr} {s t : State} (h : exec i s = .next t) (p : Nat) :
    ∃ more, t.outRecord p = s.outRecord p ++ more ∧ more.length ≤ 1 := by
  obtain ⟨-, rfl⟩ | ⟨-, u, hu, rfl⟩ | ⟨-, k, -, rfl⟩ := exec_next h
  · exact ⟨[], (List.append_nil _).symm, Nat.zero_le _⟩
  · exact hu.outRecord_grows p
  · exact ⟨[], (List.append_nil _).symm, Nat.zero_le _⟩

/-- CACHE is the instruction of its opcode number (R54). -/
theorem eq_cache_of_opcode {i : Instr} (h : (opcodeOf i).toNat = 13) : ∃ r, i = .cache r := by
  cases i with
  | cache r => exact ⟨r, rfl⟩
  | _ => simp [opcodeOf] at h

end Sys2Proof.Machine

namespace Sys2Proof
open Sys2Proof.Machine

/-- Settles O44: the engine has stopped, so the fault was entered in the state before. -/
theorem faultsChangeNothingElse : Obligations.FaultsChangeNothingElse := by
  intro i s t hrun h ht
  obtain ⟨-, k, hk, rfl⟩ := exec_stopped hrun h ht
  exact ⟨k, hk.ne_none, rfl⟩

/-- Settles O45: the effect of an instruction leaves `CYCLES`, `EXECUTED` and `FAULT`, and is then booked. -/
theorem completionIsBooked : Obligations.CompletionIsBooked := by
  intro i s t _ hi h ht
  obtain ⟨u, hu, rfl⟩ := exec_completed hi h ht
  rw [State.retire_cycles, State.retire_executed, State.retire_fault, hu.cycles_eq, hu.executed_eq, hu.fault_eq]
  exact ⟨rfl, rfl, rfl⟩

/-- Settles O46: the kind is one that the instruction's row of R140 lists. -/
theorem faultKindsByInstruction : Obligations.FaultKindsByInstruction := by
  intro i s t hrun h ht
  obtain ⟨hi, k, hk, rfl⟩ := exec_stopped hrun h (by simp [ht])
  rw [State.takeFault_fault]
  refine ⟨?_, ?_, ?_, hk.ne_none, hi⟩
  all_goals rintro rfl; exact hk

/-- Settles O50: the EMPTY slot moves `pc` only, an effect changes the items of its instruction and is then booked,
and fault entry writes `RUN` and `FAULT`. -/
theorem eachItemHasItsWriters : Obligations.EachItemHasItsWriters := by
  intro i s t h
  obtain ⟨-, rfl⟩ | ⟨hi, u, hu, rfl⟩ | ⟨hi, k, hk, rfl⟩ := exec_next h
  · simp
  · have hkeep : ¬ (u.run ≠ s.run ∨ u.fault ≠ s.fault) := by simp [hu.run_eq, hu.fault_eq]
    exact ⟨hu.regs_writers.resolve_left, fun hpc => .inl (hu.pc_writers.resolve_left hpc),
      hu.flags_writers.resolve_left, fun hne => absurd hne hkeep,
      fun _ => ⟨hi, congrArg (· + 1) hu.cycles_eq, hu.run_eq, hu.fault_eq⟩, hu.readOps_writers.resolve_left,
      hu.writeOps_writers.resolve_left, fun hne => hu.cacheCounters_writers.resolve_left (by tauto),
      hu.time2_writers.resolve_left,
      fun _ => ⟨hi, congrArg (· ||| _) hu.executed_eq, congrArg (· + 1) hu.cycles_eq⟩, hu.mem_writers.resolve_left,
      fun hne => by
        have := hu.cache_writers.resolve_left hne
        simp only [List.mem_cons, List.not_mem_nil, or_false] at this ⊢
        tauto,
      hu.disk_writers.resolve_left, hu.head_writers.resolve_left, hu.inq_writers.resolve_left,
      hu.outq_writers.resolve_left, hu.cacheDraws_writers.resolve_left, hu.inputDraws_writers.resolve_left,
      hu.prog_eq, hu.cfg_eq⟩
  · simp [hi, hk.ne_none]

/-- Settles O51: the writers of each counter of O50 are none of these instructions. -/
theorem costFreeInstructions : Obligations.CostFreeInstructions := by
  intro i s t hfree h
  obtain ⟨-, -, -, -, -, hread, hwrite, hcache, htime, -⟩ := eachItemHasItsWriters i s t h
  simp only [List.mem_cons, List.not_mem_nil, or_false] at hfree hread hwrite htime
  refine ⟨?_, ?_, ?_, ?_, ?_⟩ <;> by_contra hne
  · have := htime hne
    omega
  · have := hread hne
    omega
  · have := hwrite hne
    omega
  · have := hcache (.inl hne)
    omega
  · have := hcache (.inr hne)
    omega

/-- Settles O34: a CACHE that completes by its two effects, anything else by the writers of the two counters. -/
theorem hitsAndMissesCountAccesses : Obligations.HitsAndMissesCountAccesses := by
  intro i s t hrun h
  constructor
  · rintro ⟨r, rfl⟩ ht
    obtain ⟨u, hu, rfl⟩ := exec_completed (by simp) h ht
    exact hu.cache_counts
  · rintro (hi | ht)
    · obtain ⟨-, -, -, -, -, -, -, hcache, -⟩ := eachItemHasItsWriters i s t h
      by_contra hne
      obtain ⟨r, hr⟩ := eq_cache_of_opcode (hcache (by tauto))
      exact hi r hr
    · obtain ⟨-, k, -, rfl⟩ := exec_stopped hrun h ht
      exact ⟨rfl, rfl⟩

/-- Settles O52: of all that STEP can do, only the effect of OUT writes a record. -/
theorem outputRecordsOnlyGrow : Obligations.OutputRecordsOnlyGrow := by
  intro s t p h
  obtain ⟨-, rfl⟩ | ⟨-, -, rfl⟩ | ⟨-, -, i, -, h⟩ := step_next h
  · exact ⟨[], (List.append_nil _).symm, Nat.zero_le _⟩
  · exact ⟨[], (List.append_nil _).symm, Nat.zero_le _⟩
  · exact exec_outRecord_grows h p

/-- Settles O53. -/
theorem everyInstructionRuns : Obligations.EveryInstructionRuns := by
  intro i s
  by_cases hi : i = .empty
  · subst hi
    exact .inl ⟨_, rfl⟩
  · obtain ⟨u, -, he⟩ | ⟨k, -, he⟩ | ⟨x, hrefuse, hfit, hopc, he⟩ := exec_cases i s hi
    · exact .inl ⟨_, he⟩
    · exact .inl ⟨_, he⟩
    · exact .inr ⟨hrefuse, hopc, x, hfit, he⟩

end Sys2Proof
end

