-- ==== Sys2Proof/Proofs/Tick.lean ====
section
/-! One tick (40_engine_cycle.md R72 to R81): the skipping of EMPTY slots, what STEP returns and which notification it
emits by what fetch finds, and the statements O6 to O10 and O13 assembled from these. -/

namespace Sys2Proof.Machine

/-! ### The skipping of EMPTY slots (R73) -/

/-- A slot that is not EMPTY is where fetch stays. -/
theorem State.skipEmpties_of_slot_ne_zero {s : State} (hpc : s.pc.toNat < s.progLen) (h : s.slot s.pc.toNat ≠ 0) :
    s.skipEmpties = s := by
  rw [State.skipEmpties, leadingEmpties_of_ne_zero hpc h]
  simp

/-- From an EMPTY slot fetch goes on as from the next slot. -/
theorem State.skipEmpties_advance {s : State} (hpc : s.pc.toNat < s.progLen) (hlen : s.progLen < 2 ^ 32)
    (h : s.slot s.pc.toNat = 0) : s.advance.skipEmpties = s.skipEmpties := by
  have hnext : (s.pc + 1).toNat = s.pc.toNat + 1 := by
    rw [BitVec.toNat_add_of_lt] <;> simp
    omega
  have hcount : leadingEmpties (s.prog.drop s.pc.toNat) = leadingEmpties (s.prog.drop (s.pc.toNat + 1)) + 1 :=
    leadingEmpties_drop_succ hpc h
  simp only [State.skipEmpties, State.advance, hnext, hcount, BitVec.ofNat_add, State.mk.injEq, true_and, and_true]
  rw [BitVec.add_assoc, BitVec.add_comm 1]
  rfl

/-- With no instruction from `pc` on fetch stops at `PROG_LEN` (R74). -/
theorem State.skipEmpties_pc_of_all_zero {s : State} (hpc : s.pc.toNat ≤ s.progLen)
    (h : ∀ k, s.pc.toNat ≤ k → s.slot k = 0) : s.skipEmpties.pc = BitVec.ofNat 32 s.progLen := by
  have hzero : ∀ iw ∈ s.prog.drop s.pc.toNat, iw = 0 := by
    intro iw hiw
    obtain ⟨k, hk, rfl⟩ := List.getElem_of_mem hiw
    have := h (s.pc.toNat + k) (Nat.le_add_right _ _)
    rw [List.length_drop] at hk
    rw [State.slot, List.getD_eq_getElem _ _ (by omega)] at this
    rw [List.getElem_drop, this]
  rw [State.skipEmpties_pc, leadingEmpties_of_all_zero hzero, List.length_drop]
  apply BitVec.eq_of_toNat_eq
  rw [State.progLen] at hpc ⊢
  simp
  omega

/-- The slot at which fetch stops inside the program is no EMPTY slot (R73, R81). -/
theorem State.slot_skipEmpties_ne_zero {s : State} (hlen : s.progLen < 2 ^ 32)
    (hin : s.skipEmpties.pc.toNat < s.progLen) : s.slot s.skipEmpties.pc.toNat ≠ 0 := by
  by_cases hpc : s.pc.toNat ≤ s.progLen
  · obtain ⟨heq, -⟩ := State.skipEmpties_pc_toNat hpc hlen
    rw [heq] at hin ⊢
    have hstop := getD_leadingEmpties (l := s.prog.drop s.pc.toNat) (by
      rw [List.length_drop]; rw [State.progLen] at hin; omega)
    rwa [List.getD_eq_getElem?_getD, List.getElem?_drop, ← List.getD_eq_getElem?_getD] at hstop
  · have hnone : s.prog.drop s.pc.toNat = [] := List.drop_eq_nil_of_le (by rw [State.progLen] at hpc; omega)
    rw [State.skipEmpties_pc, hnone] at hin
    simp [leadingEmpties] at hin
    omega

/-- Of a running engine STEP sees the state after the skipping only. -/
theorem step_congr {s t : State} (hs : s.run = .running) (ht : t.run = .running)
    (h : s.skipEmpties = t.skipEmpties) : step s = step t := by
  have hfetch : fetch s = fetch t := by simp only [fetch, hs, ht, h]
  obtain ⟨hn, -⟩ | ⟨-, -, hf⟩ | ⟨-, -, ⟨e, -, hf⟩ | ⟨i, -, hf⟩⟩ := fetch_cases t
  · exact absurd ht hn
  all_goals simp only [step, hfetch, hf]

/-! ### What STEP does, returns and emits when fetch has found an instruction (R72, R79) -/

section Found
variable {s u : State} {i : Instr}

theorem step_of_instruction (hf : fetch s = .instruction i s.skipEmpties) : step s = exec i s.skipEmpties := by
  simp only [step, hf]

theorem stepResult_of_completed (hf : fetch s = .instruction i s.skipEmpties)
    (he : exec i s.skipEmpties = .next u) (hu : u.run ≠ .faulted) :
    stepResult s = some (.executed (s.skipEmpties.pc + 1)) := by
  simp only [stepResult, hf, he, hu, if_false]

theorem stepResult_of_faulted (hf : fetch s = .instruction i s.skipEmpties)
    (he : exec i s.skipEmpties = .next u) (hu : u.run = .faulted) :
    stepResult s = some (.faulted u.fault.kind u.fault.line) := by
  simp only [stepResult, hf, he, hu, if_true]

theorem notification_of_completed (hf : fetch s = .instruction i s.skipEmpties)
    (he : exec i s.skipEmpties = .next u) (hu : u.run ≠ .faulted) :
    notification s = some (.event (s.skipEmpties.pc + 1) i s u) := by
  simp only [notification, hf, he, hu, if_false]

theorem notification_of_faulted (hf : fetch s = .instruction i s.skipEmpties)
    (he : exec i s.skipEmpties = .next u) (hu : u.run = .faulted) :
    notification s = some (.faultReport u.fault.kind u.fault.line) := by
  simp only [notification, hf, he, hu, if_true]

end Found

end Sys2Proof.Machine

namespace Sys2Proof
open Sys2Proof.Machine

/-- Settles O6: fetch stays at the slot and finds the instruction. -/
theorem stepRunsDecodedInstruction : Obligations.StepRunsDecodedInstruction := by
  intro s i hrun hpc hslot hi
  have hskip := State.skipEmpties_of_slot_ne_zero hpc hslot
  have hf : fetch s = .instruction i s := fetch_eq_instruction.mpr ⟨hrun, hskip.symm, hpc, hi⟩
  simp only [step, hf]

/-- Settles O7: fetch finds from the EMPTY slot what it finds from the next one. -/
theorem emptySlotIsPassedOver : Obligations.EmptySlotIsPassedOver := by
  intro s
  exact ⟨rfl, fun hrun hpc hlen hslot => step_congr hrun hrun (State.skipEmpties_advance hpc hlen hslot).symm⟩

/-- Settles O8: the skipping stops at `PROG_LEN`. -/
theorem stepCompletesAtEnd : Obligations.StepCompletesAtEnd := by
  intro s hrun hpc hlen hzero
  have hend := State.skipEmpties_pc_of_all_zero hpc hzero
  obtain ⟨hn, -⟩ | ⟨-, -, hf⟩ | ⟨-, hin, -⟩ := fetch_cases s
  · exact absurd hrun hn
  · constructor
    · rw [← hend]
      simp only [step, hf]
      rfl
    · simp only [stepResult, hf]
  · rw [hend, BitVec.toNat_ofNat, Nat.mod_eq_of_lt hlen] at hin
    exact absurd hin (Nat.lt_irrefl _)

/-- Settles O9, by the host operation. -/
theorem stepOutsideRunning : Obligations.StepOutsideRunning := by
  refine fun s => ⟨fun h => ⟨step_of_not_running h, stepResult_of_not_running h⟩,
    fun p v => (hostInject_keeps_run_fault p v s).1, s.hostReset_run, fun image hok => ?_⟩
  rw [hostStart_of_ok hok, State.install_run]

/-- Settles O10: by what STEP can do, and for an instruction by its effect, booked, or fault entry. The slot found
holds no EMPTY record, because the program is shorter than 2^32 slots. -/
theorem stepResultIsTruthful : Obligations.StepResultIsTruthful := by
  intro s t hlen h
  obtain ⟨hrun, hf⟩ | ⟨hrun, -, hf⟩ | ⟨hrun, hin, ⟨e, -, hf⟩ | ⟨i, hi, hf⟩⟩ := fetch_cases s
  · obtain rfl : s = t := by simpa only [step, hf, Host.Outcome.next.injEq] using h
    exact ⟨_, stepResult_of_not_running hrun, hrun, rfl⟩
  · obtain rfl : s.skipEmpties.markCompleted = t := by simpa only [step, hf, Host.Outcome.next.injEq] using h
    exact ⟨.completed, by simp only [stepResult, hf], hrun, rfl, rfl⟩
  · simp [step, hf] at h
  · rw [step_of_instruction hf] at h
    have hne : i ≠ .empty := by
      rintro rfl
      exact decode_ne_empty (State.slot_skipEmpties_ne_zero hlen hin) hi
    obtain ⟨he, -⟩ | ⟨-, u, hu, rfl⟩ | ⟨-, k, -, rfl⟩ := exec_next h
    · exact absurd he hne
    · have hurun : u.run = .running := hu.run_eq.trans hrun
      exact ⟨_, stepResult_of_completed hf h (by simp [hurun]), hrun, hurun, rfl, congrArg (· + 1) hu.cycles_eq⟩
    · exact ⟨_, stepResult_of_faulted hf h rfl, hrun, rfl, rfl, rfl, rfl⟩

/-- Settles O13, by what fetch finds and, for an instruction, by whether it has faulted. -/
theorem notificationOfTick : Obligations.NotificationOfTick := by
  intro s
  obtain ⟨-, hf⟩ | ⟨-, -, hf⟩ | ⟨-, -, ⟨e, -, hf⟩ | ⟨i, hi, hf⟩⟩ := fetch_cases s
  · simp only [stepResult, notification, hf]
  · simp only [stepResult, notification, hf]
  · simp only [stepResult, notification, hf]
  · cases he : exec i s.skipEmpties with
    | next u =>
      by_cases hu : u.run = .faulted
      · rw [stepResult_of_faulted hf he hu]
        exact notification_of_faulted hf he hu
      · rw [stepResult_of_completed hf he hu]
        exact ⟨i, u, (step_of_instruction hf).trans he, notification_of_completed hf he hu, hi, rfl⟩
    | fault f => simp only [stepResult, notification, hf, he]
    | refused r => simp only [stepResult, notification, hf, he]

end Sys2Proof
end

