-- ==== Sys2Proof/Proofs/Checks.lean ====
section
/-! The checks that come before an instruction's effect (30_encoding.md R55, R56; 60_exceptions.md R146), once for each
kind of operand list: what follows them when they pass, and the fault when one of them fails. -/

namespace Sys2Proof.Machine

/-! ### Fault entry (R147) -/

theorem faults_iff {i : Instr} {s : State} {k : FaultKind} : Faults i s k ↔ exec i s = .next (s.takeFault k) :=
  Iff.rfl

/-- Fault entry is the only next state of an instruction that faults. -/
theorem Faults.exec_next_iff {i : Instr} {s t : State} {k : FaultKind} (h : Faults i s k) :
    exec i s = .next t ↔ t = s.takeFault k := by
  rw [faults_iff.mp h, Host.Outcome.next.injEq, eq_comm]

/-- An instruction that ends with the engine `Running` has raised nothing (R147). -/
theorem Faults.not_completed {i : Instr} {s t : State} {k : FaultKind} (hf : Faults i s k) (h : exec i s = .next t) :
    t.run ≠ .running := by
  obtain rfl := Host.Outcome.next.inj (hf.symm.trans h)
  simp

/-! ### Operand lists whose checks pass (R55, R56) -/

section Passed
variable {s : State} {a : Word}

theorem checks_of_reg_lit {n : BitVec 32} (hn : s.HasReg n) (rest : Nat → Word → Check State) :
    (do
      checkArgc ⟨.reg n, .imm a, .absent, false⟩ [2]
      let d ← regDest s (.reg n)
      let b ← litOf (.imm a)
      rest d b) = rest n.toNat a := by
  rw [checkArgc_two (by simp) (by simp), regDest_of_hasReg hn]
  rfl

theorem checks_of_value_lit {a0 : Operand} {v : Word} (hv : s.Denotes a0 v) (rest : Word → Word → Check State) :
    (do
      checkArgc ⟨a0, .imm a, .absent, false⟩ [2]
      let w ← valueOf s a0
      let b ← litOf (.imm a)
      rest w b) = rest v a := by
  rw [checkArgc_two hv.ne_absent (by simp), valueOf_eq_ok.mpr hv]
  rfl

theorem checks_of_lit (rest : Word → Check State) :
    (do
      checkArgc ⟨.imm a, .absent, .absent, false⟩ [1]
      let b ← litOf (.imm a)
      rest b) = rest a := rfl

end Passed

/-! ### Operand lists that an instruction does not accept raise `InvalidOperand` (R55, R56) -/

section Checks
variable {i : Instr} {s : State} {r : Args} {l : List Nat} {α β : Type} {x : Check α} {y : Check β}

/-- The argument count or the first operand is wrong. -/
theorem conclude_invalid_first {rest : α → Check State} (hx : ∀ e, x = .error e → e = .raise .invalidOperand)
    (hno : argc r ∈ l → ∀ a, x ≠ .ok a) :
    conclude i s (do checkArgc r l; let a ← x; rest a) = .next (s.takeFault .invalidOperand) := by
  by_cases hc : argc r ∈ l
  · rw [checkArgc_eq_ok (u := ()) |>.mpr hc, Check.ok_bind]
    cases h : x with
    | ok a => exact absurd h (hno hc a)
    | error e => rw [hx e h, Check.error_bind, conclude_raise]
  · rw [checkArgc_of_not_mem hc, Check.error_bind, conclude_raise]

/-- The argument count or one of two operands is wrong. -/
theorem conclude_invalid_second {rest : α → β → Check State}
    (hx : ∀ e, x = .error e → e = .raise .invalidOperand) (hy : ∀ e, y = .error e → e = .raise .invalidOperand)
    (hno : argc r ∈ l → ∀ a b, x = .ok a → y ≠ .ok b) :
    conclude i s (do checkArgc r l; let a ← x; let b ← y; rest a b) = .next (s.takeFault .invalidOperand) := by
  by_cases hc : argc r ∈ l
  · rw [checkArgc_eq_ok (u := ()) |>.mpr hc, Check.ok_bind]
    cases h : x with
    | ok a =>
      rw [Check.ok_bind]
      cases h' : y with
      | ok b => exact absurd h' (hno hc a b h)
      | error e => rw [hy e h', Check.error_bind, conclude_raise]
    | error e => rw [hx e h, Check.error_bind, conclude_raise]
  · rw [checkArgc_of_not_mem hc, Check.error_bind, conclude_raise]

/-- No register that exists and then a literal: LOAD, CACHE, DISK_READ. -/
theorem conclude_invalid_reg_lit {rest : Nat → Word → Check State}
    (h : ∀ n a, s.HasReg n → r ≠ ⟨.reg n, .imm a, .absent, false⟩) :
    conclude i s (do checkArgc r [2]; let d ← regDest s r.a0; let a ← litOf r.a1; rest d a)
      = .next (s.takeFault .invalidOperand) :=
  conclude_invalid_second (fun _ => regDest_error) (fun _ => litOf_error) fun hc d a hd ha =>
    have ⟨n, hn, hr⟩ := resolves_reg_lit_iff.mp ⟨List.mem_singleton.mp hc, ⟨d, hd⟩, litOf_eq_ok.mp ha⟩
    h n a hn hr

/-- No operand that denotes a value and then a literal: STORE, DISK_WRITE. -/
theorem conclude_invalid_value_lit {rest : Word → Word → Check State}
    (h : ∀ a0 v a, s.Denotes a0 v → r ≠ ⟨a0, .imm a, .absent, false⟩) :
    conclude i s (do checkArgc r [2]; let v ← valueOf s r.a0; let a ← litOf r.a1; rest v a)
      = .next (s.takeFault .invalidOperand) :=
  conclude_invalid_second (fun _ => valueOf_error) (fun _ => litOf_error) fun hc v a hv ha =>
    have ⟨a0, v, hden, hr⟩ := resolves_value_lit_iff.mp ⟨List.mem_singleton.mp hc, ⟨v, hv⟩, litOf_eq_ok.mp ha⟩
    h a0 v a hden hr

/-- No literal: CACHE_INVALIDATE, DISK_SEEK. -/
theorem conclude_invalid_lit {rest : Word → Check State} (h : ∀ a, r ≠ ⟨.imm a, .absent, .absent, false⟩) :
    conclude i s (do checkArgc r [1]; let a ← litOf r.a0; rest a) = .next (s.takeFault .invalidOperand) :=
  conclude_invalid_first (fun _ => litOf_error) fun hc a ha =>
    h a (resolves_lit_iff.mp ⟨List.mem_singleton.mp hc, litOf_eq_ok.mp ha⟩)

end Checks

end Sys2Proof.Machine
end

