-- ==== Sys2Proof/Proofs/Arith.lean ====
section
/-! The arithmetic instructions (41_move_arith.md R91 to R97): the quotient and the remainder as integers, what the
shared rule `arith` does by the outcome of its operation, and the statements O18 to O21 and O48 assembled from
these. -/

namespace Sys2Proof.Machine

/-! ### Words as integers (R6, R97) -/

theorem toInt_eq_zero_iff {b : Word} : b.toInt = 0 ↔ b = 0 :=
  ⟨fun h => BitVec.eq_of_toInt_eq h, fun h => h ▸ rfl⟩

theorem toInt_range (a : Word) : -2147483648 ≤ a.toInt ∧ a.toInt ≤ 2147483647 := by
  have hlo := a.le_toInt
  have hhi := a.toInt_lt
  norm_num at hlo hhi
  omega

theorem fitsWord_iff {x : Int} : fitsWord x = true ↔ -2147483648 ≤ x ∧ x ≤ 2147483647 := by
  simp [fitsWord]

theorem toInt_wrap_of_fitsWord {x : Int} (h : fitsWord x = true) : (wrap x).toInt = x := by
  have := fitsWord_iff.mp h
  exact BitVec.toInt_ofInt_eq_self (by decide) (by norm_num; omega) (by norm_num; omega)

/-! ### The quotient and the remainder (R95, R96; 93_implementation_defined.md U3) -/

theorem quotient_neg_neg (m : DivMod) (a b : Int) : quotient m (-a) (-b) = quotient m a b := by
  cases m
  · exact Int.neg_fdiv_neg a b
  · exact Int.neg_tdiv_neg a b

theorem roundedQuotient_neg_neg (m : DivMod) (a b : Int) :
    roundedQuotient m (-a) (-b) = roundedQuotient m a b := by
  cases m <;> simp only [roundedQuotient, Int.cast_neg, neg_div_neg_eq]

/-- For a positive divisor the rounded quotient is that of the integer division: by its floor, or, when the dividend
is negative and the quotient truncated, by its ceiling. -/
theorem quotient_eq_rounded_of_pos (m : DivMod) (a : Int) {n : Nat} (hn : 0 < n) :
    quotient m a n = roundedQuotient m a n := by
  cases m with
  | floor =>
    rw [quotient, roundedQuotient, Int.cast_natCast, Rat.floor_intCast_div_natCast,
      Int.fdiv_eq_ediv_of_nonneg _ (Int.natCast_nonneg n)]
  | trunc =>
    have hnq : (0 : ℚ) < n := Nat.cast_pos.mpr hn
    simp only [quotient, roundedQuotient, Int.cast_natCast]
    by_cases ha : 0 ≤ a
    · rw [if_pos (div_nonneg (Int.cast_nonneg ha) hnq.le), Rat.floor_intCast_div_natCast,
        Int.tdiv_eq_ediv_of_nonneg ha]
    · have hneg : (a : ℚ) / n < 0 := div_neg_of_neg_of_pos (Int.cast_lt_zero.mpr (by omega)) hnq
      rw [if_neg (not_le.mpr hneg), Rat.ceil_intCast_div_natCast, ← Int.tdiv_eq_ediv_of_nonneg (by omega),
        Int.neg_tdiv, neg_neg]

/-- The quotient the model computes is the rational quotient, rounded by the parameter `DivMod` (R95). -/
theorem quotient_eq_rounded (m : DivMod) (a : Int) {b : Int} (hb : b ≠ 0) :
    quotient m a b = roundedQuotient m a b := by
  obtain ⟨n, rfl | rfl⟩ := b.eq_nat_or_neg
  · exact quotient_eq_rounded_of_pos m a (by omega)
  · rw [← neg_neg a, quotient_neg_neg, roundedQuotient_neg_neg]
    exact quotient_eq_rounded_of_pos m (-a) (by omega)

theorem remainder_neg_neg (m : DivMod) (a b : Int) : remainder m (-a) (-b) = -remainder m a b := by
  rw [remainder, remainder, quotient_neg_neg]
  ring

theorem remainder_floor (a b : Int) : remainder .floor a b = a.fmod b := (Int.fmod_def a b).symm

theorem remainder_trunc (a b : Int) : remainder .trunc a b = a.tmod b := (Int.tmod_def a b).symm

/-- The remainder is smaller in size than the divisor (R96). -/
theorem abs_remainder_lt (m : DivMod) (a : Int) {b : Int} (hb : b ≠ 0) : |remainder m a b| < |b| := by
  have hpos (a : Int) (n : Nat) (hn : 0 < n) : |remainder m a n| < n := by
    cases m with
    | floor =>
      rw [remainder_floor, abs_of_nonneg (Int.fmod_nonneg_of_pos a (by omega))]
      exact Int.fmod_lt_of_pos a (by omega)
    | trunc =>
      rw [remainder_trunc, Int.abs_eq_natAbs, Int.natAbs_tmod]
      exact Int.ofNat_lt.mpr (Nat.mod_lt _ (by simpa using hn))
  obtain ⟨n, rfl | rfl⟩ := b.eq_nat_or_neg
  · simpa using hpos a n (by omega)
  · rw [← neg_neg a, remainder_neg_neg, abs_neg, abs_neg, Nat.abs_cast]
    exact hpos (-a) n (by omega)

/-- With the floor rule the remainder has the sign of the divisor (R96). -/
theorem remainder_floor_sign (a : Int) {b : Int} (hb : b ≠ 0) :
    remainder .floor a b = 0 ∨ (remainder .floor a b).sign = b.sign := by
  have hpos (a b : Int) (hb : 0 < b) : 0 ≤ remainder .floor a b :=
    remainder_floor a b ▸ Int.fmod_nonneg_of_pos a hb
  obtain hlt | hgt := lt_or_gt_of_ne hb
  · have := hpos (-a) (-b) (by omega)
    rw [remainder_neg_neg] at this
    obtain h | h := (show remainder .floor a b ≤ 0 by omega).eq_or_lt
    · exact .inl h
    · exact .inr (by rw [Int.sign_eq_neg_one_of_neg h, Int.sign_eq_neg_one_of_neg hlt])
  · obtain h | h := (hpos a b hgt).eq_or_lt
    · exact .inl h.symm
    · exact .inr (by rw [Int.sign_eq_one_of_pos h, Int.sign_eq_one_of_pos hgt])

/-- A quotient is at most as large as its dividend. -/
theorem abs_quotient_le (m : DivMod) (a : Int) {b : Int} (hb : b ≠ 0) : |quotient m a b| ≤ |a| := by
  have hr := abs_remainder_lt m a hb
  have hb1 : 1 ≤ |b| := Int.one_le_abs hb
  have hmul : |b| * |quotient m a b| ≤ |a| + |remainder m a b| := by
    rw [← abs_mul, show b * quotient m a b = a - remainder m a b by rw [remainder]; ring]
    exact abs_sub _ _
  by_contra hlt
  nlinarith [abs_nonneg a]

/-- Of all quotients of two words only one fits no word, under both rounding rules (R97 (c)). -/
theorem quotient_fits_iff (m : DivMod) {a b : Word} (hb : b.toInt ≠ 0) :
    fitsWord (quotient m a.toInt b.toInt) = false ↔ a.toInt = -2147483648 ∧ b.toInt = -1 := by
  rw [← Bool.not_eq_true, fitsWord_iff]
  constructor
  · intro hout
    have hr := abs_remainder_lt m a.toInt hb
    have hq := abs_quotient_le m a.toInt hb
    have ha := toInt_range a
    have hrem : remainder m a.toInt b.toInt = a.toInt - b.toInt * quotient m a.toInt b.toInt := rfl
    simp only [Int.abs_eq_natAbs] at hr hq
    have hq31 : quotient m a.toInt b.toInt = 2147483648 := by omega
    rw [hrem, hq31] at hr
    omega
  · rintro ⟨ha, hb⟩
    rw [ha, hb]
    cases m <;> decide

/-- The remainder of two words fits a word (R96). -/
theorem fitsWord_remainder (m : DivMod) (a : Int) {b : Word} (hb : b.toInt ≠ 0) :
    fitsWord (remainder m a b.toInt) = true := by
  have hlt := abs_remainder_lt m a hb
  have := toInt_range b
  simp only [Int.abs_eq_natAbs] at hlt
  rw [fitsWord_iff]
  omega

/-! ### The shared rule of ADD, SUB, MUL, DIV and MOD (R91) -/

section Form
variable {s : State} {i : Instr} {r : Args} {n : BitVec 32} {a b : Word} {op : Word → Word → Check Word}

/-- With operands that resolve and a result, the destination is written and the instruction booked. -/
theorem arith_of_ok (h : s.ArithForm n r a b) {v : Word} (hop : op a b = .ok v) :
    ∃ t, arith i r s op = .next t ∧ s.SetsReg t n v
      ∧ t = { s.booked (opcodeOf i).toNat with regs := t.regs } := by
  refine ⟨_, ?_, s.setsReg_writeReg_booked n v (opcodeOf i), s.writeReg_booked_eq n.toNat v (opcodeOf i)⟩
  simp only [arith, arithOperands_of_form h, hop, Check.ok_bind]
  rfl

/-- With operands that resolve, the instruction raises what its operation raises. -/
theorem arith_of_raise (h : s.ArithForm n r a b) {k : FaultKind} (hop : op a b = .error (.raise k)) :
    arith i r s op = .next (s.takeFault k) := by
  simp only [arith, arithOperands_of_form h, hop, Check.ok_bind, Check.error_bind, conclude_raise]

/-- With operands that resolve, the instruction is refused when its operation is. -/
theorem arith_of_refuse (h : s.ArithForm n r a b) {why : Refusal} (hop : op a b = .error (.refuse why)) :
    arith i r s op = .refused why := by
  simp only [arith, arithOperands_of_form h, hop, Check.ok_bind, Check.error_bind]
  rfl

/-- Every other operand list raises `InvalidOperand`. -/
theorem arith_of_no_form (hw : r.wellFormed = true) (h : ∀ n a b, ¬ s.ArithForm n r a b) :
    arith i r s op = .next (s.takeFault .invalidOperand) := by
  simp only [arith, arithOperands_of_no_form hw h, Check.error_bind, conclude_raise]

end Form

/-! ### ADD, SUB and MUL (R92 to R94, R97) -/

theorem narrow_eq_ok {s : State} {x : Int} (h : s.cfg.overflow = .wrap ∨ fitsWord x = true) :
    narrow s x = .ok (wrap x) := by
  obtain hok | ⟨ho, hf, -⟩ := narrow_cases s x
  · exact hok
  · simp [ho, hf] at h

theorem narrow_eq_refuse {s : State} {x : Int} (h : ¬ (s.cfg.overflow = .wrap ∨ fitsWord x = true)) :
    narrow s x = .error (.refuse (.overflowNotAdmitted x)) := by
  obtain ⟨hw, hf⟩ := not_or.mp h
  cases ho : s.cfg.overflow with
  | wrap => exact absurd ho hw
  | refuse => simp [narrow, ho, hf]

/-- An instruction that narrows the exact result `f a b` follows the rule of the wrapped result. -/
theorem wrappingRule_of_narrow {mk : Args → Instr} {opc : Nat} {f : Int → Int → Int}
    (hexec : ∀ r s, exec (mk r) s = arith (mk r) r s fun a b => narrow s (f a.toInt b.toInt))
    (hopc : ∀ r, (opcodeOf (mk r)).toNat = opc) : WrappingRule mk opc f := by
  refine fun s r => ⟨fun n a b h => ?_, fun hw hno => (hexec r s).trans (arith_of_no_form hw hno)⟩
  rw [hexec]
  split
  next hfit => exact hopc r ▸ arith_of_ok h (narrow_eq_ok hfit)
  next hfit => exact arith_of_refuse h (narrow_eq_refuse hfit)

/-! ### DIV and MOD (R95, R96, R144) -/

theorem exec_div_eq_arith (r : Args) (s : State) :
    exec (.div r) s = arith (.div r) r s fun a b =>
      if b.toInt = 0 then raise .arithmeticError else narrow s (quotient s.cfg.divMod a.toInt b.toInt) := rfl

theorem exec_mod_eq_arith (r : Args) (s : State) :
    exec (.mod r) s = arith (.mod r) r s fun a b =>
      if b.toInt = 0 then raise .arithmeticError else .ok (wrap (remainder s.cfg.divMod a.toInt b.toInt)) := rfl

theorem eq_of_argc_three {r : Args} (hc : argc r = 3) (h0 : r.a0 ≠ .absent) (h1 : r.a1 ≠ .absent)
    (h2 : r.a2 ≠ .absent) : r = ⟨r.a0, r.a1, r.a2, false⟩ := by
  obtain ⟨a0, a1, a2, xa⟩ := r
  simp only [argc, presence_of_ne_absent h0, presence_of_ne_absent h1, presence_of_ne_absent h2] at hc
  simpa using hc

theorem exec_mod_of_form {s : State} {r : Args} {n : BitVec 32} {a b : Word} (h : s.ArithForm n r a b)
    (hb : b.toInt ≠ 0) :
    ∃ t, exec (.mod r) s = .next t ∧ s.SetsReg t n (wrap (remainder s.cfg.divMod a.toInt b.toInt))
      ∧ t = { s.booked 6 with regs := t.regs } := by
  rw [exec_mod_eq_arith]
  exact arith_of_ok h (if_neg hb)

/-- Operands resolve only in one of the two forms, without any premise of well-formedness (R91). -/
theorem arithForm_of_arithOperands {s : State} {r : Args} {d : Nat} {a b : Word}
    (h : arithOperands s r = .ok (d, a, b)) : ∃ n, s.ArithForm n r a b := by
  obtain ⟨hd, ⟨hc, ha, hb⟩ | ⟨hc, rfl, hb⟩⟩ := arithOperands_eq_ok.mp h
  · obtain ⟨n, h0, hlo, hhi, rfl⟩ := regDest_eq_ok.mp hd
    have ha := valueOf_eq_ok.mp ha
    have hb := valueOf_eq_ok.mp hb
    rw [eq_of_argc_three hc (by simp [h0]) ha.ne_absent hb.ne_absent, h0]
    exact ⟨n, .three ⟨hlo, hhi⟩ _ _ _ _ ha hb⟩
  · obtain ⟨n, h0, hlo, hhi, rfl⟩ := regDest_eq_ok.mp hd
    have hb := valueOf_eq_ok.mp hb
    rw [eq_of_argc_two hc (by simp [h0]) hb.ne_absent, h0]
    exact ⟨n, .two ⟨hlo, hhi⟩ _ _ hb⟩

/-- The checked division that DIV and MOD share: it raises `ArithmeticError` exactly when the operands have resolved
and the right one is 0. -/
theorem arith_divide_arithmeticError {s : State} {i : Instr} {r : Args} {g : Word → Word → Check Word}
    (hrun : s.run = .running) (hg : ∀ a b, g a b ≠ .error (.raise .arithmeticError)) :
    arith i r s (fun a b => if b.toInt = 0 then raise .arithmeticError else g a b)
        = .next (s.takeFault .arithmeticError)
      ↔ ∃ n a, s.ArithForm n r a 0 := by
  constructor
  · intro h
    rw [arith, conclude_eq_takeFault hrun, Check.bind_eq_raise (by simp) (fun _ => arithOperands_error)] at h
    · obtain ⟨⟨d, a, b⟩, hops, h⟩ := h
      obtain ⟨n, hform⟩ := arithForm_of_arithOperands hops
      by_cases hb : b.toInt = 0
      · exact ⟨n, a, toInt_eq_zero_iff.mp hb ▸ hform⟩
      · have hop := Check.bind_pure_eq_error.mp h
        rw [if_neg hb] at hop
        exact absurd hop (hg a b)
    · intro u hu
      simp only [Check.bind_eq_ok] at hu
      obtain ⟨⟨d, a, b⟩, -, v, -, hu⟩ := hu
      rw [← Except.ok.inj hu]
      simp
  · rintro ⟨n, a, hform⟩
    exact arith_of_raise hform (if_pos rfl)

end Sys2Proof.Machine

namespace Sys2Proof
open Sys2Proof.Machine

/-- Settles O18: the three instructions narrow the exact sum, difference and product. -/
theorem addSubMulRule : Obligations.AddSubMulRule :=
  ⟨wrappingRule_of_narrow (fun _ _ => rfl) fun _ => rfl, wrappingRule_of_narrow (fun _ _ => rfl) fun _ => rfl,
    wrappingRule_of_narrow (fun _ _ => rfl) fun _ => rfl⟩

/-- Settles O19: the divisor is checked after the operands, and the quotient of the model is the rounded one. -/
theorem divRule : Obligations.DivRule := by
  refine fun s r => ⟨fun n a b h => ?_, fun hw hno =>
    faults_iff.mpr ((exec_div_eq_arith r s).trans (arith_of_no_form hw hno))⟩
  by_cases hb : b = 0
  · rw [if_pos hb, faults_iff, exec_div_eq_arith]
    exact arith_of_raise h (if_pos (toInt_eq_zero_iff.mpr hb))
  · have hb0 : b.toInt ≠ 0 := fun h0 => hb (toInt_eq_zero_iff.mp h0)
    rw [if_neg hb, ← quotient_eq_rounded _ _ hb0, exec_div_eq_arith]
    split
    next hfit => exact arith_of_ok h ((if_neg hb0).trans (narrow_eq_ok hfit))
    next hfit => exact arith_of_refuse h ((if_neg hb0).trans (narrow_eq_refuse hfit))

/-- Settles O20: the remainder fits a word, so the destination holds it exactly. -/
theorem modRule : Obligations.ModRule := by
  refine fun s r => ⟨fun n a b h => ?_, fun hw hno =>
    faults_iff.mpr ((exec_mod_eq_arith r s).trans (arith_of_no_form hw hno))⟩
  by_cases hb : b = 0
  · rw [if_pos hb, faults_iff, exec_mod_eq_arith]
    exact arith_of_raise h (if_pos (toInt_eq_zero_iff.mpr hb))
  · have hb0 : b.toInt ≠ 0 := fun h0 => hb (toInt_eq_zero_iff.mp h0)
    rw [if_neg hb]
    have hv := toInt_wrap_of_fitsWord (fitsWord_remainder s.cfg.divMod a.toInt hb0)
    obtain ⟨t, ht, hset, hframe⟩ := exec_mod_of_form h hb0
    refine ⟨t, _, ht, hset, hframe, ?_, ?_, fun hfloor => ?_⟩
    · rw [hv, remainder, quotient_eq_rounded _ _ hb0]
    · rw [hv]
      exact abs_remainder_lt _ _ hb0
    · rw [hv, hfloor]
      exact remainder_floor_sign _ hb0

/-- Settles O21: by the size of the quotient, and for the two clauses about `exec` by the rule of DIV. -/
theorem onlyOneQuotientOverflows : Obligations.OnlyOneQuotientOverflows := by
  refine ⟨fun m a b hb => quotient_fits_iff m fun h0 => hb (toInt_eq_zero_iff.mp h0), fun s r n a b hform hb => ?_⟩
  have hb0 : b.toInt ≠ 0 := fun h0 => hb (toInt_eq_zero_iff.mp h0)
  have hdiv := (divRule s r).1 n a b hform
  rw [if_neg hb, ← quotient_eq_rounded _ _ hb0] at hdiv
  refine ⟨fun hrefuse => ?_, fun hwrap ha hb1 => ?_⟩
  · rw [← quotient_fits_iff s.cfg.divMod hb0]
    split at hdiv
    next hfit =>
      obtain ⟨t, ht, -⟩ := hdiv
      simp_all
    next hfit => simpa [hdiv] using (not_or.mp hfit).2
  · rw [if_pos (.inl hwrap)] at hdiv
    obtain ⟨t, ht, ⟨hreg, -⟩, -⟩ := hdiv
    refine ⟨t, ht, ?_⟩
    rw [hreg, ha, hb1]
    cases s.cfg.divMod <;> decide

/-- Settles O48: only DIV and MOD can raise the kind (R140), and both by the same check of the divisor. -/
theorem whenArithmeticErrorIsRaised : Obligations.WhenArithmeticErrorIsRaised := by
  intro i s hrun
  have hdiv (r : Args) : Faults (.div r) s .arithmeticError ↔ ∃ n a, s.ArithForm n r a 0 := by
    rw [faults_iff, exec_div_eq_arith]
    refine arith_divide_arithmeticError hrun fun a b => ?_
    obtain h | ⟨-, -, h⟩ := narrow_cases s (quotient s.cfg.divMod a.toInt b.toInt) <;> simp [h]
  have hmod (r : Args) : Faults (.mod r) s .arithmeticError ↔ ∃ n a, s.ArithForm n r a 0 := by
    rw [faults_iff, exec_mod_eq_arith]
    exact arith_divide_arithmeticError hrun fun a b => by simp
  cases i with
  | div r => simp [hdiv]
  | mod r => simp [hmod]
  | _ =>
    refine iff_of_false (fun h => ?_) (by simp)
    simpa [MayRaise, opcodeOf] using h.mayRaise hrun

end Sys2Proof
end

