-- ==== Sys2Proof/Proofs/CompareJump.lean ====
section
/-! CMP and the three jumps (42_compare_jump.md R100 to R104): the flags of a comparison, the rule that the jumps share,
and the statements O22 to O24 assembled from these. -/

namespace Sys2Proof.Machine

/-! ### CMP (R100) -/

theorem exec_cmp_of_denotes {s : State} {a0 a1 : Operand} {a b : Word} (ha : s.Denotes a0 a) (hb : s.Denotes a1 b) :
    exec (.cmp ⟨a0, a1, .absent, false⟩) s
      = .next (((s.setFlags (compareFlags a b)).advance).retire 0x07#8) := by
  have hargc : checkArgc ⟨a0, a1, .absent, false⟩ [2] = .ok () := checkArgc_two ha.ne_absent hb.ne_absent
  simp only [exec, execCmp, hargc, valueOf_eq_ok.mpr ha, valueOf_eq_ok.mpr hb, Check.ok_bind]
  rfl

theorem faults_cmp_of_no_form {s : State} {r : Args}
    (h : ∀ a0 a1 a b, s.Denotes a0 a → s.Denotes a1 b → r ≠ ⟨a0, a1, .absent, false⟩) :
    Faults (.cmp r) s .invalidOperand :=
  conclude_invalid_second (fun _ => valueOf_error) (fun _ => valueOf_error) fun hc a b hva hvb =>
    have ha := valueOf_eq_ok.mp hva
    have hb := valueOf_eq_ok.mp hvb
    h _ _ a b ha hb (eq_of_argc_two (List.mem_singleton.mp hc) ha.ne_absent hb.ne_absent)

/-- Two words are equal exactly when the signed values are, and so when their difference is 0 (R100). -/
theorem compareFlags_eq (a b : Word) :
    compareFlags a b
      = ⟨true, decide (a = b), decide (b.toInt < a.toInt), decide (a.toInt < b.toInt), decide (a = b)⟩ := by
  simp [compareFlags, Int.sub_eq_zero, BitVec.toInt_inj]

/-! ### The jumps (R101 to R104) -/

theorem jumpTarget_of_no_form {s : State} {r : Args} (h : ∀ line, r ≠ ⟨.imm line, .absent, .absent, false⟩) :
    jumpTarget s r = .error (.raise .invalidOperand) := by
  cases ht : jumpTarget s r with
  | ok slot =>
    obtain ⟨hc, line, hline, -⟩ := jumpTarget_eq_ok.mp ht
    exact absurd (resolves_lit_iff.mp ⟨hc, hline⟩) (h line)
  | error e =>
    obtain rfl | rfl := jumpTarget_error ht
    · rfl
    · obtain ⟨line, hr, -⟩ := jumpTarget_eq_outOfRange.mp ht
      exact absurd hr (h line)

/-- An instruction that jumps when `taken` holds of the flags, and always checks its line, follows the rule of the
jumps. -/
theorem jumpRule_of_jumpTarget {mk : Args → Instr} {opc : Nat} {taken : Flags → Bool}
    (hexec : ∀ r s, exec (mk r) s
      = conclude (mk r) s (do let slot ← jumpTarget s r; return if taken s.flags then s.jumpTo slot else s.advance))
    (hopc : ∀ r, (opcodeOf (mk r)).toNat = opc) : JumpRule mk opc taken := by
  refine fun s => ⟨fun line => ?_, fun r _ hno => ?_⟩
  · split
    next hin =>
      rw [hexec, jumpTarget_eq_ok.mpr ⟨rfl, line, rfl, hin.1, hin.2, rfl⟩, Check.ok_bind, ofInt_line_sub_one, ← hopc]
      cases taken s.flags <;> rfl
    next hout =>
      rw [faults_iff, hexec, jumpTarget_eq_outOfRange.mpr ⟨line, rfl, hout⟩, Check.error_bind, conclude_raise]
  · rw [faults_iff, hexec, jumpTarget_of_no_form hno, Check.error_bind, conclude_raise]

/-- With undefined flags no result is set (R12). -/
theorem Flags.legal_undefined {f : Flags} (h : f.legal = true) (hfv : f.fv = false) : f.fe = false := by
  simp only [Flags.legal, Bool.or_eq_true, beq_iff_eq] at h
  obtain ((rfl | rfl) | rfl) | rfl := h <;> simp_all

end Sys2Proof.Machine

namespace Sys2Proof
open Sys2Proof.Machine

/-- Settles O22. -/
theorem cmpRule : Obligations.CmpRule := by
  refine fun s => ⟨fun a0 a1 a b ha hb => ?_, fun r _ hno => faults_cmp_of_no_form hno⟩
  rw [exec_cmp_of_denotes ha hb, compareFlags_eq]
  rfl

/-- Settles O23: the three jumps differ in the condition only. -/
theorem jumpsRule : Obligations.JumpsRule :=
  ⟨jumpRule_of_jumpTarget (fun _ _ => rfl) fun _ => rfl, jumpRule_of_jumpTarget (fun _ _ => rfl) fun _ => rfl,
    jumpRule_of_jumpTarget (fun _ _ => rfl) fun _ => rfl⟩

/-- Settles O24: by the legal combinations of the flags, and by the flags that CMP computes. -/
theorem conditionalJumpsAfterCmp : Obligations.ConditionalJumpsAfterCmp := by
  refine fun s t r hs => ⟨fun hfv => ?_, fun _ h ht => ?_⟩
  · simp [Flags.jeTaken, Flags.jneTaken, hfv, Flags.legal_undefined hs.flagsLegal hfv]
  · obtain ⟨u, hu, rfl⟩ := exec_completed (by simp) h ht
    cases hu
    simp [Flags.jeTaken, Flags.jneTaken, compareFlags]

end Sys2Proof
end

