-- ==== Sys2Proof/Proofs/RamInstr.lean ====
section
/-! LOAD and STORE (43_memory_cache.md R110, R111): the next state of each by the range of its address, the fault for
every other operand list, and the statements O26 to O28 assembled from these. -/

namespace Sys2Proof.Machine

section Resolved
variable {s : State} {a : Word}

/-! ### Operands that resolve, and an address in `[0, MEM_SIZE)` or not -/

theorem exec_load_of_inRange {n : BitVec 32} (hn : s.HasReg n) (h : 0 ≤ a.toInt ∧ a.toInt < s.cfg.memSize) :
    exec (.load ⟨.reg n, .imm a, .absent, false⟩) s
      = .next ((((s.chargeRead Config.tRam2).writeReg n.toNat (s.readMem a.toInt.toNat)).advance).retire 0x0B#8) := by
  simp only [exec, execLoad, checks_of_reg_lit hn, memRead_of_inRange h, Check.ok_bind]
  rfl

theorem faults_load_of_outOfRange {n : BitVec 32} (hn : s.HasReg n)
    (h : ¬ (0 ≤ a.toInt ∧ a.toInt < s.cfg.memSize)) :
    Faults (.load ⟨.reg n, .imm a, .absent, false⟩) s .outOfRange := by
  rw [faults_iff]
  simp only [exec, execLoad, checks_of_reg_lit hn, memRead_of_outOfRange h, Check.error_bind, conclude_raise]

theorem exec_store_of_inRange {a0 : Operand} {v : Word} (hv : s.Denotes a0 v)
    (h : 0 ≤ a.toInt ∧ a.toInt < s.cfg.memSize) :
    exec (.store ⟨a0, .imm a, .absent, false⟩) s
      = .next ((((s.writeMem a.toInt.toNat v).chargeWrite Config.tRam2).advance).retire 0x0C#8) := by
  simp only [exec, execStore, checks_of_value_lit hv, memWrite_of_inRange h, Check.ok_bind]
  rfl

theorem faults_store_of_outOfRange {a0 : Operand} {v : Word} (hv : s.Denotes a0 v)
    (h : ¬ (0 ≤ a.toInt ∧ a.toInt < s.cfg.memSize)) :
    Faults (.store ⟨a0, .imm a, .absent, false⟩) s .outOfRange := by
  rw [faults_iff]
  simp only [exec, execStore, checks_of_value_lit hv, memWrite_of_outOfRange h, Check.error_bind,
    conclude_raise]

end Resolved

/-! ### Every other operand list -/

theorem faults_load_of_no_form {s : State} {r : Args}
    (h : ∀ n a, s.HasReg n → r ≠ ⟨.reg n, .imm a, .absent, false⟩) : Faults (.load r) s .invalidOperand :=
  conclude_invalid_reg_lit h

theorem faults_store_of_no_form {s : State} {r : Args}
    (h : ∀ a0 v a, s.Denotes a0 v → r ≠ ⟨a0, .imm a, .absent, false⟩) : Faults (.store r) s .invalidOperand :=
  conclude_invalid_value_lit h

/-- An address that nothing lists reads as the reset value (R16, R24; log 8). -/
theorem State.readMem_of_unlisted {s : State} {a : Nat} (h : Cells.lookup s.mem a = none) : s.readMem a = 0 := by
  simp [State.readMem, Memory.read, Cells.read, h]

end Sys2Proof.Machine

namespace Sys2Proof
open Sys2Proof.Machine

/-- Settles O26. -/
theorem loadRule : Obligations.LoadRule := by
  refine fun s => ⟨fun r => (Laws.OpcodeField.load r).1, fun a => State.readMem_of_unlisted, fun n a hn => ?_,
    fun r _ => faults_load_of_no_form⟩
  split
  next h =>
    exact ⟨_, exec_load_of_inRange hn h, State.setsReg_writeReg_booked (s.chargeRead Config.tRam2) n _ 0x0B#8, rfl⟩
  next h => exact faults_load_of_outOfRange hn h

/-- Settles O27. -/
theorem storeRule : Obligations.StoreRule := by
  refine fun s => ⟨fun a0 v a hv => ?_, fun r _ => faults_store_of_no_form⟩
  split
  next h =>
    exact ⟨_, exec_store_of_inRange hv h, State.readMem_writeMem_same s _ v,
      fun b hb => State.readMem_writeMem_other s _ b v hb, rfl⟩
  next h => exact faults_store_of_outOfRange hv h

/-- Settles O28: the STORE has completed, so its address is in range, for the LOAD as well. -/
theorem storeThenLoad : Obligations.StoreThenLoad := by
  intro s t a0 v a n hrun hv hn hstore ht
  by_cases h : 0 ≤ a.toInt ∧ a.toInt < s.cfg.memSize
  · obtain rfl := Host.Outcome.next.inj ((exec_store_of_inRange hv h).symm.trans hstore)
    exact ⟨_, exec_load_of_inRange (hn.of_cfg_eq rfl) h, hrun,
      (State.readReg_writeReg_same _ _ _).trans (State.readMem_writeMem_same s _ v)⟩
  · exact absurd ht ((faults_store_of_outOfRange hv h).not_completed hstore)

end Sys2Proof
end

