-- ==== Sys2Proof/Proofs/CacheInstr.lean ====
section
/-! CACHE, CACHE_FLUSH and CACHE_INVALIDATE (20_memory.md R37, R38; 43_memory_cache.md R112 to R114): a hit and a miss
of CACHE, the faults, the independence of RAM and cache, and the statements O29 to O32 and O35 assembled from these. -/

namespace Sys2Proof.Machine

/-! ### Which keys are cached after a miss (R37) -/

@[simp] theorem State.cached_fillMiss_same (s : State) (k v : Word) : (s.fillMiss k v).cached k = some v :=
  Cells.lookup_insert_same s.cache k.toNat v

theorem State.cached_fillMiss_other (s : State) (k v j : Word) (h : j ≠ k) :
    (s.fillMiss k v).cached j = s.cached j :=
  Cells.lookup_insert_other s.cache k.toNat j.toNat v fun hn => h (BitVec.eq_of_toNat_eq hn)

/-! ### CACHE (R112) -/

section Resolved
variable {s : State} {n : BitVec 32} {k : Word}

theorem exec_cache_of_hit (hn : s.HasReg n) {v : Word} (hk : s.cached k = some v) :
    exec (.cache ⟨.reg n, .imm k, .absent, false⟩) s
      = .next (((s.countHit.writeReg n.toNat v).advance).retire 0x0D#8) := by
  have haccess : cacheAccess s k = (v, s.countHit) := by simp [cacheAccess, hk]
  rw [exec_cache_of_hasReg hn, haccess]

/-- On a miss some word is drawn, of which nothing is said (log 2). -/
theorem exec_cache_of_miss (hn : s.HasReg n) (hk : s.cached k = none) :
    ∃ v, exec (.cache ⟨.reg n, .imm k, .absent, false⟩) s
      = .next ((((s.fillMiss k v).writeReg n.toNat v).advance).retire 0x0D#8) := by
  refine ⟨Config.cacheFill s.cacheDraws k, ?_⟩
  have haccess : cacheAccess s k
      = (Config.cacheFill s.cacheDraws k, s.fillMiss k (Config.cacheFill s.cacheDraws k)) := by
    simp [cacheAccess, hk]
  rw [exec_cache_of_hasReg hn, haccess]

end Resolved

theorem faults_cache_of_no_form {s : State} {r : Args}
    (h : ∀ n k, s.HasReg n → r ≠ ⟨.reg n, .imm k, .absent, false⟩) : Faults (.cache r) s .invalidOperand :=
  conclude_invalid_reg_lit h

/-! ### CACHE_FLUSH and CACHE_INVALIDATE (R113, R114) -/

theorem faults_cacheFlush_of_operand {s : State} {r : Args} (h : r ≠ ⟨.absent, .absent, .absent, false⟩) :
    Faults (.cacheFlush r) s .invalidOperand := by
  have hc : argc r ∉ [0] := by simpa using mt argc_eq_zero.mp h
  rw [faults_iff]
  simp only [exec, execCacheFlush, checkArgc_of_not_mem hc, Check.error_bind, conclude_raise]

theorem faults_cacheInvalidate_of_no_form {s : State} {r : Args} (h : ∀ k, r ≠ ⟨.imm k, .absent, .absent, false⟩) :
    Faults (.cacheInvalidate r) s .invalidOperand :=
  conclude_invalid_lit h

/-! ### Independence of the two stores (R38) -/

section AnyRam
variable {r : Args} {s t : State} (m : Memory)

theorem exec_cache_any_mem (h : exec (.cache r) s = .next t) :
    exec (.cache r) { s with mem := m } = .next { t with mem := m } := by
  by_cases hform : ∃ n k, s.HasReg n ∧ r = ⟨.reg n, .imm k, .absent, false⟩
  · obtain ⟨n, k, hn, rfl⟩ := hform
    have hn' : State.HasReg { s with mem := m } n := hn
    rw [exec_cache_of_hasReg hn, Host.Outcome.next.injEq] at h
    rw [exec_cache_of_hasReg hn', ← h]
    obtain ⟨v, hk, haccess⟩ | ⟨hk, haccess⟩ := cacheAccess_cases s k
    · have haccess' : cacheAccess { s with mem := m } k = (v, State.countHit { s with mem := m }) := by
        rw [cacheAccess, show State.cached { s with mem := m } k = some v from hk]
      rw [haccess, haccess']
      rfl
    · have haccess' : cacheAccess { s with mem := m } k = (Config.cacheFill s.cacheDraws k,
          State.fillMiss { s with mem := m } k (Config.cacheFill s.cacheDraws k)) := by
        rw [cacheAccess, show State.cached { s with mem := m } k = none from hk]
      rw [haccess, haccess']
      rfl
  · have hno : ∀ n k, s.HasReg n → r ≠ ⟨.reg n, .imm k, .absent, false⟩ :=
      fun n k hn hr => hform ⟨n, k, hn, hr⟩
    obtain rfl := (faults_cache_of_no_form hno).exec_next_iff.mp h
    exact faults_cache_of_no_form (s := { s with mem := m }) hno

theorem exec_cacheFlush_any_mem (h : exec (.cacheFlush r) s = .next t) :
    exec (.cacheFlush r) { s with mem := m } = .next { t with mem := m } := by
  by_cases hform : r = ⟨.absent, .absent, .absent, false⟩
  · subst hform
    obtain rfl := Host.Outcome.next.inj h
    rfl
  · obtain rfl := (faults_cacheFlush_of_operand hform).exec_next_iff.mp h
    exact faults_cacheFlush_of_operand hform

theorem exec_cacheInvalidate_any_mem (h : exec (.cacheInvalidate r) s = .next t) :
    exec (.cacheInvalidate r) { s with mem := m } = .next { t with mem := m } := by
  by_cases hform : ∃ k, r = ⟨.imm k, .absent, .absent, false⟩
  · obtain ⟨k, rfl⟩ := hform
    obtain rfl := Host.Outcome.next.inj h
    rfl
  · have hno := not_exists.mp hform
    obtain rfl := (faults_cacheInvalidate_of_no_form hno).exec_next_iff.mp h
    exact faults_cacheInvalidate_of_no_form hno

end AnyRam

section AnyCache
variable {r : Args} {s t : State} (c : Cells Word)

theorem State.Denotes.any_cache {a : Operand} {v : Word} (h : s.Denotes a v) :
    State.Denotes { s with cache := c } a v := by
  cases h with
  | reg n hn => exact .reg (s := { s with cache := c }) n hn
  | imm v => exact .imm v

theorem exec_load_any_cache (h : exec (.load r) s = .next t) :
    exec (.load r) { s with cache := c } = .next { t with cache := c } := by
  by_cases hform : ∃ n a, s.HasReg n ∧ r = ⟨.reg n, .imm a, .absent, false⟩
  · obtain ⟨n, a, hn, rfl⟩ := hform
    have hn' : State.HasReg { s with cache := c } n := hn
    by_cases hin : 0 ≤ a.toInt ∧ a.toInt < s.cfg.memSize
    · rw [exec_load_of_inRange hn hin, Host.Outcome.next.injEq] at h
      rw [exec_load_of_inRange hn' hin, ← h]
      rfl
    · obtain rfl := (faults_load_of_outOfRange hn hin).exec_next_iff.mp h
      exact faults_load_of_outOfRange hn' hin
  · have hno : ∀ n a, s.HasReg n → r ≠ ⟨.reg n, .imm a, .absent, false⟩ :=
      fun n a hn hr => hform ⟨n, a, hn, hr⟩
    obtain rfl := (faults_load_of_no_form hno).exec_next_iff.mp h
    exact faults_load_of_no_form (s := { s with cache := c }) hno

theorem exec_store_any_cache (h : exec (.store r) s = .next t) :
    exec (.store r) { s with cache := c } = .next { t with cache := c } := by
  by_cases hform : ∃ a0 v a, s.Denotes a0 v ∧ r = ⟨a0, .imm a, .absent, false⟩
  · obtain ⟨a0, v, a, hv, rfl⟩ := hform
    have hv' := hv.any_cache c
    by_cases hin : 0 ≤ a.toInt ∧ a.toInt < s.cfg.memSize
    · rw [exec_store_of_inRange hv hin, Host.Outcome.next.injEq] at h
      rw [exec_store_of_inRange hv' hin, ← h]
      rfl
    · obtain rfl := (faults_store_of_outOfRange hv hin).exec_next_iff.mp h
      exact faults_store_of_outOfRange hv' hin
  · have hno : ∀ a0 v a, s.Denotes a0 v → r ≠ ⟨a0, .imm a, .absent, false⟩ :=
      fun a0 v a hv hr => hform ⟨a0, v, a, hv, hr⟩
    obtain rfl := (faults_store_of_no_form hno).exec_next_iff.mp h
    exact faults_store_of_no_form (s := { s with cache := c })
      fun a0 v a hv => hno a0 v a (hv.any_cache s.cache)

/-- The writers of the cache (R38): a miss of CACHE is counted as one. -/
theorem exec_cache_writers {i : Instr} (h : exec i s = .next t) (hne : t.cache ≠ s.cache) :
    (opcodeOf i).toNat ∈ [19, 20] ∨ ((opcodeOf i).toNat = 13 ∧ t.cacheMisses = s.cacheMisses + 1) := by
  obtain ⟨-, rfl⟩ | ⟨-, u, hu, rfl⟩ | ⟨-, k, -, rfl⟩ := exec_next h
  · exact absurd rfl hne
  · exact hu.cache_writers.resolve_left hne
  · exact absurd rfl hne

end AnyCache

end Sys2Proof.Machine

namespace Sys2Proof
open Sys2Proof.Machine

/-- Settles O29: a hit and a miss by the two outcomes of `CacheAccess`. -/
theorem cacheRule : Obligations.CacheRule := by
  refine fun s => ⟨fun n k hn => ⟨fun v hk => ?_, fun hk => ?_⟩, fun r _ => faults_cache_of_no_form⟩
  · exact ⟨_, exec_cache_of_hit hn hk, State.setsReg_writeReg_booked s.countHit n v 0x0D#8, rfl⟩
  · obtain ⟨v, h⟩ := exec_cache_of_miss hn hk
    exact ⟨_, v, h, State.setsReg_writeReg_booked (s.fillMiss k v) n v 0x0D#8, State.cached_fillMiss_same s k v,
      fun j hj => State.cached_fillMiss_other s k v j hj, rfl⟩

/-- Settles O30. -/
theorem cacheFlushRule : Obligations.CacheFlushRule :=
  fun s => ⟨⟨_, exec_cacheFlush_no_operand s, State.cached_flushCache s, rfl⟩,
    fun _ _ => faults_cacheFlush_of_operand⟩

/-- Settles O31. -/
theorem cacheInvalidateRule : Obligations.CacheInvalidateRule :=
  fun s => ⟨fun k => ⟨_, exec_cacheInvalidate_imm s k, State.cached_invalidate_same s k,
    fun j hj => State.cached_invalidate_other s k j hj, rfl⟩, fun _ _ => faults_cacheInvalidate_of_no_form⟩

/-- Settles O32: after the first CACHE, hit or miss, the key is cached with the word that its register holds. -/
theorem secondCacheAccessHits : Obligations.SecondCacheAccessHits := by
  intro s t k n m hn hm h
  have hcached : t.cached k = some (t.readReg n.toNat) ∧ t.cfg = s.cfg := by
    cases hk : s.cached k with
    | some v =>
      obtain rfl := Host.Outcome.next.inj ((exec_cache_of_hit hn hk).symm.trans h)
      exact ⟨hk.trans (congrArg some (State.readReg_writeReg_same _ _ _).symm), rfl⟩
    | none =>
      obtain ⟨v, hmiss⟩ := exec_cache_of_miss hn hk
      obtain rfl := Host.Outcome.next.inj (hmiss.symm.trans h)
      exact ⟨(State.cached_fillMiss_same s k v).trans (congrArg some (State.readReg_writeReg_same _ _ _).symm), rfl⟩
  exact ⟨_, exec_cache_of_hit (hm.of_cfg_eq hcached.2) hcached.1, State.readReg_writeReg_same _ _ _, rfl, rfl, rfl⟩

/-- Settles O35: the writers of the two stores, and for each instruction on one of them the same outcome, by the form
of its operands, whatever the other holds. -/
theorem cacheAndRamAreIndependent : Obligations.CacheAndRamAreIndependent := by
  refine ⟨fun i s t h => ⟨fun hmem => ?_, exec_cache_writers h⟩,
    fun r s t m => ⟨exec_cache_any_mem m, exec_cacheFlush_any_mem m, exec_cacheInvalidate_any_mem m⟩,
    fun r s t c => ⟨exec_load_any_cache c, exec_store_any_cache c⟩⟩
  obtain ⟨-, -, -, -, -, -, -, -, -, -, hstore, hcache, -⟩ := eachItemHasItsWriters i s t h
  have hopc := hstore hmem
  refine ⟨hopc, by_contra fun hne => ?_⟩
  simpa [hopc] using hcache hne

end Sys2Proof
end

