-- ==== Sys2Proof/Proofs/DiskInstr.lean ====
section
/-! DISK_READ, DISK_WRITE and DISK_SEEK (20_memory.md R40; 44_disk.md R120 to R122): the next state of each by the range
of its sector, the fault for every other operand list, and the statements O36 to O39 assembled from these. -/

namespace Sys2Proof.Machine

/-! ### Sectors after a write (R18) -/

@[simp] theorem State.sector_writeSector_same (s : State) (n : Nat) (x : Sector) : (s.writeSector n x).sector n = x :=
  Cells.read_write_same Sector.blank s.disk n x

theorem State.sector_writeSector_other (s : State) (n b : Nat) (x : Sector) (h : b ≠ n) :
    (s.writeSector n x).sector b = s.sector b := Cells.read_write_other Sector.blank s.disk n b x h

/-! ### Operands that resolve, and a sector in `[0, NSECT)` or not -/

section Resolved
variable {s : State} {a : Word}

theorem exec_diskRead_of_inRange {n : BitVec 32} (hn : s.HasReg n) (h : 0 ≤ a.toInt ∧ a.toInt < s.cfg.nsect) :
    exec (.diskRead ⟨.reg n, .imm a, .absent, false⟩) s
      = .next ((((s.chargeRead Config.tDisk2).writeReg n.toNat (s.sector a.toInt.toNat).val).advance).retire
          0x0E#8) := by
  have hread := diskRead_eq_ok.mpr ⟨_, validateIndex_of_inRange h, rfl, rfl⟩
  simp only [exec, execDiskRead, checks_of_reg_lit hn, hread, Check.ok_bind]
  rfl

theorem faults_diskRead_of_outOfRange {n : BitVec 32} (hn : s.HasReg n)
    (h : ¬ (0 ≤ a.toInt ∧ a.toInt < s.cfg.nsect)) :
    Faults (.diskRead ⟨.reg n, .imm a, .absent, false⟩) s .outOfRange := by
  rw [faults_iff]
  simp only [exec, execDiskRead, checks_of_reg_lit hn, diskRead_eq_outOfRange.mpr h, Check.error_bind,
    conclude_raise]

theorem exec_diskWrite_of_inRange {a0 : Operand} {v : Word} (hv : s.Denotes a0 v)
    (h : 0 ≤ a.toInt ∧ a.toInt < s.cfg.nsect) :
    exec (.diskWrite ⟨a0, .imm a, .absent, false⟩) s
      = .next ((((s.writeSector a.toInt.toNat ⟨v, true⟩).chargeWrite Config.tDisk2).advance).retire 0x0F#8) := by
  have hwrite := diskWrite_eq_ok (v := v).mpr ⟨_, validateIndex_of_inRange h, rfl⟩
  simp only [exec, execDiskWrite, checks_of_value_lit hv, hwrite, Check.ok_bind]
  rfl

theorem faults_diskWrite_of_outOfRange {a0 : Operand} {v : Word} (hv : s.Denotes a0 v)
    (h : ¬ (0 ≤ a.toInt ∧ a.toInt < s.cfg.nsect)) :
    Faults (.diskWrite ⟨a0, .imm a, .absent, false⟩) s .outOfRange := by
  rw [faults_iff]
  simp only [exec, execDiskWrite, checks_of_value_lit hv, diskWrite_eq_outOfRange.mpr h, Check.error_bind,
    conclude_raise]

theorem exec_diskSeek_of_inRange (h : 0 ≤ a.toInt ∧ a.toInt < s.cfg.nsect) :
    exec (.diskSeek ⟨.imm a, .absent, .absent, false⟩) s
      = .next ((((s.moveHead a.toInt.toNat).chargeTime
          (seekDistance a.toInt.toNat s.head * Config.tSeek2)).advance).retire 0x10#8) := by
  have hseek := diskSeek_eq_ok.mpr ⟨_, validateIndex_of_inRange h, rfl⟩
  simp only [exec, execDiskSeek, checks_of_lit, hseek, Check.ok_bind]
  rfl

theorem faults_diskSeek_of_outOfRange (h : ¬ (0 ≤ a.toInt ∧ a.toInt < s.cfg.nsect)) :
    Faults (.diskSeek ⟨.imm a, .absent, .absent, false⟩) s .outOfRange := by
  rw [faults_iff]
  simp only [exec, execDiskSeek, checks_of_lit, diskSeek_eq_outOfRange.mpr h, Check.error_bind, conclude_raise]

end Resolved

/-- The time charged for a seek, as the word of the exact distance in sectors (R122, R166). -/
theorem seek_cost_eq {a : Word} (h : 0 ≤ a.toInt) (head : Nat) :
    BitVec.ofNat 64 (seekDistance a.toInt.toNat head * Config.tSeek2) = BitVec.ofInt 64 |a.toInt - (head : Int)| := by
  rw [seekDistance, Config.tSeek2, Nat.mul_one, Int.toNat_of_nonneg h, Int.abs_eq_natAbs, BitVec.ofInt_natCast]

/-- A DISK_SEEK that completes leaves the head at its sector, and charges the distance from where the head was. -/
theorem exec_diskSeek_completed {s t : State} {a : Word}
    (h : exec (.diskSeek ⟨.imm a, .absent, .absent, false⟩) s = .next t) (ht : t.run = .running) :
    (t.head : Int) = a.toInt ∧ t.time2 = s.time2 + BitVec.ofInt 64 |a.toInt - (s.head : Int)| := by
  by_cases hin : 0 ≤ a.toInt ∧ a.toInt < s.cfg.nsect
  · obtain rfl := Host.Outcome.next.inj ((exec_diskSeek_of_inRange hin).symm.trans h)
    exact ⟨Int.toNat_of_nonneg hin.1, congrArg (s.time2 + ·) (seek_cost_eq hin.1 s.head)⟩
  · exact absurd ht ((faults_diskSeek_of_outOfRange hin).not_completed h)

end Sys2Proof.Machine

namespace Sys2Proof
open Sys2Proof.Machine

/-- Settles O36. -/
theorem diskReadRule : Obligations.DiskReadRule := by
  refine fun s => ⟨fun n a hn => ?_, fun r _ hno => conclude_invalid_reg_lit hno⟩
  split
  next h =>
    exact ⟨_, exec_diskRead_of_inRange hn h, State.setsReg_writeReg_booked (s.chargeRead Config.tDisk2) n _ 0x0E#8,
      rfl⟩
  next h => exact faults_diskRead_of_outOfRange hn h

/-- Settles O37. -/
theorem diskWriteRule : Obligations.DiskWriteRule := by
  refine fun s => ⟨fun a0 v a hv => ?_, fun r _ hno => conclude_invalid_value_lit hno⟩
  split
  next h =>
    exact ⟨_, exec_diskWrite_of_inRange hv h, State.sector_writeSector_same s _ _,
      fun b hb => State.sector_writeSector_other s _ b _ hb, rfl⟩
  next h => exact faults_diskWrite_of_outOfRange hv h

/-- Settles O38. -/
theorem diskSeekRule : Obligations.DiskSeekRule := by
  refine fun s => ⟨fun a => ?_, fun r _ hno => conclude_invalid_lit hno⟩
  split
  next h =>
    rw [exec_diskSeek_of_inRange h, ← seek_cost_eq h.1]
    rfl
  next h => exact faults_diskSeek_of_outOfRange h

/-- Settles O39: the second seek starts where the first left the head. -/
theorem seekCostDependsOnPath : Obligations.SeekCostDependsOnPath := by
  intro s t u a b _ ha ht hb hu
  obtain ⟨hhead, htime⟩ := exec_diskSeek_completed ha ht
  obtain ⟨hhead', htime'⟩ := exec_diskSeek_completed hb hu
  refine ⟨hhead', ?_⟩
  rw [htime', htime, hhead, BitVec.ofInt_add, BitVec.add_assoc]

end Sys2Proof
end

