-- ==== Sys2Proof/Proofs/PortInstr.lean ====
section
/-! IN, OUT and INJECT (45_io.md R130 to R132): the two outcomes of IN, the append of OUT and of INJECT, the faults, and
the statements O40 to O43 assembled from these. -/

namespace Sys2Proof.Machine

/-! ### Port buffers and records after a write (R19, R20) -/

@[simp] theorem State.inBuffer_setInBuffer_same (s : State) (p : Nat) (q : List Word) :
    (s.setInBuffer p q).inBuffer p = q := Cells.read_write_same [] s.inq p q

theorem State.inBuffer_setInBuffer_other (s : State) (p b : Nat) (q : List Word) (h : b ≠ p) :
    (s.setInBuffer p q).inBuffer b = s.inBuffer b := Cells.read_write_other [] s.inq p b q h

@[simp] theorem State.outRecord_portOut_same (s : State) (p : Nat) (v : Word) :
    (s.portOut p v).outRecord p = s.outRecord p ++ [v] := Cells.read_write_same [] s.outq p _

theorem State.outRecord_portOut_other (s : State) (p b : Nat) (v : Word) (h : b ≠ p) :
    (s.portOut p v).outRecord b = s.outRecord b := Cells.read_write_other [] s.outq p b _ h

theorem inPortOf_of_lt {s : State} {p : BitVec 32} (h : p.toNat < s.cfg.nin) : inPortOf s (.pin p) = .ok p.toNat :=
  inPortOf_eq_ok.mpr ⟨p, rfl, h, rfl⟩

theorem outPortOf_of_lt {s : State} {p : BitVec 32} (h : p.toNat < s.cfg.nout) :
    outPortOf s (.pout p) = .ok p.toNat :=
  outPortOf_eq_ok.mpr ⟨p, rfl, h, rfl⟩

/-! ### IN (R130) -/

section In
variable {s : State} {n p : BitVec 32}

/-- IN of a register and an input port that exist, whatever the buffer holds. -/
theorem exec_in_of_port (hn : s.HasReg n) (hp : p.toNat < s.cfg.nin) :
    exec (.inp ⟨.reg n, .pin p, .absent, false⟩) s
      = .next (((((portIn s p.toNat).2.writeReg n.toNat (portIn s p.toNat).1)).advance).retire 0x11#8) := by
  have hargc : checkArgc ⟨.reg n, .pin p, .absent, false⟩ [2] = .ok () := checkArgc_two (by simp) (by simp)
  simp only [exec, execIn, hargc, regDest_of_hasReg hn, inPortOf_of_lt hp, Check.ok_bind]
  rfl

theorem exec_in_of_cons (hn : s.HasReg n) (hp : p.toNat < s.cfg.nin) {v : Word} {rest : List Word}
    (hbuf : s.inBuffer p.toNat = v :: rest) :
    exec (.inp ⟨.reg n, .pin p, .absent, false⟩) s
      = .next ((((s.setInBuffer p.toNat rest).writeReg n.toNat v).advance).retire 0x11#8) := by
  have hin : portIn s p.toNat = (v, s.setInBuffer p.toNat rest) := by simp [portIn, hbuf]
  rw [exec_in_of_port hn hp, hin]

/-- From an empty buffer some word is drawn, of which nothing is said (log 2). -/
theorem exec_in_of_nil (hn : s.HasReg n) (hp : p.toNat < s.cfg.nin) (hbuf : s.inBuffer p.toNat = []) :
    ∃ v, exec (.inp ⟨.reg n, .pin p, .absent, false⟩) s
      = .next (((s.countInputDraw.writeReg n.toNat v).advance).retire 0x11#8) := by
  have hin : portIn s p.toNat = (Config.inputDraw s.inputDraws p.toNat, s.countInputDraw) := by simp [portIn, hbuf]
  exact ⟨_, by rw [exec_in_of_port hn hp, hin]⟩

theorem faults_in_of_no_port {a1 : Operand} (hn : s.HasReg n) (ha : a1 ≠ .absent)
    (h : ∀ p : BitVec 32, p.toNat < s.cfg.nin → a1 ≠ .pin p) :
    Faults (.inp ⟨.reg n, a1, .absent, false⟩) s .deviceError := by
  have hargc : checkArgc ⟨.reg n, a1, .absent, false⟩ [2] = .ok () := checkArgc_two (by simp) ha
  rw [faults_iff]
  simp only [exec, execIn, hargc, regDest_of_hasReg hn, inPortOf_of_none h, Check.ok_bind, Check.error_bind,
    conclude_raise]

/-- The port is looked at only after the argument count and the destination (R146). -/
theorem faults_in_of_no_form {r : Args} (hw : r.wellFormed = true)
    (h : ∀ n a1, s.HasReg n → a1 ≠ .absent → r ≠ ⟨.reg n, a1, .absent, false⟩) :
    Faults (.inp r) s .invalidOperand := by
  refine conclude_invalid_first (fun _ => regDest_error) fun hc d hd => ?_
  obtain ⟨a0, a1, -, ha1, rfl⟩ := (argc_eq_two hw).mp (List.mem_singleton.mp hc)
  obtain ⟨n, h0, hlo, hhi, -⟩ := regDest_eq_ok.mp hd
  obtain rfl : a0 = .reg n := h0
  exact h n a1 ⟨hlo, hhi⟩ ha1 rfl

end In

/-! ### OUT (R131) -/

section Out
variable {s : State} {a0 : Operand} {v : Word}

theorem exec_out_of_port {p : BitVec 32} (hv : s.Denotes a0 v) (hp : p.toNat < s.cfg.nout) :
    exec (.out ⟨a0, .pout p, .absent, false⟩) s = .next (((s.portOut p.toNat v).advance).retire 0x12#8) := by
  have hargc : checkArgc ⟨a0, .pout p, .absent, false⟩ [2] = .ok () := checkArgc_two hv.ne_absent (by simp)
  simp only [exec, execOut, hargc, valueOf_eq_ok.mpr hv, outPortOf_of_lt hp, Check.ok_bind]
  rfl

theorem faults_out_of_no_port {a1 : Operand} (hv : s.Denotes a0 v) (ha : a1 ≠ .absent)
    (h : ∀ p : BitVec 32, p.toNat < s.cfg.nout → a1 ≠ .pout p) :
    Faults (.out ⟨a0, a1, .absent, false⟩) s .deviceError := by
  have hargc : checkArgc ⟨a0, a1, .absent, false⟩ [2] = .ok () := checkArgc_two hv.ne_absent ha
  rw [faults_iff]
  simp only [exec, execOut, hargc, valueOf_eq_ok.mpr hv, outPortOf_of_none h, Check.ok_bind, Check.error_bind,
    conclude_raise]

/-- The port is looked at only after the argument count and the value (R146). -/
theorem faults_out_of_no_form {r : Args} (hw : r.wellFormed = true)
    (h : ∀ a0 v a1, s.Denotes a0 v → a1 ≠ .absent → r ≠ ⟨a0, a1, .absent, false⟩) :
    Faults (.out r) s .invalidOperand := by
  refine conclude_invalid_first (fun _ => valueOf_error) fun hc v hv => ?_
  obtain ⟨a0, a1, -, ha1, rfl⟩ := (argc_eq_two hw).mp (List.mem_singleton.mp hc)
  exact h a0 v a1 (valueOf_eq_ok.mp hv) ha1 rfl

end Out

/-! ### The ports across a START (R162) -/

/-- START keeps the input buffers and the parameters. -/
theorem hostStart_keeps_inBuffer (image : List IWord) (s : State) (p : Nat) :
    (hostStart image s).1.inBuffer p = s.inBuffer p ∧ (hostStart image s).1.cfg = s.cfg := by
  obtain h | ⟨line, h⟩ := hostStart_cases image s <;> rw [h] <;> exact ⟨rfl, rfl⟩

end Sys2Proof.Machine

namespace Sys2Proof
open Sys2Proof.Machine

/-- Settles O40: by whether the buffer is empty, and the faults by the first check that fails. -/
theorem inRule : Obligations.InRule := by
  refine fun s => ⟨fun n p hn hp => ⟨fun v rest hbuf => ?_, fun hbuf => ?_⟩,
    fun n a1 hn ha h => faults_in_of_no_port hn ha h, fun r => faults_in_of_no_form⟩
  · exact ⟨_, exec_in_of_cons hn hp hbuf, State.setsReg_writeReg_booked (s.setInBuffer p.toNat rest) n v 0x11#8,
      State.inBuffer_setInBuffer_same s p.toNat rest,
      fun q hq => State.inBuffer_setInBuffer_other s p.toNat q rest hq, rfl⟩
  · obtain ⟨v, h⟩ := exec_in_of_nil hn hp hbuf
    exact ⟨_, v, h, State.setsReg_writeReg_booked s.countInputDraw n v 0x11#8, rfl⟩

/-- Settles O41. -/
theorem outRule : Obligations.OutRule :=
  fun s => ⟨fun _ v p hv hp => ⟨_, exec_out_of_port hv hp, State.outRecord_portOut_same s p.toNat v,
      fun q hq => State.outRecord_portOut_other s p.toNat q v hq, rfl⟩,
    fun _ _ _ hv ha h => faults_out_of_no_port hv ha h, fun _ => faults_out_of_no_form⟩

/-- Settles O42. -/
theorem injectRule : Obligations.InjectRule := by
  refine fun s p v => ⟨fun hp => if_neg (by omega), fun hp => ?_⟩
  have h : hostInject p v s = (s.injectWord p v, .ok) := if_pos hp
  rw [h]
  exact ⟨rfl, State.inBuffer_setInBuffer_same s p _, fun q hq => State.inBuffer_setInBuffer_other s p q _ hq, rfl⟩

/-- Settles O43: START keeps the buffer that INJECT has left, in which the word stands alone. -/
theorem injectedWordIsRead : Obligations.InjectedWordIsRead := by
  intro s p n v image hp hn hbuf
  obtain ⟨-, hinject, -, hframe⟩ := (injectRule s p.toNat v).2 hp
  obtain ⟨hkeep, hcfg⟩ := hostStart_keeps_inBuffer image (hostInject p.toNat v s).1 p.toNat
  have hcfg' : (hostStart image (hostInject p.toNat v s).1).1.cfg = s.cfg := by rw [hcfg, hframe]
  rw [hinject, hbuf] at hkeep
  exact ⟨_, exec_in_of_cons (hn.of_cfg_eq hcfg') (by rw [hcfg']; exact hp) hkeep,
    State.readReg_writeReg_same _ _ _,
    State.inBuffer_setInBuffer_same (hostStart image (hostInject p.toNat v s).1).1 p.toNat []⟩

end Sys2Proof
end

