-- ==== Sys2Proof/Proofs/StartReset.lean ====
section
/-! RESET and START (40_engine_cycle.md R71; 70_reset_and_hazards.md R160 to R162) and the images that the assembler
gives (30_encoding.md R59 to R61): the statements O54 to O57 assembled from these. -/

namespace Sys2Proof.Machine

/-! ### START by what its validation finds (R71) -/

/-- The first ill-formed word is the one that validation reports. -/
theorem firstIllFormed_eq_some {image : List IWord} {k : Nat} (hk : k < image.length)
    (hbad : wordWellFormed (image.getD k 0) = false)
    (hgood : ∀ j, j < k → wordWellFormed (image.getD j 0) = true) : firstIllFormed image = some k := by
  induction image generalizing k with
  | nil => simp at hk
  | cons iw rest ih =>
    cases k with
    | zero =>
      have hiw : wordWellFormed iw = false := hbad
      simp [firstIllFormed, hiw]
    | succ k =>
      have hiw : wordWellFormed iw = true := hgood 0 (Nat.succ_pos k)
      have hrest : firstIllFormed rest = some k :=
        ih (Nat.lt_of_succ_lt_succ hk) hbad fun j hj => hgood (j + 1) (Nat.succ_lt_succ hj)
      simp [firstIllFormed, hiw, hrest]

section Start
variable {s : State} {image : List IWord}

theorem hostStart_of_too_long (h : s.cfg.progMax < image.length) :
    hostStart image s = (s, .parseError (s.cfg.progMax + 1)) := by
  have hv : validateImage s image = .parseError (s.cfg.progMax + 1) := if_pos h
  simp only [hostStart, hv]

theorem hostStart_of_illFormed (hlen : image.length ≤ s.cfg.progMax) {k : Nat} (h : firstIllFormed image = some k) :
    hostStart image s = (s, .parseError (k + 1)) := by
  have hv : validateImage s image = .parseError (k + 1) := by simp [validateImage, h, not_lt.mpr hlen]
  simp only [hostStart, hv]

theorem hostStart_of_wellFormed (hlen : image.length ≤ s.cfg.progMax)
    (h : ∀ iw ∈ image, wordWellFormed iw = true) : hostStart image s = (s.install image, .ok) := by
  have hv : validateImage s image = .ok := by
    simp [validateImage, firstIllFormed_eq_none.mpr h, not_lt.mpr hlen]
  simp only [hostStart, hv]

end Start

/-! ### The assembler (R59 to R61) -/

theorem numberedOperand_ne_absent {mk : BitVec 32 → Operand} (h : ∀ n, mk n ≠ .absent) (ds : List Char) :
    numberedOperand mk ds ≠ .absent := by
  unfold numberedOperand
  split
  · split
    · exact h _
    · simp
  · simp

/-- A token is some operand, a bad one at worst (R60). -/
theorem classifyToken_ne_absent (token : List Char) : classifyToken token ≠ .absent := by
  unfold classifyToken
  split
  · exact numberedOperand_ne_absent (by simp) _
  · exact numberedOperand_ne_absent (by simp) _
  · exact numberedOperand_ne_absent (by simp) _
  all_goals
    split
    · split <;> simp
    · simp

/-- The operands of a line have no gap, and `xa` only beside a third one (R50). -/
theorem argsOfTokens_wellFormed (tokens : List (List Char)) : (argsOfTokens tokens).wellFormed = true := by
  have hne := classifyToken_ne_absent
  unfold argsOfTokens
  split <;> simp [Args.wellFormed, Args.noGap, Args.xaHasThird, hne]

/-- A mnemonic makes a well-formed record of well-formed operands. -/
theorem mnemonicTable_wellFormed {e : List Char × (Args → Instr)} (h : e ∈ mnemonicTable) (r : Args) :
    (e.2 r).wellFormed = r.wellFormed := by
  simp only [mnemonicTable, List.cons_append, List.nil_append, List.mem_cons, List.not_mem_nil, or_false] at h
  rcases h with rfl | rfl | rfl | rfl | rfl | rfl | rfl | rfl | rfl | rfl | rfl | rfl | rfl | rfl | rfl | rfl | rfl
    | rfl | rfl | rfl <;> rfl

theorem assembleLine_wellFormed {line : List Char} {i : Instr} (h : assembleLine line = some i) :
    i.wellFormed = true := by
  unfold assembleLine at h
  split at h
  · obtain rfl := Option.some.inj h
    rfl
  · obtain rfl := Option.some.inj h
    rfl
  · split at h
    · simp at h
    · split at h
      next e he =>
        obtain rfl := Option.some.inj h
        rw [mnemonicTable_wellFormed (List.mem_of_find?_eq_some he)]
        exact argsOfTokens_wellFormed _
      next => simp at h

/-- The image of accepted lines has the word of one well-formed record for each line. -/
theorem assembleFrom_eq_ok {n : Nat} {lines : List (List Char)} {image : List IWord}
    (h : assembleFrom n lines = .ok image) :
    image.length = lines.length ∧ ∀ iw ∈ image, wordWellFormed iw = true := by
  induction lines generalizing n image with
  | nil =>
    obtain rfl := Except.ok.inj h
    simp
  | cons line lines ih =>
    unfold assembleFrom at h
    split at h
    next => simp at h
    next i hi =>
      split at h
      next words hwords =>
        obtain rfl := Except.ok.inj h
        obtain ⟨hlen, hwf⟩ := ih hwords
        refine ⟨by simp [hlen], fun iw hiw => ?_⟩
        obtain rfl | hmem := List.mem_cons.mp hiw
        · exact wordWellFormed_encode (assembleLine_wellFormed hi)
        · exact hwf iw hmem
      next => simp at h

/-- The image of an accepted text fits the program store, has one word a line, and only well-formed words. -/
theorem assemble_eq_ok {c : Config} {text : List Char} {image : List IWord} (h : assemble c text = .ok image) :
    image.length = (splitLines text).length ∧ image.length ≤ c.progMax
      ∧ ∀ iw ∈ image, wordWellFormed iw = true := by
  unfold assemble at h
  split at h
  next => simp at h
  next hlen =>
    obtain ⟨hlines, hwf⟩ := assembleFrom_eq_ok h
    exact ⟨hlines, by omega, hwf⟩

end Sys2Proof.Machine

namespace Sys2Proof
open Sys2Proof.Machine

/-- Settles O54: every store of the reset state is empty and every number 0, whatever the state was. -/
theorem resetZeroesEveryItem : Obligations.ResetZeroesEveryItem :=
  fun _ => ⟨fun _ => rfl, fun _ => rfl, fun _ => rfl, fun _ => rfl, fun _ => rfl, fun _ => rfl, fun _ => rfl, rfl, rfl,
    rfl, rfl, rfl, rfl, rfl, rfl, rfl, rfl, rfl, rfl, rfl⟩

/-- Settles O55: RESET reads the parameters and the draws already taken only. -/
theorem resetIsIdempotent : Obligations.ResetIsIdempotent := by
  refine ⟨fun _ => rfl, fun s u hcfg hcache hinput => ?_, rfl⟩
  rw [State.hostReset, State.hostReset, hcfg, hcache, hinput]

/-- Settles O56, by what the validation phase finds. -/
theorem startRule : Obligations.StartRule := by
  refine fun s image => ⟨hostStart_of_too_long, fun hlen => ⟨fun k hk hbad hgood => ?_, fun hwords => ?_⟩⟩
  · exact hostStart_of_illFormed hlen (firstIllFormed_eq_some hk hbad hgood)
  · rw [hostStart_of_wellFormed hlen hwords]
    exact ⟨rfl, rfl⟩

/-- Settles O57: each line gives the word of a well-formed record. -/
theorem assembledTextStarts : Obligations.AssembledTextStarts := by
  intro s text image h
  obtain ⟨hlines, hlen, hwords⟩ := assemble_eq_ok h
  exact ⟨hlines, by rw [hostStart_of_wellFormed hlen hwords]⟩

end Sys2Proof
end

