-- ==== Sys2Proof/Proofs/ImageBytes.lean ====
section
/-! Words and images as bytes (20_memory.md R31): a word is read back from its 16 bytes by induction on how many of
them have been taken in, an image word by word, and the statement O5 assembled from these. -/

namespace Sys2Proof

/-! ### One word -/

@[simp] theorem wordToBytes_length (iw : IWord) : (wordToBytes iw).length = 16 := by
  simp [wordToBytes]

theorem wordToBytes_getElem? (iw : IWord) {j : Nat} (h : j < 16) :
    (wordToBytes iw)[j]? = some (iw.extractLsb' (120 - 8 * j) 8) := by
  simp [wordToBytes, h]

/-- The next byte below the bits already taken in. -/
theorem shiftLeft_or_byte (iw : IWord) (m : Nat) :
    (iw >>> (m + 8)) <<< 8 ||| (iw.extractLsb' m 8).setWidth 128 = iw >>> m := by
  ext i hi
  by_cases h : i < 8
  · simp [h]
  · have hindex : m + 8 + (i - 8) = m + i := by omega
    simp [h, hindex]

/-- One more byte moves the others up (R31). -/
theorem bytesToWord_append_singleton (bs : List (BitVec 8)) (b : BitVec 8) :
    bytesToWord (bs ++ [b]) = bytesToWord bs <<< 8 ||| b.setWidth 128 := by
  simp [bytesToWord]

/-- The first `n` bytes make the word's upper `8 * n` bits. -/
theorem bytesToWord_take (iw : IWord) {n : Nat} (h : n ≤ 16) :
    bytesToWord ((List.range n).map fun j => iw.extractLsb' (120 - 8 * j) 8) = iw >>> (128 - 8 * n) := by
  induction n with
  | zero => exact (BitVec.ushiftRight_eq_zero (Nat.le_refl 128)).symm
  | succ n ih =>
    have hshift : 128 - 8 * n = 120 - 8 * n + 8 := by omega
    have hnext : 128 - 8 * (n + 1) = 120 - 8 * n := by omega
    rw [List.range_succ, List.map_append, List.map_singleton, bytesToWord_append_singleton, ih (by omega), hshift,
      hnext, shiftLeft_or_byte]

theorem bytesToWord_wordToBytes (iw : IWord) : bytesToWord (wordToBytes iw) = iw :=
  (bytesToWord_take iw (Nat.le_refl 16)).trans (by simp)

theorem decodeBytes_wordToBytes_append (iw : IWord) (rest : List (BitVec 8)) :
    decodeBytes (wordToBytes iw ++ rest) = some (decode iw, rest) := by
  have htake : (wordToBytes iw ++ rest).take 16 = wordToBytes iw := List.take_left' (wordToBytes_length iw)
  have hdrop : (wordToBytes iw ++ rest).drop 16 = rest := List.drop_left' (wordToBytes_length iw)
  rw [decodeBytes, htake, hdrop, bytesToWord_wordToBytes, if_neg (by simp)]

/-! ### An image -/

@[simp] theorem imageToBytes_length (image : List IWord) : (imageToBytes image).length = 16 * image.length := by
  induction image with
  | nil => rfl
  | cons iw rest ih =>
    simp only [imageToBytes, List.length_append, wordToBytes_length, ih, List.length_cons]
    omega

/-- From byte `16 * k` on stand the bytes of the words from `k` on. -/
theorem imageToBytes_drop (image : List IWord) (k : Nat) :
    (imageToBytes image).drop (16 * k) = imageToBytes (image.drop k) := by
  induction k generalizing image with
  | zero => rfl
  | succ k ih =>
    cases image with
    | nil => simp [imageToBytes]
    | cons iw rest =>
      rw [imageToBytes, List.drop_succ_cons, ← ih rest, show 16 * (k + 1) = 16 + 16 * k by omega, ← List.drop_drop,
        List.drop_left' (wordToBytes_length iw)]

/-- They begin with the bytes of word `k`. -/
theorem imageToBytes_drop_eq_append {image : List IWord} {k : Nat} (h : k < image.length) :
    (imageToBytes image).drop (16 * k)
      = wordToBytes (image.getD k 0) ++ (imageToBytes image).drop (16 * (k + 1)) := by
  rw [imageToBytes_drop, imageToBytes_drop, List.drop_eq_getElem_cons h, imageToBytes,
    List.getD_eq_getElem _ _ h]

theorem imageToBytes_getElem? {image : List IWord} {k j : Nat} (hk : k < image.length) (hj : j < 16) :
    (imageToBytes image)[16 * k + j]? = some ((image.getD k 0).extractLsb' (120 - 8 * j) 8) := by
  rw [← List.getElem?_drop, imageToBytes_drop_eq_append hk, List.getElem?_append_left (by simpa using hj),
    wordToBytes_getElem? _ hj]

theorem decodeBytes_imageToBytes_drop {image : List IWord} {k : Nat} (h : k < image.length) :
    decodeBytes ((imageToBytes image).drop (16 * k))
      = some (decode (image.getD k 0), (imageToBytes image).drop (16 * (k + 1))) := by
  rw [imageToBytes_drop_eq_append h]
  exact decodeBytes_wordToBytes_append _ _

/-- Settles O5: the bytes of one word by induction on the bytes taken in, those of an image word by word. -/
theorem imageBytesRoundTrip : Obligations.ImageBytesRoundTrip :=
  ⟨fun iw => ⟨wordToBytes_length iw, bytesToWord_wordToBytes iw, fun _ => wordToBytes_getElem? iw⟩,
    decodeBytes_wordToBytes_append,
    fun image => ⟨imageToBytes_length image, fun _ _ => imageToBytes_getElem?,
      fun _ => decodeBytes_imageToBytes_drop⟩⟩

end Sys2Proof
end
